-- ==== Sys2Proof/Word.lean ====
section
/-! DEFINITION. The words and cell values of HUFF (00_scope.md R9: bit 0 is the least significant bit of every word). -/

namespace Sys2Proof

/-- A register, a bus data word, a count or a weight: 32 bits (00_scope.md R7 CNT_W, 10_state.md R21). -/
abbrev Word := BitVec 32

/-- A symbol: SYM_W bits, SYM_W at most 15 (00_scope.md R6, R8); kept in the widest legal width, so a symbol of a narrower build has zero high bits. -/
abbrev Sym := BitVec 15

/-- One bit token of BIT (10_state.md R36): 0 and 1 are the digits, 2 and 3 are INVALID. -/
abbrev Token := BitVec 2

/-- One bit of a code, as a cell of CBITS holds it (10_state.md R44). -/
abbrev CodeBit := BitVec 1

/-- A node index (10_state.md R39). -/
abbrev NodeIx := BitVec 16

/-- The absent node index NIL (00_scope.md R7). -/
abbrev NIL : NodeIx := 0xFFFF

end Sys2Proof
end

