-- ==== Sys2Proof/Syntax.lean ====
section
/-! DEFINITION. The instructions of HUFF: one constructor per row of spec/opcode_table.json, and the names their operands use (30_encoding.md, 40_command_control.md). -/

namespace Sys2Proof

/-- One HUFF operation. The first nine are what the CORE runs for a CMD word (30_encoding.md R102, R103); the last two are the HOST's bus operations (40_command_control.md R137, R138). The three ILLEGAL constructors are the table's three ILLEGAL rows; together their operands are the whole word. -/
inductive Instr where
  | nop
  | freq
  | build
  | gentab
  | encode
  | decode
  /-- OP 6 and 7, RSV = 0: bit 0 of the word. -/
  | illegalOp6 (lo : BitVec 1)
  /-- OP 8 to 15, RSV = 0: bits 2:0 of the word. -/
  | illegalOp8 (lo : BitVec 3)
  /-- RSV not 0, whatever OP. -/
  | illegalRsv (rsv : BitVec 28) (op : BitVec 4)
  /-- One 32-bit read at a byte offset of the window. -/
  | rd (offset : BitVec 8)
  /-- One 32-bit write at a byte offset of the window. -/
  | wr (offset : BitVec 8) (data : Word)
  deriving DecidableEq, Repr

/-- The access sizes a host bus may ask for (20_memory.md R71). -/
inductive AccessSize where
  | byte
  | half
  | word
  deriving DecidableEq, Repr

/-- One host bus transaction: a direction, a size, a byte offset and, for a write, a data word (20_memory.md R70, 30_encoding.md R105). -/
inductive BusAccess where
  | read (size : AccessSize) (offset : BitVec 8)
  | write (size : AccessSize) (offset : BitVec 8) (data : Word)
  deriving DecidableEq, Repr

/-- What is decoded: the word of a command in flight, or a bus transaction. -/
inductive Code where
  | cmd (w : Word)
  | bus (a : BusAccess)
  deriving DecidableEq, Repr

/-- The seventeen registers (10_state.md R21). -/
inductive Reg where
  | id | cfg | symDepth | bitDepth | outDepth | cmd | status | errInfo
  | symLen | bitLen | outLen | nEntries | tree | accCtrl | accIndex | accData | irqEn
  deriving DecidableEq, Repr

/-- The ten memory views of the access port (20_memory.md R76). -/
inductive View where
  | sym | bit | out | esym | ecnt | nodeLr | nodeWt | nodeSym | clen | cbits
  deriving DecidableEq, Repr

end Sys2Proof
end

