-- ==== Sys2Proof/WellFormed.lean ====
section
/-! DEFINITION. Which terms of Instr stand for an encoding (30_encoding.md R103). -/

namespace Sys2Proof

/-- The one check: the third ILLEGAL row is for words with RSV not 0 (spec/opcode_table.json, its "condition"). Every other constructor's operands range over exactly the values their fields admit. -/
def Instr.wellFormed : Instr → Bool
  | .illegalRsv rsv _ => rsv ≠ 0
  | .nop | .freq | .build | .gentab | .encode | .decode => true
  | .illegalOp6 _ | .illegalOp8 _ | .rd _ | .wr _ _ => true

end Sys2Proof
end

