-- ==== Sys2Proof/Decode.lean ====
section
/-! DEFINITION. Decoding of CMD words and bus transactions, total, and the encoder (30_encoding.md R100 to R105, 20_memory.md R70, R71). -/

namespace Sys2Proof

/-- Why a transaction is rejected (20_memory.md R71, U4). No CMD word is rejected: an illegal word is an instruction (30_encoding.md R104). -/
inductive DecodeError where
  | subWordAccess
  deriving DecidableEq, Repr

/-- OP, bits 3:0 of a CMD word (30_encoding.md R100). -/
def opField (w : Word) : BitVec 4 := w.extractLsb' 0 4

/-- RSV, bits 31:4 of a CMD word (30_encoding.md R100). -/
def rsvField (w : Word) : BitVec 28 := w.extractLsb' 4 28

/-- `decode_cmd` of 30_encoding.md R104: RSV first, then OP. -/
def decodeCmd (w : Word) : Instr :=
  if rsvField w ≠ 0 then .illegalRsv (rsvField w) (opField w)
  else
    match (opField w).toNat with
    | 0 => .nop
    | 1 => .freq
    | 2 => .build
    | 3 => .gentab
    | 4 => .encode
    | 5 => .decode
    | 6 | 7 => .illegalOp6 (w.extractLsb' 0 1)
    | _ => .illegalOp8 (w.extractLsb' 0 3)

/-- A bus transaction as an instruction: whole words only (20_memory.md R71). -/
def decodeAccess : BusAccess → Except DecodeError Instr
  | .read .word a => .ok (.rd a)
  | .write .word a d => .ok (.wr a d)
  | .read .byte _ | .read .half _ | .write .byte _ _ | .write .half _ _ => .error .subWordAccess

/-- The decoder: total on every CMD word and every transaction. -/
def decode : Code → Except DecodeError Instr
  | .cmd w => .ok (decodeCmd w)
  | .bus a => decodeAccess a

/-- The decoder as the host asks for it, on a word of the table's numbering: a CMD word is one 32-bit word (30_encoding.md R100). A word of more than 32 bits is no CMD word. -/
def decodeTableWord (nbits w : Nat) : Option Instr :=
  if nbits ≤ 32 then some (decodeCmd (BitVec.ofNat 32 (w % 2 ^ nbits))) else none

/-- The encoding of an instruction (30_encoding.md R102, R103, R105). -/
def encode : Instr → Code
  | .nop => .cmd 0
  | .freq => .cmd 1
  | .build => .cmd 2
  | .gentab => .cmd 3
  | .encode => .cmd 4
  | .decode => .cmd 5
  | .illegalOp6 lo => .cmd (3#31 ++ lo)
  | .illegalOp8 lo => .cmd (1#29 ++ lo)
  | .illegalRsv rsv op => .cmd (rsv ++ op)
  | .rd a => .bus (.read .word a)
  | .wr a d => .bus (.write .word a d)

/-- The row of spec/opcode_table.json an instruction stands for, as its match and mask; none for the two bus rows, which give no bits. -/
def tableRow : Instr → Option (Word × Word)
  | .nop => some (0x00000000, 0xFFFFFFFF)
  | .freq => some (0x00000001, 0xFFFFFFFF)
  | .build => some (0x00000002, 0xFFFFFFFF)
  | .gentab => some (0x00000003, 0xFFFFFFFF)
  | .encode => some (0x00000004, 0xFFFFFFFF)
  | .decode => some (0x00000005, 0xFFFFFFFF)
  | .illegalOp6 _ => some (0x00000006, 0xFFFFFFFE)
  | .illegalOp8 _ => some (0x00000008, 0xFFFFFFF8)
  | .illegalRsv _ _ => some (0x00000000, 0x00000000)
  | .rd _ => none
  | .wr _ _ => none

end Sys2Proof
end

