-- ==== Sys2Proof/Config.lean ====
section
/-! DEFINITION. What one build of HUFF fixes (00_scope.md R6) and the values the spec leaves free (93_implementation_defined.md U2, U7). -/

namespace Sys2Proof

/-- The four build parameters (00_scope.md R6, U8). They are carried by State as the content of the read-only registers CFG, SYMDEPTH, BITDEPTH and OUTDEPTH (10_state.md R23, R24), so that a statement about every state is a statement about every build. The types give the upper ends of the legal ranges. -/
structure Params where
  symW : BitVec 4
  symDepth : Word
  bitDepth : Word
  outDepth : Word
  deriving DecidableEq, Repr

/-- The default build (00_scope.md R6). -/
def Params.default : Params where
  symW := 8
  symDepth := 4096
  bitDepth := 32768
  outDepth := 4096

/-- The legal ranges of 00_scope.md R6: each parameter is at least 1. -/
def Params.legal (p : Params) : Bool :=
  p.symW ≠ 0 && p.symDepth ≠ 0 && p.bitDepth ≠ 0 && p.outDepth ≠ 0

/-- What an unspecified register read returns (U2: `any value`, a fresh draw per read): the n-th draw. UNINTERPRETED: nothing fixes a value of it (log entry 6). -/
opaque Config.freeWord : Nat → Word

/-- HUFF_BASE, the platform's base address of the register window (20_memory.md R70, U7). UNINTERPRETED (log entry 8). -/
opaque Config.huffBase : Nat

/-- The system address of byte offset `a` of the window (20_memory.md R70): HUFF itself decodes only the offset (U7). -/
def Config.systemAddress (a : BitVec 8) : Nat :=
  Config.huffBase + a.toNat

end Sys2Proof
end

