-- ==== Sys2Proof/Machine/State.lean ====
section
/-! DEFINITION. The state of HUFF: everything 10_state.md R20 gives the machine, the inputs still to come, and the state after reset. -/

namespace Sys2Proof.Machine

/-- Why the machine stops with a fault. -/
inductive Fault where
  /-- Raised by a command or by a host read of ACC_DATA that uses a cell nothing has written since reset (70_reset_and_hazards.md R312, U1: "A model must treat such a read as a fault (the run has no meaning), never as a value"). SAFE: the device goes on with some value, the model stops. -/
  | unwrittenCell (view : View) (index : Nat)
  deriving DecidableEq, Repr

/-- Why the machine refuses. -/
inductive Refusal where
  /-- Raised by exec's arm of an instruction that has no meaning yet (no arm uses it). SAFE: the model stops. -/
  | notModelled (mnemonic : String)
  /-- Raised by step for a byte or halfword bus access (20_memory.md R71, U4: "a model must refuse it (no step), never give it a value"). SAFE: the model stops. -/
  | subWordAccess
  deriving DecidableEq, Repr

/-- An on-chip memory, by cell index: the listed cells, strictly rising, none equal to `blank`; every other cell reads as `blank`, where `none` is "unspecified since reset" (10_state.md R47) and `some v` is "every cell was set to v" (what GENTAB's clearing loop does, 43_code_table.md R203). Log entry 3. -/
structure Mem (α : Type) where
  blank : Option α
  cells : List (Nat × α)
  deriving DecidableEq, Repr

/-- The NODE_LR part of a node cell (10_state.md R39). -/
structure NodeLr where
  left : NodeIx
  right : NodeIx
  deriving DecidableEq, Repr

/-- The NODE_SYM part of a node cell (10_state.md R39). -/
structure NodeSym where
  sym : Sym
  symv : Bool
  deriving DecidableEq, Repr

/-- The on-chip memories (10_state.md R35 to R44). NODE is stored as its three host views (20_memory.md R76), because the host writes each of them separately. -/
structure Mems where
  sym : Mem Sym
  bit : Mem Token
  out : Mem Sym
  esym : Mem Sym
  ecnt : Mem Word
  nodeLr : Mem NodeLr
  nodeWt : Mem Word
  nodeSym : Mem NodeSym
  clen : Mem (BitVec 16)
  cbits : Mem CodeBit
  deriving DecidableEq, Repr

/-- The registers with storage (10_state.md R21, R26 to R34, R48), by field. ID is a constant, CFG and the depth registers are views of the parameters, STATUS.BUSY is a view of the CORE state (R45), CMD and ACC_DATA have no storage. -/
structure Regs where
  done : Bool
  err : Bool
  reject : Bool
  accErr : Bool
  errCode : BitVec 4
  lastCmd : BitVec 4
  errInfo : Word
  symLen : Word
  bitLen : Word
  outLen : Word
  nEntries : Word
  root : NodeIx
  nNodes : BitVec 16
  accMem : BitVec 4
  autoInc : Bool
  accIndex : Word
  doneIe : Bool
  errIe : Bool
  deriving DecidableEq, Repr

/-- The CORE (10_state.md R45): IDLE, or RUNNING the command of a CMD word. -/
inductive Core where
  | idle
  | running (w : Word)
  deriving DecidableEq, Repr

/-- What may happen to HUFF next (20_memory.md R84, 70_reset_and_hazards.md R310). -/
inductive Input where
  /-- One access of the HOST agent. -/
  | access (a : BusAccess)
  /-- The CORE agent takes its turn (40_command_control.md R131, R132). -/
  | coreTurn
  /-- The reset input is asserted. -/
  | reset
  /-- The HOST's WAIT (30_encoding.md R106): it reads STATUS until a read returns BUSY = 0. The latency of the command in flight (U5) is this wait's: the CORE completes once `reads` more reads have returned BUSY = 1. -/
  | wait (reads : Nat)
  deriving DecidableEq, Repr

/-- The whole state. `rdata` (what the last host read returned, 40_command_control.md R137), `pending` (the inputs still to come, in order: log entry 1) and `draws` (how many free values have been drawn: log entry 6) are the model's own. -/
structure State where
  params : Params
  core : Core
  regs : Regs
  mems : Mems
  rdata : Word
  pending : List Input
  draws : Nat
  deriving DecidableEq, Repr

/-- The errors a command can raise, each with the value it records (60_exceptions.md R281). -/
inductive CmdError where
  | unknownSymbol (i : Nat)
  | invalidBit (k : Nat)
  | malformedStream (k : Nat)
  | illegalCmd (w : Word)
  | badLength (len : Word)
  | entryInvalid (k : Nat)
  | weightOverflow (k : Nat)
  | treeInvalid (p : NodeIx)
  | bitOverflow (i : Nat)
  | outOverflow (k : Nat)
  deriving DecidableEq, Repr

/-- How the body of a command ends (00_scope.md R10): `finish`, `raise E(info)` with the writes made so far, or the fault of R312. -/
inductive CmdEnd where
  | finish (s : State)
  | raise (e : CmdError) (s : State)
  | fault (f : Fault)
  deriving DecidableEq, Repr

/-- A memory after reset: contents unspecified (10_state.md R47, U1). -/
def Mem.unspecified {α : Type} : Mem α := ⟨none, []⟩

/-- The registers after reset (10_state.md R21, R47). -/
def Regs.reset : Regs where
  done := false
  err := false
  reject := false
  accErr := false
  errCode := 0
  lastCmd := 0
  errInfo := 0
  symLen := 0
  bitLen := 0
  outLen := 0
  nEntries := 0
  root := NIL
  nNodes := 0
  accMem := 0
  autoInc := false
  accIndex := 0
  doneIe := false
  errIe := false

/-- The memories after reset (10_state.md R47). -/
def Mems.reset : Mems where
  sym := .unspecified
  bit := .unspecified
  out := .unspecified
  esym := .unspecified
  ecnt := .unspecified
  nodeLr := .unspecified
  nodeWt := .unspecified
  nodeSym := .unspecified
  clen := .unspecified
  cbits := .unspecified

/-- The state after reset of a build with parameters `p` (10_state.md R47, 70_reset_and_hazards.md R310). -/
def State.resetOf (p : Params) : State where
  params := p
  core := .idle
  regs := .reset
  mems := .reset
  rdata := 0
  pending := []
  draws := 0

/-- The state after reset of the default build (00_scope.md R6). -/
def State.reset : State := State.resetOf .default

end Sys2Proof.Machine
end

