-- ==== Sys2Proof/Machine/Ops.lean ====
section
/-! DEFINITION. The shared operations: derived constants, the on-chip memories, accepting a command, completing one, raising an error, and reset. -/

namespace Sys2Proof.Machine

/-- NSYM = 2^SYM_W (00_scope.md R7). -/
def nsym (p : Params) : Nat := 2 ^ p.symW.toNat

/-- N_MAX = NSYM (00_scope.md R7). -/
def nMax (p : Params) : Nat := nsym p

/-- NODE_DEPTH = 2·N_MAX − 1 (00_scope.md R7). -/
def nodeDepth (p : Params) : Nat := 2 * nMax p - 1

/-- Look a key up in a strictly rising list. -/
def findCell {α : Type} : List (Nat × α) → Nat → Option α
  | [], _ => none
  | (j, v) :: rest, i => if i = j then some v else if i < j then none else findCell rest i

/-- Put a value at a key of a strictly rising list. -/
def putCell {α : Type} (i : Nat) (v : α) : List (Nat × α) → List (Nat × α)
  | [] => [(i, v)]
  | (j, w) :: rest =>
    if i = j then (i, v) :: rest
    else if i < j then (i, v) :: (j, w) :: rest
    else (j, w) :: putCell i v rest

/-- Remove a key from a strictly rising list. -/
def dropCell {α : Type} (i : Nat) : List (Nat × α) → List (Nat × α)
  | [] => []
  | (j, w) :: rest =>
    if i = j then rest
    else if i < j then (j, w) :: rest
    else (j, w) :: dropCell i rest

/-- `M[i]` (00_scope.md R10): none where the cell is unspecified. -/
def Mem.read {α : Type} (m : Mem α) (i : Nat) : Option α :=
  (findCell m.cells i).or m.blank

/-- `M[i] <- v` (00_scope.md R10). -/
def Mem.write {α : Type} [DecidableEq α] (m : Mem α) (i : Nat) (v : α) : Mem α :=
  if m.blank = some v then { m with cells := dropCell i m.cells }
  else { m with cells := putCell i v m.cells }

/-- Every cell set to `v`: what a loop that writes `v` to each cell of the memory leaves. -/
def Mem.fill {α : Type} (v : α) : Mem α := ⟨some v, []⟩

/-- `M[i] <- x₀, M[i+1] <- x₁, …`. -/
def Mem.writeList {α : Type} [DecidableEq α] (m : Mem α) (i : Nat) : List α → Mem α
  | [] => m
  | x :: xs => Mem.writeList (m.write i x) (i + 1) xs

/-- Strictly rising keys. -/
def rising {α : Type} : List (Nat × α) → Bool
  | [] => true
  | [_] => true
  | a :: b :: rest => a.1 < b.1 && rising (b :: rest)

/-- The canonical form of a memory: keys strictly rising and no listed cell equal to what an unlisted one reads as. -/
def Mem.wf {α : Type} [DecidableEq α] (m : Mem α) : Bool :=
  rising m.cells && m.cells.all (fun c => m.blank ≠ some c.2)

/-- A command or a host read uses cell `i` of a memory: the fault of 70_reset_and_hazards.md R312 where nothing has written it. -/
def readCell {α : Type} (v : View) (m : Mem α) (i : Nat) : Except Fault α :=
  match m.read i with
  | some x => .ok x
  | none => .error (.unwrittenCell v i)

/-- Cells `i`, `i+1`, …, `i+n-1`, read in that order. -/
def readRange {α : Type} (v : View) (m : Mem α) (i : Nat) : Nat → Except Fault (List α)
  | 0 => .ok []
  | n + 1 =>
    match readCell v m i with
    | .error f => .error f
    | .ok x =>
      match readRange v m (i + 1) n with
      | .error f => .error f
      | .ok xs => .ok (x :: xs)

/-- Acceptance of CMD word `w` (40_command_control.md R130). It is also the only return from an error (60_exceptions.md R285): it clears DONE, ERR, ERR_CODE and ERR_INFO. -/
def acceptCommand (w : Word) (s : State) : State :=
  { s with
    core := .running w
    regs := { s.regs with done := false, err := false, errCode := 0, lastCmd := opField w, errInfo := 0 } }

/-- The error code of 60_exceptions.md R281. -/
def CmdError.code : CmdError → BitVec 4
  | .unknownSymbol _ => 1
  | .invalidBit _ => 2
  | .malformedStream _ => 3
  | .illegalCmd _ => 4
  | .badLength _ => 5
  | .entryInvalid _ => 6
  | .weightOverflow _ => 7
  | .treeInvalid _ => 8
  | .bitOverflow _ => 9
  | .outOverflow _ => 10

/-- The value an error records in ERR_INFO, zero-extended to 32 bits (60_exceptions.md R281). -/
def CmdError.info : CmdError → Word
  | .unknownSymbol i => BitVec.ofNat 32 i
  | .invalidBit k => BitVec.ofNat 32 k
  | .malformedStream k => BitVec.ofNat 32 k
  | .illegalCmd w => w
  | .badLength len => len
  | .entryInvalid k => BitVec.ofNat 32 k
  | .weightOverflow k => BitVec.ofNat 32 k
  | .treeInvalid p => p.setWidth 32
  | .bitOverflow i => BitVec.ofNat 32 i
  | .outOverflow k => BitVec.ofNat 32 k

/-- Completion of a command that ended by `finish` (40_command_control.md R131). -/
def completeOk (s : State) : State :=
  { s with core := .idle, regs := { s.regs with done := true, errCode := 0, errInfo := 0 } }

/-- Completion of a command that ended by `raise e` (40_command_control.md R131, 60_exceptions.md R284): HUFF's one way of taking an error. -/
def completeError (e : CmdError) (s : State) : State :=
  { s with
    core := .idle
    regs := { s.regs with done := true, err := true, errCode := e.code, errInfo := e.info } }

/-- The completion step (40_command_control.md R131) after the command's body. -/
def complete : CmdEnd → Host.Outcome State Fault Refusal
  | .finish s => .next (completeOk s)
  | .raise e s => .next (completeError e s)
  | .fault f => .fault f

/-- An extra effect a command has when it ends by an error (60_exceptions.md R283). -/
def onRaise (f : State → State) : CmdEnd → CmdEnd
  | .finish s => .finish s
  | .raise e s => .raise e (f s)
  | .fault r => .fault r

/-- Reset (70_reset_and_hazards.md R310, R311): registers at their reset values, CORE IDLE, memory contents unspecified, a command in flight abandoned. The build's parameters, the inputs still to come and the count of draws are not HUFF's registers and stay. -/
def applyReset (s : State) : State :=
  { State.resetOf s.params with pending := s.pending, draws := s.draws }

end Sys2Proof.Machine
end

