-- ==== Sys2Proof/Machine/Flags.lean ====
section
/-! DEFINITION. STATUS and the interrupt: the register views, the W1C write, the sticky flags of the bus (10_state.md R26, R27, 60_exceptions.md R286). -/

namespace Sys2Proof.Machine

/-- One flag as a bit at position `n` of a word. -/
def flagAt (n : Nat) (b : Bool) : Word := (BitVec.ofBool b).setWidth 32 <<< n

/-- STATUS.BUSY: 1 exactly in RUNNING (10_state.md R45). -/
def State.busy (s : State) : Bool :=
  match s.core with
  | .idle => false
  | .running _ => true

/-- The STATUS word (10_state.md R26); its other bits read 0. -/
def statusWord (s : State) : Word :=
  flagAt 0 s.busy ||| flagAt 1 s.regs.done ||| flagAt 2 s.regs.err ||| flagAt 3 s.regs.reject
    ||| flagAt 4 s.regs.accErr ||| (s.regs.errCode.setWidth 32 <<< 8) ||| (s.regs.lastCmd.setWidth 32 <<< 16)

/-- A write of `d` to STATUS: each W1C field whose bit of `d` is 1 is cleared (10_state.md R27). ERR_CODE and ERR_INFO do not change. -/
def clearStatus (d : Word) (r : Regs) : Regs :=
  { r with
    done := r.done && !d.getLsbD 1
    err := r.err && !d.getLsbD 2
    reject := r.reject && !d.getLsbD 3
    accErr := r.accErr && !d.getLsbD 4 }

/-- A dropped write (40_command_control.md R133, 20_memory.md R81): only REJECT is set. -/
def rejectWrite (s : State) : State :=
  { s with regs := { s.regs with reject := true } }

/-- A refused access-port access (20_memory.md R77 to R79): only ACC_ERR is set. -/
def portError (s : State) : State :=
  { s with regs := { s.regs with accErr := true } }

/-- The interrupt output (60_exceptions.md R286). -/
def State.irq (s : State) : Bool :=
  (s.regs.done && s.regs.doneIe) || (s.regs.err && s.regs.errIe)

end Sys2Proof.Machine
end

