-- ==== Sys2Proof/Machine/Operands.lean ====
section
/-! DEFINITION. The operands of a bus operation: which register an offset reaches, which memory view ACC_CTRL.MEM selects, what a register reads as, and the access port (10_state.md R21, 20_memory.md R70 to R81). -/

namespace Sys2Proof.Machine

/-- The register at a byte offset: a[7:2] is decoded, a[1:0] ignored (20_memory.md R70); none from 0x44 on (R72). -/
def regAt (a : BitVec 8) : Option Reg :=
  match (a.extractLsb' 2 6).toNat with
  | 0 => some .id
  | 1 => some .cfg
  | 2 => some .symDepth
  | 3 => some .bitDepth
  | 4 => some .outDepth
  | 5 => some .cmd
  | 6 => some .status
  | 7 => some .errInfo
  | 8 => some .symLen
  | 9 => some .bitLen
  | 10 => some .outLen
  | 11 => some .nEntries
  | 12 => some .tree
  | 13 => some .accCtrl
  | 14 => some .accIndex
  | 15 => some .accData
  | 16 => some .irqEn
  | _ => none

/-- The memory view a value of ACC_CTRL.MEM selects; none for the reserved 10 to 15 (20_memory.md R76). -/
def viewAt (m : BitVec 4) : Option View :=
  match m.toNat with
  | 0 => some .sym
  | 1 => some .bit
  | 2 => some .out
  | 3 => some .esym
  | 4 => some .ecnt
  | 5 => some .nodeLr
  | 6 => some .nodeWt
  | 7 => some .nodeSym
  | 8 => some .clen
  | 9 => some .cbits
  | _ => none

/-- The number of cells of a view (20_memory.md R76). -/
def viewDepth (p : Params) : View → Nat
  | .sym => p.symDepth.toNat
  | .bit => p.bitDepth.toNat
  | .out => p.outDepth.toNat
  | .esym => nMax p
  | .ecnt => nMax p
  | .nodeLr => nodeDepth p
  | .nodeWt => nodeDepth p
  | .nodeSym => nodeDepth p
  | .clen => nsym p
  | .cbits => nsym p * nMax p

/-- Whether the host may write a view (20_memory.md R76). -/
def hostWritable : View → Bool
  | .sym | .bit | .esym | .ecnt | .nodeLr | .nodeWt | .nodeSym => true
  | .out | .clen | .cbits => false

/-- d[SYM_W−1:0]: the symbol a data word stores (20_memory.md R78). -/
def symOf (p : Params) (d : Word) : Sym := BitVec.ofNat 15 (d.toNat % 2 ^ p.symW.toNat)

/-- The token a data word stores: the whole word is compared (20_memory.md R78). -/
def tokenOf (d : Word) : Token := if d = 0 then 0 else if d = 1 then 1 else 2

/-- The concatenation of two halves, the first in [31:16] (00_scope.md R9). -/
def pairWord (hi lo : BitVec 16) : Word := hi ++ lo

/-- The word NODE_LR reads as: RIGHT in [31:16], LEFT in [15:0] (20_memory.md R77). -/
def nodeLrWord (n : NodeLr) : Word := pairWord n.right n.left

/-- The word NODE_SYM reads as: SYMV in bit 31, SYM in the low bits (20_memory.md R77). -/
def nodeSymWord (n : NodeSym) : Word := flagAt 31 n.symv ||| n.sym.setWidth 32

/-- The word a cell of a view reads as (20_memory.md R77). -/
def viewRead (m : Mems) (v : View) (i : Nat) : Except Fault Word :=
  match v with
  | .sym => (readCell .sym m.sym i).map (·.setWidth 32)
  | .bit => (readCell .bit m.bit i).map (·.setWidth 32)
  | .out => (readCell .out m.out i).map (·.setWidth 32)
  | .esym => (readCell .esym m.esym i).map (·.setWidth 32)
  | .ecnt => readCell .ecnt m.ecnt i
  | .nodeLr => (readCell .nodeLr m.nodeLr i).map nodeLrWord
  | .nodeWt => readCell .nodeWt m.nodeWt i
  | .nodeSym => (readCell .nodeSym m.nodeSym i).map nodeSymWord
  | .clen => (readCell .clen m.clen i).map (·.setWidth 32)
  | .cbits => (readCell .cbits m.cbits i).map (·.setWidth 32)

/-- A host write of `d` to a cell of a view (20_memory.md R78); the read-only views do not change. -/
def viewWrite (p : Params) (m : Mems) (v : View) (i : Nat) (d : Word) : Mems :=
  match v with
  | .sym => { m with sym := m.sym.write i (symOf p d) }
  | .bit => { m with bit := m.bit.write i (tokenOf d) }
  | .esym => { m with esym := m.esym.write i (symOf p d) }
  | .ecnt => { m with ecnt := m.ecnt.write i d }
  | .nodeLr => { m with nodeLr := m.nodeLr.write i ⟨d.extractLsb' 0 16, d.extractLsb' 16 16⟩ }
  | .nodeWt => { m with nodeWt := m.nodeWt.write i d }
  | .nodeSym => { m with nodeSym := m.nodeSym.write i ⟨symOf p d, d.getLsbD 31⟩ }
  | .out => m
  | .clen => m
  | .cbits => m

/-- The view and index the access port selects, if the index is in range (20_memory.md R77, R78). -/
def portTarget (s : State) : Option (View × Nat) :=
  match viewAt s.regs.accMem with
  | none => none
  | some v => if s.regs.accIndex.toNat < viewDepth s.params v then some (v, s.regs.accIndex.toNat) else none

/-- The auto-increment after an access made while IDLE (20_memory.md R80). -/
def autoIncrement (s : State) : State :=
  if s.regs.autoInc then { s with regs := { s.regs with accIndex := s.regs.accIndex + 1 } } else s

/-- A read of ACC_DATA while IDLE (20_memory.md R77, R79, R80). -/
def portRead (s : State) : Host.Outcome State Fault Refusal :=
  match portTarget s with
  | none => .next (autoIncrement { portError s with rdata := 0 })
  | some (v, i) =>
    match viewRead s.mems v i with
    | .error f => .fault f
    | .ok d => .next (autoIncrement { s with rdata := d })

/-- A write of `d` to ACC_DATA while IDLE (20_memory.md R78, R79, R80). -/
def portWrite (d : Word) (s : State) : State :=
  match portTarget s with
  | none => autoIncrement (portError s)
  | some (v, i) =>
    if hostWritable v then autoIncrement { s with mems := viewWrite s.params s.mems v i d }
    else autoIncrement (portError s)

/-- What a register reads as (10_state.md R22 to R34, R48, 40_command_control.md R137). ACC_DATA has no storage and is read by `portRead`. -/
def readReg (s : State) : Reg → Word
  | .id => 0x48554646
  | .cfg => s.params.symW.setWidth 32
  | .symDepth => s.params.symDepth
  | .bitDepth => s.params.bitDepth
  | .outDepth => s.params.outDepth
  | .cmd => 0
  | .status => statusWord s
  | .errInfo => s.regs.errInfo
  | .symLen => s.regs.symLen
  | .bitLen => s.regs.bitLen
  | .outLen => s.regs.outLen
  | .nEntries => s.regs.nEntries
  | .tree => pairWord s.regs.nNodes s.regs.root
  | .accCtrl => flagAt 8 s.regs.autoInc ||| s.regs.accMem.setWidth 32
  | .accIndex => s.regs.accIndex
  | .accData => 0
  | .irqEn => flagAt 1 s.regs.errIe ||| flagAt 0 s.regs.doneIe

/-- The registers whose read while RUNNING returns an unspecified value (40_command_control.md R134, 20_memory.md R81). -/
def unspecifiedWhileRunning : Reg → Bool
  | .errInfo | .bitLen | .outLen | .nEntries | .tree | .accData => true
  | .id | .cfg | .symDepth | .bitDepth | .outDepth | .cmd | .status | .symLen | .accCtrl | .accIndex | .irqEn => false

/-- The registers a write to which is dropped while RUNNING (40_command_control.md R133). -/
def droppedWhileRunning : Reg → Bool
  | .cmd | .symLen | .bitLen | .nEntries | .tree | .accCtrl | .accIndex | .accData => true
  | .id | .cfg | .symDepth | .bitDepth | .outDepth | .status | .errInfo | .outLen | .irqEn => false

/-- An unspecified read (U2): a fresh free value, no other change. -/
def drawRead (s : State) : State :=
  { s with rdata := Config.freeWord s.draws, draws := s.draws + 1 }

/-- A write of `d` to a register, where it is performed (40_command_control.md R138, 10_state.md R27 to R34, R48). -/
def writeReg (r : Reg) (d : Word) (s : State) : State :=
  match r with
  | .cmd => acceptCommand d s
  | .status => { s with regs := clearStatus d s.regs }
  | .symLen => { s with regs := { s.regs with symLen := d } }
  | .bitLen => { s with regs := { s.regs with bitLen := d } }
  | .nEntries => { s with regs := { s.regs with nEntries := d } }
  | .tree => { s with regs := { s.regs with root := d.extractLsb' 0 16, nNodes := d.extractLsb' 16 16 } }
  | .accCtrl => { s with regs := { s.regs with accMem := d.extractLsb' 0 4, autoInc := d.getLsbD 8 } }
  | .accIndex => { s with regs := { s.regs with accIndex := d } }
  | .accData => portWrite d s
  | .irqEn => { s with regs := { s.regs with doneIe := d.getLsbD 0, errIe := d.getLsbD 1 } }
  | .id | .cfg | .symDepth | .bitDepth | .outDepth | .errInfo | .outLen => s

end Sys2Proof.Machine
end

