-- ==== Sys2Proof/Machine/Bus.lean ====
section
/-! DEFINITION. The HOST's bus operations RD and WR (40_command_control.md R133, R134, R137, R138). -/

namespace Sys2Proof.Machine

/-- RD: the value lands in `rdata`. An unmapped offset returns 0 (20_memory.md R72); while RUNNING, R134 and 20_memory.md R81 apply; a read of ACC_DATA while IDLE is the access port's. -/
def execRd (offset : BitVec 8) (s : State) : Host.Outcome State Fault Refusal :=
  match regAt offset with
  | none => .next { s with rdata := 0 }
  | some r =>
    if s.busy && unspecifiedWhileRunning r then .next (drawRead s)
    else if r = .accData then portRead s
    else .next { s with rdata := readReg s r }

/-- WR: a write to an unmapped offset is ignored (20_memory.md R72); while RUNNING some writes are dropped (40_command_control.md R133); the others are performed (R138). -/
def execWr (offset : BitVec 8) (d : Word) (s : State) : Host.Outcome State Fault Refusal :=
  match regAt offset with
  | none => .next s
  | some r => .next (if s.busy && droppedWhileRunning r then rejectWrite s else writeReg r d s)

end Sys2Proof.Machine
end

