-- ==== Sys2Proof/Machine/Control.lean ====
section
/-! DEFINITION. NOP and the illegal words (40_command_control.md R135, R136). Each meaning is the CORE's completion step (R131). -/

namespace Sys2Proof.Machine

/-- NOP: `finish` (40_command_control.md R135). -/
def execNop (s : State) : Host.Outcome State Fault Refusal :=
  complete (.finish s)

/-- The body of an illegal word: `raise ILLEGAL_CMD(w)` (40_command_control.md R136). -/
def illegalCmd (w : Word) (s : State) : CmdEnd :=
  .raise (.illegalCmd w) s

/-- OP 6 and 7 (40_command_control.md R136, 30_encoding.md R103). -/
def execIllegalOp6 (lo : BitVec 1) (s : State) : Host.Outcome State Fault Refusal :=
  complete (illegalCmd (3#31 ++ lo) s)

/-- OP 8 to 15 (40_command_control.md R136, 30_encoding.md R103). -/
def execIllegalOp8 (lo : BitVec 3) (s : State) : Host.Outcome State Fault Refusal :=
  complete (illegalCmd (1#29 ++ lo) s)

/-- RSV not 0 (40_command_control.md R136, 30_encoding.md R103). -/
def execIllegalRsv (rsv : BitVec 28) (op : BitVec 4) (s : State) : Host.Outcome State Fault Refusal :=
  complete (illegalCmd (rsv ++ op) s)

end Sys2Proof.Machine
end

