-- ==== Sys2Proof/Machine/CodeTable.lean ====
section
/-! DEFINITION. The tree check WF_TREE and the code-table generator GENTAB (43_code_table.md). -/

namespace Sys2Proof.Machine

/-- The loop of WF_TREE (43_code_table.md R201): `none` is OK, `some p` is FAIL(p). `fuel` counts the passes left before every index of NODE is in `visited`; then whatever is popped is outside NODE or was visited, so the check fails at it. -/
def wfLoop (m : Mems) (depth : Nat) :
    (fuel : Nat) → (visited : List NodeIx) → (syms : List Sym) → (stack : List NodeIx) → Except Fault (Option NodeIx)
  | _, _, _, [] => .ok none
  | 0, _, _, p :: _ => .ok (some p)
  | fuel + 1, visited, syms, p :: stack =>
    if depth ≤ p.toNat then .ok (some p)
    else if visited.contains p then .ok (some p)
    else
      match readCell .nodeLr m.nodeLr p.toNat with
      | .error f => .error f
      | .ok lr =>
        match readCell .nodeSym m.nodeSym p.toNat with
        | .error f => .error f
        | .ok ns =>
          if (lr.left == NIL) != (lr.right == NIL) then .ok (some p)
          else if ns.symv != (lr.left == NIL) then .ok (some p)
          else if ns.symv then
            if syms.contains ns.sym then .ok (some p)
            else wfLoop m depth fuel (p :: visited) (ns.sym :: syms) stack
          else wfLoop m depth fuel (p :: visited) syms (lr.left :: lr.right :: stack)

/-- WF_TREE(r) (43_code_table.md R201). -/
def wfTree (p : Params) (m : Mems) (r : NodeIx) : Except Fault (Option NodeIx) :=
  if r = NIL then .ok none else wfLoop m (nodeDepth p) (nodeDepth p) [] [] [r]

/-- The traversal of GENTAB_BODY below an internal root (43_code_table.md R203): the (symbol, path) pairs of the leaves in the order it meets them. `fuel` bounds the pops by the number of nodes (R207). -/
def codePaths (m : Mems) : (fuel : Nat) → (stack : List (NodeIx × List CodeBit)) → Except Fault (List (Sym × List CodeBit))
  | 0, _ => .ok []
  | _, [] => .ok []
  | fuel + 1, (p, path) :: stack =>
    match readCell .nodeSym m.nodeSym p.toNat with
    | .error f => .error f
    | .ok ns =>
      if ns.symv then
        match codePaths m fuel stack with
        | .error f => .error f
        | .ok rest => .ok ((ns.sym, path) :: rest)
      else
        match readCell .nodeLr m.nodeLr p.toNat with
        | .error f => .error f
        | .ok lr => codePaths m fuel ((lr.left, path ++ [0]) :: (lr.right, path ++ [1]) :: stack)

/-- The code of one symbol put into the table (43_code_table.md R203). -/
def writeCode (p : Params) (m : Mems) (e : Sym × List CodeBit) : Mems :=
  { m with
    clen := m.clen.write e.1.toNat (BitVec.ofNat 16 e.2.length)
    cbits := m.cbits.writeList (e.1.toNat * nMax p) e.2 }

/-- The table GENTAB_BODY leaves: every CLEN and CBITS cell cleared, then the codes (43_code_table.md R203). -/
def writeTable (p : Params) (m : Mems) (codes : List (Sym × List CodeBit)) : Mems :=
  codes.foldl (writeCode p) { m with clen := .fill 0, cbits := .fill 0 }

/-- The codes of the tree at `r` (43_code_table.md R203): none for the absent tree; "0" for a leaf root (R204); otherwise the paths. -/
def treeCodes (p : Params) (m : Mems) (r : NodeIx) : Except Fault (List (Sym × List CodeBit)) :=
  if r = NIL then .ok []
  else
    match readCell .nodeSym m.nodeSym r.toNat with
    | .error f => .error f
    | .ok ns => if ns.symv then .ok [(ns.sym, [0])] else codePaths m (nodeDepth p) [(r, [])]

/-- GENTAB_BODY(ROOT) (43_code_table.md R203). -/
def gentabBody (s : State) : Except Fault State :=
  match treeCodes s.params s.mems s.regs.root with
  | .error f => .error f
  | .ok codes => .ok { s with mems := writeTable s.params s.mems codes }

/-- GENTAB (43_code_table.md R203): the check comes before any write. -/
def gentabCmd (s : State) : CmdEnd :=
  match wfTree s.params s.mems s.regs.root with
  | .error f => .fault f
  | .ok (some p) => .raise (.treeInvalid p) s
  | .ok none =>
    match gentabBody s with
    | .error f => .fault f
    | .ok s' => .finish s'

/-- The completion step of GENTAB. -/
def execGentab (s : State) : Host.Outcome State Fault Refusal :=
  complete (gentabCmd s)

end Sys2Proof.Machine
end

