-- ==== Sys2Proof/Machine/Decoder.lean ====
section
/-! DEFINITION. The bitstream decoder DECODE (45_decode.md). -/

namespace Sys2Proof.Machine

/-- A token that is neither digit (10_state.md R36). -/
def invalidToken (t : Token) : Bool := t = 2 || t = 3

/-- One token's move of the cursor (45_decode.md R250): the symbol to emit, if any, and the cursor afterwards, or the error. AT_ROOT is `cur = r`, IN_PROGRESS otherwise (R251). -/
def decodeToken (m : Mems) (r : NodeIx) (t : Token) (k : Nat) (cur : NodeIx) :
    Except Fault (Except CmdError (Option Sym × NodeIx)) :=
  if invalidToken t then .ok (.error (.invalidBit k))
  else
    match readCell .nodeSym m.nodeSym r.toNat with
    | .error f => .error f
    | .ok root =>
      if root.symv then
        if t = 1 then .ok (.error (.malformedStream k)) else .ok (.ok (some root.sym, cur))
      else
        match readCell .nodeLr m.nodeLr cur.toNat with
        | .error f => .error f
        | .ok lr =>
          let cur' := if t = 0 then lr.left else lr.right
          match readCell .nodeSym m.nodeSym cur'.toNat with
          | .error f => .error f
          | .ok ns => .ok (.ok (if ns.symv then (some ns.sym, r) else (none, cur')))

/-- The token loop of DECODE (45_decode.md R250) with `n` tokens left, at token `k`, cursor `cur`, `o` symbols emitted: the symbols emitted from here on, and the error that ended it, if any. -/
def decodeLoop (p : Params) (m : Mems) (r : NodeIx) :
    (n k : Nat) → (cur : NodeIx) → (o : Nat) → Except Fault (List Sym × Option CmdError)
  | 0, k, cur, _ => .ok ([], if cur = r then none else some (.malformedStream k))
  | n + 1, k, cur, o =>
    match readCell .bit m.bit k with
    | .error f => .error f
    | .ok t =>
      match decodeToken m r t k cur with
      | .error f => .error f
      | .ok (.error e) => .ok ([], some e)
      | .ok (.ok (none, cur')) => decodeLoop p m r n (k + 1) cur' o
      | .ok (.ok (some x, cur')) =>
        if o = p.outDepth.toNat then .ok ([], some (.outOverflow k))
        else
          match decodeLoop p m r n (k + 1) cur' (o + 1) with
          | .error f => .error f
          | .ok (xs, e) => .ok (x :: xs, e)

/-- The walk of DECODE and its result: OUT[0 .. o−1] hold the symbols; OUT_LEN is set only on success (45_decode.md R250). -/
def decodeWalk (s : State) : CmdEnd :=
  match decodeLoop s.params s.mems s.regs.root s.regs.bitLen.toNat 0 s.regs.root 0 with
  | .error f => .fault f
  | .ok (xs, e) =>
    let s' := { s with mems := { s.mems with out := s.mems.out.writeList 0 xs } }
    match e with
    | some e => .raise e s'
    | none => .finish { s' with regs := { s'.regs with outLen := BitVec.ofNat 32 xs.length } }

/-- The pseudocode of DECODE (45_decode.md R250): the absent tree first (R255), then the length, then WF_TREE, then the walk. -/
def decodeSteps (s : State) : CmdEnd :=
  if s.regs.root = NIL then .finish { s with regs := { s.regs with outLen := 0 } }
  else if s.params.bitDepth < s.regs.bitLen then .raise (.badLength s.regs.bitLen) s
  else
    match wfTree s.params s.mems s.regs.root with
    | .error f => .fault f
    | .ok (some p) => .raise (.treeInvalid p) s
    | .ok none => decodeWalk s

/-- DECODE: on any error OUT_LEN is cleared (60_exceptions.md R283). -/
def decodeCommand (s : State) : CmdEnd :=
  onRaise (fun t => { t with regs := { t.regs with outLen := 0 } }) (decodeSteps s)

/-- The completion step of DECODE. -/
def execDecode (s : State) : Host.Outcome State Fault Refusal :=
  complete (decodeCommand s)

end Sys2Proof.Machine
end

