-- ==== Sys2Proof/Machine/Frequency.lean ====
section
/-! DEFINITION. The frequency counter FREQ (41_frequency.md). -/

namespace Sys2Proof.Machine

/-- Count one more occurrence of `x`: in its entry, or in a new entry at the end at its first appearance (41_frequency.md R160, R161). -/
def countSym (x : Sym) : List (Sym × Nat) → List (Sym × Nat)
  | [] => [(x, 1)]
  | (y, c) :: rest => if x = y then (y, c + 1) :: rest else (y, c) :: countSym x rest

/-- `freq_table` of 41_frequency.md R160: the entries (symbol, count) in order of first appearance. -/
def freqTable (xs : List Sym) : List (Sym × Nat) :=
  xs.foldl (fun t x => countSym x t) []

/-- FREQ_BODY on the symbols read from SYM (41_frequency.md R160). Cells at and above the number of entries keep their contents (R164). -/
def freqBody (xs : List Sym) (s : State) : State :=
  let t := freqTable xs
  { s with
    mems := { s.mems with
      esym := s.mems.esym.writeList 0 (t.map (·.1))
      ecnt := s.mems.ecnt.writeList 0 (t.map fun e => BitVec.ofNat 32 e.2) }
    regs := { s.regs with nEntries := BitVec.ofNat 32 t.length } }

/-- FREQ (41_frequency.md R160). -/
def freqCmd (s : State) : CmdEnd :=
  if s.params.symDepth < s.regs.symLen then .raise (.badLength s.regs.symLen) s
  else
    match readRange .sym s.mems.sym 0 s.regs.symLen.toNat with
    | .error f => .fault f
    | .ok xs => .finish (freqBody xs s)

/-- The completion step of FREQ. -/
def execFreq (s : State) : Host.Outcome State Fault Refusal :=
  complete (freqCmd s)

end Sys2Proof.Machine
end

