-- ==== Sys2Proof/Machine/TreeBuild.lean ====
section
/-! DEFINITION. The tree builder BUILD (42_tree_build.md). -/

namespace Sys2Proof.Machine

/-- One node as BUILD creates it (10_state.md R39, R40). -/
structure Node where
  left : NodeIx
  right : NodeIx
  weight : Word
  sym : Sym
  symv : Bool
  deriving DecidableEq, Repr

/-- The duplicate test of entry `k`: is there j < k with ESYM[j] = ESYM[k]? `seen` holds ESYM[0 .. k-2]; for k = 0 no cell is read (42_tree_build.md R181). The answer carries ESYM[0 .. k-1]. -/
def dupEntry (m : Mems) (k : Nat) (seen : List Sym) : Except Fault (Bool × List Sym) :=
  match k with
  | 0 => .ok (false, seen)
  | j + 1 =>
    match readCell .esym m.esym j with
    | .error f => .error f
    | .ok y =>
      match readCell .esym m.esym (j + 1) with
      | .error f => .error f
      | .ok x => .ok ((y :: seen).contains x, y :: seen)

/-- BUILD_CHECK from entry `k` on, `n` entries left (42_tree_build.md R181): the first failure, if any. -/
def checkEntries (m : Mems) : (n k : Nat) → (seen : List Sym) → (total : Nat) → Except Fault (Option CmdError)
  | 0, _, _, _ => .ok none
  | n + 1, k, seen, total =>
    match readCell .ecnt m.ecnt k with
    | .error f => .error f
    | .ok c =>
      if c = 0 then .ok (some (.entryInvalid k))
      else
        match dupEntry m k seen with
        | .error f => .error f
        | .ok (dup, seen') =>
          if dup then .ok (some (.entryInvalid k))
          else if 2 ^ 32 ≤ total + c.toNat then .ok (some (.weightOverflow k))
          else checkEntries m n (k + 1) seen' (total + c.toNat)

/-- A member of the working set: key(p) = (NODE[p].WEIGHT, p) (42_tree_build.md R182). -/
abbrev Key := Word × Nat

/-- The lexicographic order of keys: weight first, then index (42_tree_build.md R182). -/
def keyLt (a b : Key) : Bool := a.1 < b.1 || (a.1 = b.1 && a.2 < b.2)

/-- The least key of a non-empty working set, and the rest of the set (42_tree_build.md R182). -/
def takeLeast (a : Key) : List Key → Key × List Key
  | [] => (a, [])
  | b :: rest =>
    if keyLt b a then
      let (c, others) := takeLeast b rest
      (c, a :: others)
    else
      let (c, others) := takeLeast a rest
      (c, b :: others)

/-- The merge of the two least nodes: first selected LEFT, second RIGHT, weight the sum (42_tree_build.md R180, R183). -/
def mergedNode (a b : Key) : Node where
  left := BitVec.ofNat 16 a.2
  right := BitVec.ofNat 16 b.2
  weight := a.1 + b.1
  sym := 0
  symv := false

/-- Step 2 of BUILD_BODY (42_tree_build.md R180): the internal nodes in creation order. `n` merges remain, one less than the size of the working set; `next` is the index of the node to create. -/
def mergeLoop : (n : Nat) → (w : List Key) → (next : Nat) → List Node
  | 0, _, _ => []
  | n + 1, w, next =>
    match w with
    | [] => []
    | p :: ps =>
      let (a, w1) := takeLeast p ps
      match w1 with
      | [] => []
      | q :: qs =>
        let (b, w2) := takeLeast q qs
        mergedNode a b :: mergeLoop n ((a.1 + b.1, next) :: w2) (next + 1)

/-- A leaf of an entry (symbol, count) (42_tree_build.md R180 step 1). -/
def leafNode (e : Sym × Word) : Node where
  left := NIL
  right := NIL
  weight := e.2
  sym := e.1
  symv := true

/-- The nodes BUILD_BODY writes for an entry table, at indices 0, 1, …: the leaves in entry order, then the internal nodes (42_tree_build.md R180, 10_state.md R42). -/
def buildNodes (es : List (Sym × Word)) : List Node :=
  es.map leafNode ++ mergeLoop (es.length - 1) ((es.map (·.2)).zipIdx) es.length

/-- Write nodes to NODE from index 0 on. -/
def writeNodes (ns : List Node) (m : Mems) : Mems :=
  { m with
    nodeLr := m.nodeLr.writeList 0 (ns.map fun x => ⟨x.left, x.right⟩)
    nodeWt := m.nodeWt.writeList 0 (ns.map (·.weight))
    nodeSym := m.nodeSym.writeList 0 (ns.map fun x => ⟨x.sym, x.symv⟩) }

/-- BUILD_BODY on the entries read from ESYM and ECNT (42_tree_build.md R180): no entry gives the absent tree; otherwise ROOT is the last node written. -/
def buildTree (es : List (Sym × Word)) (s : State) : State :=
  match es with
  | [] => { s with regs := { s.regs with root := NIL, nNodes := 0 } }
  | _ :: _ =>
    let ns := buildNodes es
    { s with
      mems := writeNodes ns s.mems
      regs := { s.regs with root := BitVec.ofNat 16 (ns.length - 1), nNodes := BitVec.ofNat 16 ns.length } }

/-- BUILD_BODY(n) (42_tree_build.md R180). -/
def buildBody (n : Nat) (s : State) : Except Fault State :=
  match readRange .esym s.mems.esym 0 n with
  | .error f => .error f
  | .ok syms =>
    match readRange .ecnt s.mems.ecnt 0 n with
    | .error f => .error f
    | .ok counts => .ok (buildTree (syms.zip counts) s)

/-- BUILD (42_tree_build.md R180): every check comes before any write. -/
def buildCmd (s : State) : CmdEnd :=
  if nMax s.params < s.regs.nEntries.toNat then .raise (.badLength s.regs.nEntries) s
  else
    match checkEntries s.mems s.regs.nEntries.toNat 0 [] 0 with
    | .error f => .fault f
    | .ok (some e) => .raise e s
    | .ok none =>
      match buildBody s.regs.nEntries.toNat s with
      | .error f => .fault f
      | .ok s' => .finish s'

/-- The completion step of BUILD. -/
def execBuild (s : State) : Host.Outcome State Fault Refusal :=
  complete (buildCmd s)

end Sys2Proof.Machine
end

