-- ==== Sys2Proof/Machine/Encoder.lean ====
section
/-! DEFINITION. The bitstream encoder ENCODE (44_encode.md). -/

namespace Sys2Proof.Machine

/-- A CBITS cell as a bit token (44_encode.md R230: "stored as token 0b00 or 0b01"). -/
def bitToken (b : CodeBit) : Token := b.setWidth 2

/-- The emission loop of ENCODE (44_encode.md R230 step 3) from input index `i` and bit position `pos` on: the tokens emitted, and the error that ended it, if any. The checks of a symbol come before any of its bits. -/
def emitLoop (p : Params) (m : Mems) : (xs : List Sym) → (i pos : Nat) → Except Fault (List Token × Option CmdError)
  | [], _, _ => .ok ([], none)
  | x :: xs, i, pos =>
    match readCell .clen m.clen x.toNat with
    | .error f => .error f
    | .ok len =>
      if len = 0 then .ok ([], some (.unknownSymbol i))
      else if p.bitDepth.toNat < pos + len.toNat then .ok ([], some (.bitOverflow i))
      else
        match readRange .cbits m.cbits (x.toNat * nMax p) len.toNat with
        | .error f => .error f
        | .ok bits =>
          match emitLoop p m xs (i + 1) (pos + len.toNat) with
          | .error f => .error f
          | .ok (ts, e) => .ok (bits.map bitToken ++ ts, e)

/-- The state after emission: BIT[0 .. pos−1] hold the tokens; BIT_LEN is set only on success (44_encode.md R230 step 5). -/
def emitBits (xs : List Sym) (s : State) : CmdEnd :=
  match emitLoop s.params s.mems xs 0 0 with
  | .error f => .fault f
  | .ok (ts, e) =>
    let s' := { s with mems := { s.mems with bit := s.mems.bit.writeList 0 ts } }
    match e with
    | some e => .raise e s'
    | none => .finish { s' with regs := { s'.regs with bitLen := BitVec.ofNat 32 ts.length } }

/-- The pseudocode of ENCODE (44_encode.md R230). -/
def encodeSteps (s : State) : CmdEnd :=
  if s.params.symDepth < s.regs.symLen then .raise (.badLength s.regs.symLen) s
  else
    match readRange .sym s.mems.sym 0 s.regs.symLen.toNat with
    | .error f => .fault f
    | .ok xs =>
      let s1 := freqBody xs s
      match buildBody s1.regs.nEntries.toNat s1 with
      | .error f => .fault f
      | .ok s2 =>
        match gentabBody s2 with
        | .error f => .fault f
        | .ok s3 => emitBits xs s3

/-- ENCODE: on any error BIT_LEN is cleared (60_exceptions.md R283). -/
def encodeCmd (s : State) : CmdEnd :=
  onRaise (fun t => { t with regs := { t.regs with bitLen := 0 } }) (encodeSteps s)

/-- The completion step of ENCODE. -/
def execEncode (s : State) : Host.Outcome State Fault Refusal :=
  complete (encodeCmd s)

end Sys2Proof.Machine
end

