-- ==== Sys2Proof/Machine/Dispatch.lean ====
section
/-! DEFINITION. The dispatch of each instruction to its meaning. A command's meaning is the CORE's completion step (40_command_control.md R131), a bus operation's is the HOST's access (R137, R138). -/

namespace Sys2Proof.Machine

def exec (i : Instr) (s : State) : Host.Outcome State Fault Refusal :=
  match i with
  | .nop => Sys2Proof.Machine.execNop s
  | .freq => Sys2Proof.Machine.execFreq s
  | .build => Sys2Proof.Machine.execBuild s
  | .gentab => Sys2Proof.Machine.execGentab s
  | .encode => Sys2Proof.Machine.execEncode s
  | .decode => Sys2Proof.Machine.execDecode s
  | .illegalOp6 lo => Sys2Proof.Machine.execIllegalOp6 lo s
  | .illegalOp8 lo => Sys2Proof.Machine.execIllegalOp8 lo s
  | .illegalRsv rsv op => Sys2Proof.Machine.execIllegalRsv rsv op s
  | .rd offset => Sys2Proof.Machine.execRd offset s
  | .wr offset data => Sys2Proof.Machine.execWr offset data s

end Sys2Proof.Machine
end

