-- ==== Sys2Proof/Machine/HostProgram.lean ====
section
/-! DEFINITION. Host programs: the syntax of 30_encoding.md R105 and the pseudo-operations of R106, as the inputs they put to HUFF. -/

namespace Sys2Proof.Machine

/-- The byte offset of a register (10_state.md R21). -/
def regOffset : Reg → BitVec 8
  | .id => 0x00
  | .cfg => 0x04
  | .symDepth => 0x08
  | .bitDepth => 0x0C
  | .outDepth => 0x10
  | .cmd => 0x14
  | .status => 0x18
  | .errInfo => 0x1C
  | .symLen => 0x20
  | .bitLen => 0x24
  | .outLen => 0x28
  | .nEntries => 0x2C
  | .tree => 0x30
  | .accCtrl => 0x34
  | .accIndex => 0x38
  | .accData => 0x3C
  | .irqEn => 0x40

/-- The MEM number of a view (20_memory.md R76). -/
def viewNumber : View → Word
  | .sym => 0
  | .bit => 1
  | .out => 2
  | .esym => 3
  | .ecnt => 4
  | .nodeLr => 5
  | .nodeWt => 6
  | .nodeSym => 7
  | .clen => 8
  | .cbits => 9

/-- `<reg>` of R105: a register name or a hexadecimal offset. -/
inductive Target where
  | reg (r : Reg)
  | offset (a : BitVec 8)
  deriving DecidableEq, Repr

/-- A command mnemonic of 30_encoding.md R102. -/
inductive Mnemonic where
  | nop | freq | build | gentab | encode | decode
  deriving DecidableEq, Repr

/-- One line of a host program (30_encoding.md R105, R106). WAIT is a finite but unbounded number of reads: how many return BUSY = 1 is the latency of the command waited for (U5), which the line carries. -/
inductive HostLine where
  | wr (t : Target) (value : Word)
  | rd (t : Target)
  | cmd (m : Mnemonic)
  | wait (reads : Nat)
  | sel (v : View) (index : Word)
  | load (v : View) (index : Word) (values : List Word)
  | dump (v : View) (index : Word) (count : Nat)
  | clrst
  deriving DecidableEq, Repr

/-- The offset a target names. -/
def Target.toOffset : Target → BitVec 8
  | .reg r => regOffset r
  | .offset a => a

/-- The word of a command (30_encoding.md R102). -/
def Mnemonic.word : Mnemonic → Word
  | .nop => 0
  | .freq => 1
  | .build => 2
  | .gentab => 3
  | .encode => 4
  | .decode => 5

/-- `WR <reg>, <value>` (30_encoding.md R105). -/
def wrReg (r : Reg) (d : Word) : BusAccess := .write .word (regOffset r) d

/-- `RD <reg>` (30_encoding.md R105). -/
def rdReg (r : Reg) : BusAccess := .read .word (regOffset r)

/-- `SEL <mem>, <index>`: AUTOINC is always set (30_encoding.md R106). -/
def selLines (v : View) (index : Word) : List BusAccess :=
  [wrReg .accCtrl (0x100 ||| viewNumber v), wrReg .accIndex index]

/-- The transactions of a line other than WAIT, whose reads depend on what they return (30_encoding.md R105, R106). -/
def lineAccesses : HostLine → List BusAccess
  | .wr t d => [.write .word t.toOffset d]
  | .rd t => [.read .word t.toOffset]
  | .cmd m => [wrReg .cmd m.word]
  | .wait _ => []
  | .sel v i => selLines v i
  | .load v i ds => selLines v i ++ ds.map (wrReg .accData)
  | .dump v i n => selLines v i ++ List.replicate n (rdReg .accData)
  | .clrst => [wrReg .status 0x0000001E]

/-- The inputs a line stands for: its transactions, or the WAIT (30_encoding.md R105, R106). -/
def expandLine : HostLine → List Input
  | .wait reads => [.wait reads]
  | l => (lineAccesses l).map Input.access

/-- A host program as the inputs it puts to HUFF (30_encoding.md R105, R106). -/
def hostProgram (ls : List HostLine) : List Input := ls.flatMap expandLine

end Sys2Proof.Machine
end

