-- ==== Sys2Proof/Machine/Fetch.lean ====
section
/-! DEFINITION. What a step runs: HUFF fetches no instructions (20_memory.md R87); the CORE runs the word of the command in flight, the HOST its next access, and State.pending says who moves (log entries 1 and 4). -/

namespace Sys2Proof.Machine

/-- What the next step is. -/
inductive NextStep where
  /-- No instruction: the state after the step. -/
  | quiet (s : State)
  /-- An instruction to decode and run on a state. -/
  | run (c : Code) (s : State)
  deriving DecidableEq, Repr

/-- The CORE's turn: complete the command in flight, or nothing while IDLE (10_state.md R45). -/
def coreTurn (s : State) : NextStep :=
  match s.core with
  | .idle => .quiet s
  | .running w => .run (.cmd w) s

/-- A step of the HOST's WAIT (30_encoding.md R106), with `rest` to come after it: a read of STATUS, which ends the WAIT when the CORE is IDLE, since it then returns BUSY = 0 (10_state.md R45). While a command runs it returns BUSY = 1 and the WAIT goes on, until no read is left before the command's completion. -/
def waitStep (reads : Nat) (rest : List Input) (s : State) : NextStep :=
  match s.core, reads with
  | .idle, _ => .run (.bus (rdReg .status)) { s with pending := rest }
  | .running _, n + 1 => .run (.bus (rdReg .status)) { s with pending := .wait n :: rest }
  | .running _, 0 => coreTurn s

/-- The next step (20_memory.md R84): the first pending input; with none left the CORE has its turn, so a command in flight always completes (40_command_control.md R132) and an IDLE machine waits (70_reset_and_hazards.md R313). -/
def nextStep (s : State) : NextStep :=
  match s.pending with
  | [] => coreTurn s
  | .coreTurn :: rest => coreTurn { s with pending := rest }
  | .access a :: rest => .run (.bus a) { s with pending := rest }
  | .wait reads :: rest => waitStep reads rest s
  | .reset :: rest => .quiet (applyReset { s with pending := rest })

/-- The refusal of a transaction the decoder rejects (20_memory.md R71, U4). -/
def refusalOf : DecodeError → Refusal
  | .subWordAccess => .subWordAccess

/-- CMD word `w` accepted, and the CORE's turn next: what brings a command to be run. -/
def acceptThenTurn (w : Word) (s : State) : State :=
  { acceptCommand w s with pending := .coreTurn :: s.pending }

end Sys2Proof.Machine
end

