-- ==== Sys2Proof/Machine/Step.lean ====
section
/-! DEFINITION. One step of HUFF: one host access, one command completion or one reset (20_memory.md R84, 60_exceptions.md R288). -/

namespace Sys2Proof.Machine

/-- One step. -/
def step (s : State) : Host.Outcome State Fault Refusal :=
  match nextStep s with
  | .quiet s' => .next s'
  | .run c s' =>
    match decode c with
    | .ok i => exec i s'
    | .error e => .refused (refusalOf e)

/-- `s` with the CMD word `w` (of `nbits` bits) accepted and the CORE's turn next, so that the very next step runs it (log entry 4). -/
def State.withFetchWord (s : State) (nbits w : Nat) : State :=
  acceptThenTurn (BitVec.ofNat 32 (w % 2 ^ min nbits 32)) s

end Sys2Proof.Machine
end

