-- ==== Sys2Proof/Safety.lean ====
section
/-! DEFINITION. The terms claims use: safe steps, which cells hold values, trees and their paths as the spec describes them, the invariant every step keeps. -/

namespace Sys2Proof.Machine

/-- A safe step: one that neither faults nor is refused. -/
def Safe (s : State) : Prop := ∃ t, step s = .next t

/-- The instructions the CORE runs: what a CMD word decodes to (30_encoding.md R102, R103). -/
def isCommand : Instr → Bool
  | .nop | .freq | .build | .gentab | .encode | .decode => true
  | .illegalOp6 _ | .illegalOp8 _ | .illegalRsv _ _ => true
  | .rd _ | .wr _ _ => false

/-- Cells i, i+1, … of a memory hold the listed values. -/
def Holds {α : Type} (m : Mem α) (i : Nat) (xs : List α) : Prop :=
  ∀ k, (h : k < xs.length) → m.read (i + k) = some xs[k]

/-- What a command that succeeds reports: DONE, ERR_CODE 0, ERR_INFO 0, BUSY 0 (40_command_control.md R131). -/
def reportOk (s : State) : State :=
  { s with core := .idle, regs := { s.regs with done := true, errCode := 0, errInfo := 0 } }

/-- What a command that fails reports: DONE, ERR, the code and the recorded value, BUSY 0 (40_command_control.md R131, 60_exceptions.md R281). -/
def reportError (code : BitVec 4) (info : Word) (s : State) : State :=
  { s with core := .idle, regs := { s.regs with done := true, err := true, errCode := code, errInfo := info } }

/-- Follow a bit path from a node: LEFT for 0, RIGHT for 1, at internal nodes only (43_code_table.md R200). -/
def walkPath (m : Mems) : NodeIx → List CodeBit → Option NodeIx
  | p, [] => some p
  | p, b :: bs =>
    match m.nodeSym.read p.toNat, m.nodeLr.read p.toNat with
    | some ns, some lr => if ns.symv then none else walkPath m (if b = 0 then lr.left else lr.right) bs
    | _, _ => none

/-- A node reachable from `r` (43_code_table.md R200). -/
def Reachable (m : Mems) (r p : NodeIx) : Prop := ∃ path, walkPath m r path = some p

/-- `path` leads from `r` to a leaf with symbol `x`. -/
def CodePath (m : Mems) (r : NodeIx) (path : List CodeBit) (x : Sym) : Prop :=
  ∃ p, walkPath m r path = some p ∧ m.nodeSym.read p.toNat = some ⟨x, true⟩

/-- Every reachable node inside NODE has been written (what WF_TREE reads, 70_reset_and_hazards.md R312). -/
def TreeWritten (p : Params) (m : Mems) (r : NodeIx) : Prop :=
  ∀ q, Reachable m r q → q.toNat < nodeDepth p →
    (m.nodeLr.read q.toNat).isSome = true ∧ (m.nodeSym.read q.toNat).isSome = true

/-- The node at `q` is a leaf: no children and a symbol (10_state.md R40). -/
def IsLeaf (m : Mems) (q : NodeIx) : Prop :=
  m.nodeLr.read q.toNat = some ⟨NIL, NIL⟩ ∧ ∃ x, m.nodeSym.read q.toNat = some ⟨x, true⟩

/-- The node at `q` is internal: two children and no symbol (10_state.md R40). -/
def IsInternal (m : Mems) (q : NodeIx) : Prop :=
  (∃ a b, m.nodeLr.read q.toNat = some ⟨a, b⟩ ∧ a ≠ NIL ∧ b ≠ NIL) ∧ ∃ x, m.nodeSym.read q.toNat = some ⟨x, false⟩

/-- A well-formed tree at `r`, said without any traversal order (10_state.md R40, 43_code_table.md R202): every reachable node lies inside NODE and is a leaf or internal, each is reached by one path only, and no two leaves share a symbol. -/
structure GoodTree (p : Params) (m : Mems) (r : NodeIx) : Prop where
  inside : ∀ q, Reachable m r q → q.toNat < nodeDepth p
  shape : ∀ q, Reachable m r q → IsLeaf m q ∨ IsInternal m q
  onePath : ∀ a b q, walkPath m r a = some q → walkPath m r b = some q → a = b
  oneLeaf : ∀ a b x, CodePath m r a x → CodePath m r b x → a = b

/-- The node reached by `path` is one WF_TREE's checks fail at (43_code_table.md R201): it is outside NODE, it was reached earlier, it is neither leaf nor internal, or it is a leaf whose symbol an earlier leaf has. Earlier is preorder, left before right: the lexicographic order of paths. -/
def BadNode (p : Params) (m : Mems) (r : NodeIx) (path : List CodeBit) (q : NodeIx) : Prop :=
  walkPath m r path = some q ∧
    (nodeDepth p ≤ q.toNat ∨ (∃ b, b < path ∧ walkPath m r b = some q) ∨ ¬ (IsLeaf m q ∨ IsInternal m q) ∨
      ∃ b x, b < path ∧ CodePath m r b x ∧ CodePath m r path x)

/-- The first such node in preorder: the one TREE_INVALID names (43_code_table.md R201, 60_exceptions.md R282). -/
def FirstBadNode (p : Params) (m : Mems) (r : NodeIx) (path : List CodeBit) (q : NodeIx) : Prop :=
  BadNode p m r path q ∧ ∀ b c, b < path → ¬ BadNode p m r b c

/-- The code the table holds for a symbol: CBITS[x·N_MAX .. +CLEN[x]−1] (10_state.md R43, R44). -/
def codeOf (p : Params) (m : Mems) (x : Sym) : List CodeBit :=
  (List.range ((m.clen.read x.toNat).getD 0).toNat).map fun j => (m.cbits.read (x.toNat * nMax p + j)).getD 0

/-- An entry table as BUILD reads it: entry k is (ESYM[k], ECNT[k]) (10_state.md R38). -/
def EntriesAre (s : State) (es : List (Sym × Word)) : Prop :=
  s.regs.nEntries.toNat = es.length ∧ Holds s.mems.esym 0 (es.map (·.1)) ∧ Holds s.mems.ecnt 0 (es.map (·.2))

/-- Σ ECNT over a table. -/
def totalCount (es : List (Sym × Word)) : Nat := (es.map (·.2.toNat)).sum

/-- A table BUILD accepts (42_tree_build.md R181). -/
def ValidEntries (es : List (Sym × Word)) : Prop :=
  (∀ e ∈ es, e.2 ≠ 0) ∧ (es.map (·.1)).Nodup ∧ totalCount es < 2 ^ 32

/-- The working set when node `i` is created: the earlier nodes that are no child of a node created before `i` (42_tree_build.md R180 step 2), for a table of `n` entries. -/
def InWorkingSet (m : Mems) (n i p : Nat) : Prop :=
  p < i ∧ ∀ j lr, n ≤ j → j < i → m.nodeLr.read j = some lr → lr.left.toNat ≠ p ∧ lr.right.toNat ≠ p

/-- key(p) < key(q) in node memory (42_tree_build.md R182). -/
def KeyBelow (m : Mems) (p q : Nat) : Prop :=
  ∃ a b, m.nodeWt.read p = some a ∧ m.nodeWt.read q = some b ∧ (a < b ∨ (a = b ∧ p < q))

/-- A memory is canonical, never cleared as a whole, and its listed cells are in range with values that fit. -/
def memOk {α : Type} [DecidableEq α] (m : Mem α) (depth : Nat) (fits : α → Bool) : Bool :=
  m.wf && m.blank = none && m.cells.all fun c => c.1 < depth && fits c.2

/-- The code table is unspecified since reset, or was cleared whole and then written (43_code_table.md R203). -/
def tableOk (p : Params) (m : Mems) : Bool :=
  (m.clen = .unspecified && m.cbits = .unspecified) ||
    (m.clen.wf && m.clen.blank = some 0 && m.clen.cells.all (fun c => c.1 < nsym p) && m.cbits.wf && m.cbits.blank = some 0)

/-- The invariant every step keeps. -/
structure Inv (s : State) : Prop where
  legal : s.params.legal = true
  sym : memOk s.mems.sym s.params.symDepth.toNat (fun x => x.toNat < nsym s.params) = true
  bit : memOk s.mems.bit s.params.bitDepth.toNat (fun t => t ≠ 3) = true
  out : memOk s.mems.out s.params.outDepth.toNat (fun x => x.toNat < nsym s.params) = true
  esym : memOk s.mems.esym (nMax s.params) (fun x => x.toNat < nsym s.params) = true
  ecnt : memOk s.mems.ecnt (nMax s.params) (fun _ => true) = true
  nodeLr : memOk s.mems.nodeLr (nodeDepth s.params) (fun _ => true) = true
  nodeWt : memOk s.mems.nodeWt (nodeDepth s.params) (fun _ => true) = true
  nodeSym : memOk s.mems.nodeSym (nodeDepth s.params) (fun n => n.sym.toNat < nsym s.params) = true
  table : tableOk s.params s.mems = true
  outLen : s.regs.outLen.toNat ≤ s.params.outDepth.toNat
  outWritten : ∀ i, i < s.regs.outLen.toNat → (s.mems.out.read i).isSome = true
  /-- While a command runs, its acceptance's flags stand (40_command_control.md R130, 10_state.md R26). -/
  running : ∀ w, s.core = .running w →
    s.regs.done = false ∧ s.regs.err = false ∧ s.regs.errCode = 0 ∧ s.regs.errInfo = 0 ∧ s.regs.lastCmd = opField w
  /-- Codes 11 to 15 are never reported (60_exceptions.md R281, V2). -/
  errCode : s.regs.errCode ≤ 10
  /-- ERR is set only with an error code (40_command_control.md R131, 10_state.md R27). -/
  errHasCode : s.regs.err = true → s.regs.errCode ≠ 0
  /-- Without an error code nothing is recorded (10_state.md R28). -/
  errInfo : s.regs.errCode = 0 → s.regs.errInfo = 0

end Sys2Proof.Machine
end

