-- ==== Sys2Proof/Certificates/Slice0/Obligations.lean ====
section
/-! DEFINITION. The statements for the provers, in the order of the spec's rules. -/

open Sys2Proof Sys2Proof.Machine

/-! ### Encoding -/

/-- Words written out from 30_encoding.md R102 and R103, and two transactions of R105, decode to what they stand for. -/
def Obligations.SpecWordsDecodeAsWritten : Prop :=
  decodeCmd 0x00000000 = .nop ∧ decodeCmd 0x00000001 = .freq ∧ decodeCmd 0x00000002 = .build ∧
  decodeCmd 0x00000003 = .gentab ∧ decodeCmd 0x00000004 = .encode ∧ decodeCmd 0x00000005 = .decode ∧
  decodeCmd 0x00000007 = .illegalOp6 1 ∧ decodeCmd 0x0000000A = .illegalOp8 2 ∧
  decodeCmd 0x00000011 = .illegalRsv 1 1 ∧
  decode (.bus (.read .word 0x18)) = .ok (.rd 0x18) ∧ decode (.bus (.write .word 0x14 4)) = .ok (.wr 0x14 4)

/-- Decoder and encoder are inverse: every well-formed instruction, with every operand, is what its encoding decodes to, and everything that decodes is well formed and encodes back. -/
def Obligations.DecodeInvertsEncode : Prop :=
  (∀ i : Instr, i.wellFormed = true → decode (encode i) = .ok i) ∧
  (∀ (c : Code) (i : Instr), decode c = .ok i → i.wellFormed = true ∧ encode i = c)

/-- 30_encoding.md R102, R103: a command is selected by the whole word; every other word is illegal, and its instruction holds the whole word. -/
def Obligations.CommandSelectedByWholeWord : Prop :=
  ∀ w : Word,
    (decodeCmd w = .nop ↔ w = 0) ∧ (decodeCmd w = .freq ↔ w = 1) ∧ (decodeCmd w = .build ↔ w = 2) ∧
    (decodeCmd w = .gentab ↔ w = 3) ∧ (decodeCmd w = .encode ↔ w = 4) ∧ (decodeCmd w = .decode ↔ w = 5) ∧
    (6 ≤ w.toNat → ∀ s : State, exec (decodeCmd w) s = .next (reportError 4 w s))

/-- 20_memory.md R71: a byte or halfword access is refused and never given a value. -/
def Obligations.SubWordAccessRefused : Prop :=
  ∀ (s : State) (rest : List Input) (a : BusAccess),
    (∃ off d, a = .read .byte off ∨ a = .read .half off ∨ a = .write .byte off d ∨ a = .write .half off d) →
    s.pending = .access a :: rest → step s = .refused .subWordAccess

/-- A step runs the decoded instruction: the first pending access, or the word of the command in flight when the CORE has its turn; with the CORE IDLE a turn of it changes nothing. A WAIT (30_encoding.md R106) reads STATUS until the CORE is IDLE, with the completion after its reads of BUSY = 1. The order of inputs is the model's, log entries 1 and 4. -/
def Obligations.StepRunsDecodedInstruction : Prop :=
  (∀ (s : State) (a : BusAccess) (rest : List Input) (i : Instr),
    s.pending = .access a :: rest → decode (.bus a) = .ok i → step s = exec i { s with pending := rest }) ∧
  (∀ (s : State) (w : Word) (rest : List Input),
    s.pending = .coreTurn :: rest → s.core = .running w → step s = exec (decodeCmd w) { s with pending := rest }) ∧
  (∀ (s : State) (w : Word), s.pending = [] → s.core = .running w → step s = exec (decodeCmd w) s) ∧
  (∀ (s : State) (rest : List Input), s.pending = .coreTurn :: rest → s.core = .idle → step s = .next { s with pending := rest }) ∧
  (∀ s : State, s.pending = [] → s.core = .idle → step s = .next s) ∧
  (∀ (s : State) (n : Nat) (rest : List Input),
    s.pending = .wait n :: rest → s.core = .idle → step s = exec (.rd 0x18) { s with pending := rest }) ∧
  (∀ (s : State) (w : Word) (n : Nat) (rest : List Input),
    s.pending = .wait (n + 1) :: rest → s.core = .running w → step s = exec (.rd 0x18) { s with pending := .wait n :: rest }) ∧
  (∀ (s : State) (w : Word) (rest : List Input), s.pending = .wait 0 :: rest → s.core = .running w → step s = exec (decodeCmd w) s)

/-- The interface to a tester: after withFetchWord the very next step runs the word, on the state its acceptance leaves (40_command_control.md R130). The form is the model's choice, log entry 4. -/
def Obligations.FetchedWordRunsNext : Prop :=
  ∀ (s : State) (w : Word),
    step (s.withFetchWord 32 w.toNat) =
      exec (decodeCmd w)
        { s with
          core := .running w
          regs := { s.regs with done := false, err := false, errCode := 0, lastCmd := w.extractLsb' 0 4, errInfo := 0 } }

/-! ### Reset -/

/-- 70_reset_and_hazards.md R310: whenever reset is asserted, also during a command, the registers read their reset values, the CORE is IDLE, irq is 0, and no memory cell has a value. -/
def Obligations.ResetAtAnyTime : Prop :=
  ∀ (s : State) (rest : List Input), s.pending = .reset :: rest →
    ∃ t, step s = .next t ∧ t.core = .idle ∧ t.irq = false ∧ t.pending = rest ∧ t.params = s.params ∧
      readReg t .id = 0x48554646 ∧ readReg t .cfg = s.params.symW.setWidth 32 ∧ readReg t .symDepth = s.params.symDepth ∧
      readReg t .bitDepth = s.params.bitDepth ∧ readReg t .outDepth = s.params.outDepth ∧ readReg t .cmd = 0 ∧
      readReg t .status = 0 ∧ readReg t .errInfo = 0 ∧ readReg t .symLen = 0 ∧ readReg t .bitLen = 0 ∧ readReg t .outLen = 0 ∧
      readReg t .nEntries = 0 ∧ readReg t .tree = 0x0000FFFF ∧ readReg t .accCtrl = 0 ∧ readReg t .accIndex = 0 ∧
      readReg t .irqEn = 0 ∧
      ∀ i, t.mems.sym.read i = none ∧ t.mems.bit.read i = none ∧ t.mems.out.read i = none ∧ t.mems.esym.read i = none ∧
        t.mems.ecnt.read i = none ∧ t.mems.nodeLr.read i = none ∧ t.mems.nodeWt.read i = none ∧
        t.mems.nodeSym.read i = none ∧ t.mems.clen.read i = none ∧ t.mems.cbits.read i = none

/-! ### Registers and the bus -/

/-- 20_memory.md R70, 10_state.md R21: an offset reaches the register at its word offset, a[1:0] ignored, and offsets from 0x44 on reach none (R72). -/
def Obligations.RegisterOffsets : Prop :=
  ∀ a : BitVec 8, (∀ r : Reg, regAt a = some r ↔ a &&& 0xFC = regOffset r) ∧ (regAt a = none ↔ 0x44 ≤ a.toNat)

/-- 20_memory.md R72: an unmapped read returns 0, an unmapped write is ignored, in every state of the CORE. -/
def Obligations.UnmappedOffsets : Prop :=
  ∀ (s : State) (a : BitVec 8) (d : Word), 0x44 ≤ a.toNat →
    exec (.rd a) s = .next { s with rdata := 0 } ∧ exec (.wr a d) s = .next s

/-- 10_state.md R26: the STATUS word, in every state of the CORE; the read changes nothing. -/
def Obligations.StatusReadLayout : Prop :=
  ∀ (s : State) (a : BitVec 8), regAt a = some .status →
    ∃ w : Word, exec (.rd a) s = .next { s with rdata := w } ∧
      (w.getLsbD 0 = true ↔ ∃ c, s.core = .running c) ∧ w.getLsbD 1 = s.regs.done ∧ w.getLsbD 2 = s.regs.err ∧
      w.getLsbD 3 = s.regs.reject ∧ w.getLsbD 4 = s.regs.accErr ∧ w.extractLsb' 5 3 = 0 ∧ w.extractLsb' 8 4 = s.regs.errCode ∧
      w.extractLsb' 12 4 = 0 ∧ w.extractLsb' 16 4 = s.regs.lastCmd ∧ w.extractLsb' 20 12 = 0

/-- 40_command_control.md R137: while IDLE a read of a register with content returns it and changes nothing. -/
def Obligations.IdleReadsReturnRegisters : Prop :=
  ∀ (s : State) (a : BitVec 8) (r : Reg), s.core = .idle → regAt a = some r → r ≠ .accData → r ≠ .status →
    ∃ w : Word, exec (.rd a) s = .next { s with rdata := w } ∧
      (r = .id → w = 0x48554646) ∧ (r = .cfg → w.extractLsb' 0 4 = s.params.symW ∧ w.extractLsb' 4 28 = 0) ∧
      (r = .symDepth → w = s.params.symDepth) ∧ (r = .bitDepth → w = s.params.bitDepth) ∧ (r = .outDepth → w = s.params.outDepth) ∧
      (r = .cmd → w = 0) ∧ (r = .errInfo → w = s.regs.errInfo) ∧ (r = .symLen → w = s.regs.symLen) ∧
      (r = .bitLen → w = s.regs.bitLen) ∧ (r = .outLen → w = s.regs.outLen) ∧ (r = .nEntries → w = s.regs.nEntries) ∧
      (r = .tree → w.extractLsb' 0 16 = s.regs.root ∧ w.extractLsb' 16 16 = s.regs.nNodes) ∧
      (r = .accCtrl → w.extractLsb' 0 4 = s.regs.accMem ∧ w.extractLsb' 4 4 = 0 ∧ w.getLsbD 8 = s.regs.autoInc ∧
        w.extractLsb' 9 23 = 0) ∧ (r = .accIndex → w = s.regs.accIndex) ∧
      (r = .irqEn → w.getLsbD 0 = s.regs.doneIe ∧ w.getLsbD 1 = s.regs.errIe ∧ w.extractLsb' 2 30 = 0)

/-- 10_state.md R29 to R34, R48: what is written to a read-write register is read back, reserved bits as 0; the write changes no memory and no other register. -/
def Obligations.WrittenRegistersReadBack : Prop :=
  ∀ (s : State) (a : BitVec 8) (r : Reg) (d : Word), s.core = .idle → regAt a = some r →
    r = .symLen ∨ r = .bitLen ∨ r = .nEntries ∨ r = .tree ∨ r = .accCtrl ∨ r = .accIndex ∨ r = .irqEn →
    ∃ t, exec (.wr a d) s = .next t ∧
      exec (.rd a) t = .next { t with rdata := if r = .accCtrl then d &&& 0x10F else if r = .irqEn then d &&& 3 else d } ∧
      t.mems = s.mems ∧ t.core = .idle ∧ ∀ q, q ≠ r → readReg t q = readReg s q

/-- 40_command_control.md R138: while IDLE a write to a read-only register is ignored. -/
def Obligations.IdleWritesToReadOnlyIgnored : Prop :=
  ∀ (s : State) (a : BitVec 8) (r : Reg) (d : Word), regAt a = some r →
    r = .id ∨ r = .cfg ∨ r = .symDepth ∨ r = .bitDepth ∨ r = .outDepth ∨ r = .errInfo ∨ r = .outLen →
    exec (.wr a d) s = .next s

/-- 10_state.md R27: a write to STATUS clears exactly the W1C fields whose bit is 1, also while a command runs, and changes nothing else. -/
def Obligations.StatusWriteClearsNamedFlags : Prop :=
  ∀ (s : State) (a : BitVec 8) (d : Word), regAt a = some .status →
    ∃ t, exec (.wr a d) s = .next t ∧
      t = { s with
        regs := { s.regs with done := t.regs.done, err := t.regs.err, reject := t.regs.reject, accErr := t.regs.accErr } } ∧
      (t.regs.done = true ↔ s.regs.done = true ∧ d.getLsbD 1 = false) ∧
      (t.regs.err = true ↔ s.regs.err = true ∧ d.getLsbD 2 = false) ∧
      (t.regs.reject = true ↔ s.regs.reject = true ∧ d.getLsbD 3 = false) ∧
      (t.regs.accErr = true ↔ s.regs.accErr = true ∧ d.getLsbD 4 = false)

/-- 40_command_control.md R133: while a command runs, writes to eight registers are dropped and set REJECT; STATUS and IRQ_EN writes are performed; read-only registers and unmapped offsets ignore them without REJECT. -/
def Obligations.WritesWhileRunning : Prop :=
  ∀ (s : State) (w : Word) (a : BitVec 8) (d : Word), s.core = .running w →
    (∀ r, regAt a = some r →
      r = .cmd ∨ r = .symLen ∨ r = .bitLen ∨ r = .nEntries ∨ r = .tree ∨ r = .accCtrl ∨ r = .accIndex ∨ r = .accData →
      exec (.wr a d) s = .next { s with regs := { s.regs with reject := true } }) ∧
    (regAt a = some .status → exec (.wr a d) s = .next { s with regs := clearStatus d s.regs }) ∧
    (regAt a = some .irqEn →
      exec (.wr a d) s = .next { s with regs := { s.regs with doneIe := d.getLsbD 0, errIe := d.getLsbD 1 } }) ∧
    (∀ r, regAt a = some r →
      r = .id ∨ r = .cfg ∨ r = .symDepth ∨ r = .bitDepth ∨ r = .outDepth ∨ r = .errInfo ∨ r = .outLen →
      exec (.wr a d) s = .next s) ∧
    (0x44 ≤ a.toNat → exec (.wr a d) s = .next s)

/-- 40_command_control.md R134: while a command runs, a read returns the register's current value, field by field as while IDLE but for BUSY = 1, or a free value for the registers it may change and for ACC_DATA, and has no effect on HUFF. The statement holds whatever the free value is (log entry 6). -/
def Obligations.ReadsWhileRunning : Prop :=
  ∀ (s : State) (w : Word) (a : BitVec 8), s.core = .running w →
    (∀ r, regAt a = some r →
      r = .id ∨ r = .cfg ∨ r = .symDepth ∨ r = .bitDepth ∨ r = .outDepth ∨ r = .cmd ∨ r = .status ∨ r = .symLen ∨ r = .accCtrl ∨
        r = .accIndex ∨ r = .irqEn →
      ∃ x : Word, exec (.rd a) s = .next { s with rdata := x } ∧
        (r = .id → x = 0x48554646) ∧ (r = .cfg → x.extractLsb' 0 4 = s.params.symW ∧ x.extractLsb' 4 28 = 0) ∧
        (r = .symDepth → x = s.params.symDepth) ∧ (r = .bitDepth → x = s.params.bitDepth) ∧
        (r = .outDepth → x = s.params.outDepth) ∧ (r = .cmd → x = 0) ∧ (r = .symLen → x = s.regs.symLen) ∧
        (r = .status → x.getLsbD 0 = true ∧ x.getLsbD 1 = s.regs.done ∧ x.getLsbD 2 = s.regs.err ∧
          x.getLsbD 3 = s.regs.reject ∧ x.getLsbD 4 = s.regs.accErr ∧ x.extractLsb' 5 3 = 0 ∧
          x.extractLsb' 8 4 = s.regs.errCode ∧ x.extractLsb' 12 4 = 0 ∧ x.extractLsb' 16 4 = s.regs.lastCmd ∧
          x.extractLsb' 20 12 = 0) ∧
        (r = .accCtrl → x.extractLsb' 0 4 = s.regs.accMem ∧ x.extractLsb' 4 4 = 0 ∧ x.getLsbD 8 = s.regs.autoInc ∧
          x.extractLsb' 9 23 = 0) ∧
        (r = .accIndex → x = s.regs.accIndex) ∧
        (r = .irqEn → x.getLsbD 0 = s.regs.doneIe ∧ x.getLsbD 1 = s.regs.errIe ∧ x.extractLsb' 2 30 = 0)) ∧
    (0x44 ≤ a.toNat → exec (.rd a) s = .next { s with rdata := 0 }) ∧
    (∀ r, regAt a = some r →
      r = .errInfo ∨ r = .bitLen ∨ r = .outLen ∨ r = .nEntries ∨ r = .tree ∨ r = .accData →
      exec (.rd a) s = .next { s with rdata := Config.freeWord s.draws, draws := s.draws + 1 })

/-! ### The access port -/

/-- 20_memory.md R77, R80: while IDLE a read of ACC_DATA returns the written cell ACC_CTRL and ACC_INDEX select, widened as the view says, and moves ACC_INDEX when AUTOINC is set. -/
def Obligations.PortReadReturnsCell : Prop :=
  ∀ (s : State) (a : BitVec 8) (i : Nat), s.core = .idle → regAt a = some .accData → s.regs.accIndex.toNat = i →
    let reads := fun w : Word => exec (.rd a) s = .next { s with
      rdata := w
      regs := { s.regs with accIndex := if s.regs.autoInc then s.regs.accIndex + 1 else s.regs.accIndex } }
    (s.regs.accMem = 0 → i < s.params.symDepth.toNat → ∀ c, s.mems.sym.read i = some c → reads (c.setWidth 32)) ∧
    (s.regs.accMem = 1 → i < s.params.bitDepth.toNat → ∀ c, s.mems.bit.read i = some c → reads (c.setWidth 32)) ∧
    (s.regs.accMem = 2 → i < s.params.outDepth.toNat → ∀ c, s.mems.out.read i = some c → reads (c.setWidth 32)) ∧
    (s.regs.accMem = 3 → i < nMax s.params → ∀ c, s.mems.esym.read i = some c → reads (c.setWidth 32)) ∧
    (s.regs.accMem = 4 → i < nMax s.params → ∀ c, s.mems.ecnt.read i = some c → reads c) ∧
    (s.regs.accMem = 5 → i < nodeDepth s.params → ∀ l r, s.mems.nodeLr.read i = some ⟨l, r⟩ → reads (r ++ l)) ∧
    (s.regs.accMem = 6 → i < nodeDepth s.params → ∀ c, s.mems.nodeWt.read i = some c → reads c) ∧
    (s.regs.accMem = 7 → i < nodeDepth s.params → ∀ x v, s.mems.nodeSym.read i = some ⟨x, v⟩ →
      reads ((if v then 0x80000000 else 0) ||| x.setWidth 32)) ∧
    (s.regs.accMem = 8 → i < nsym s.params → ∀ c, s.mems.clen.read i = some c → reads (c.setWidth 32)) ∧
    (s.regs.accMem = 9 → i < nsym s.params * nMax s.params → ∀ c, s.mems.cbits.read i = some c → reads (c.setWidth 32))

/-- 20_memory.md R78, R80: while IDLE a write of ACC_DATA to a writable view puts the narrowed word in the selected cell, moves ACC_INDEX when AUTOINC is set, and changes no other cell, register or anything else. -/
def Obligations.PortWriteStoresCell : Prop :=
  ∀ (s : State) (a : BitVec 8) (d : Word) (v : View), Inv s → s.core = .idle → regAt a = some .accData →
    viewAt s.regs.accMem = some v → v ≠ .out → v ≠ .clen → v ≠ .cbits → s.regs.accIndex.toNat < viewDepth s.params v →
    ∃ t, exec (.wr a d) s = .next t ∧
      t = { s with
        mems := t.mems
        regs := { s.regs with accIndex := if s.regs.autoInc then s.regs.accIndex + 1 else s.regs.accIndex } } ∧
      (v = .sym → ∃ x : Sym, t.mems.sym.read s.regs.accIndex.toNat = some x ∧ x.toNat = d.toNat % 2 ^ s.params.symW.toNat) ∧
      (v = .bit → t.mems.bit.read s.regs.accIndex.toNat = some (if d = 0 then 0 else if d = 1 then 1 else 2)) ∧
      (v = .esym → ∃ x : Sym, t.mems.esym.read s.regs.accIndex.toNat = some x ∧ x.toNat = d.toNat % 2 ^ s.params.symW.toNat) ∧
      (v = .ecnt → t.mems.ecnt.read s.regs.accIndex.toNat = some d) ∧
      (v = .nodeLr → t.mems.nodeLr.read s.regs.accIndex.toNat = some ⟨d.extractLsb' 0 16, d.extractLsb' 16 16⟩) ∧
      (v = .nodeWt → t.mems.nodeWt.read s.regs.accIndex.toNat = some d) ∧
      (v = .nodeSym → ∃ x : Sym,
        t.mems.nodeSym.read s.regs.accIndex.toNat = some ⟨x, d.getLsbD 31⟩ ∧ x.toNat = d.toNat % 2 ^ s.params.symW.toNat) ∧
      ∀ i, (v ≠ .sym ∨ i ≠ s.regs.accIndex.toNat → t.mems.sym.read i = s.mems.sym.read i) ∧
        (v ≠ .bit ∨ i ≠ s.regs.accIndex.toNat → t.mems.bit.read i = s.mems.bit.read i) ∧
        (v ≠ .esym ∨ i ≠ s.regs.accIndex.toNat → t.mems.esym.read i = s.mems.esym.read i) ∧
        (v ≠ .ecnt ∨ i ≠ s.regs.accIndex.toNat → t.mems.ecnt.read i = s.mems.ecnt.read i) ∧
        (v ≠ .nodeLr ∨ i ≠ s.regs.accIndex.toNat → t.mems.nodeLr.read i = s.mems.nodeLr.read i) ∧
        (v ≠ .nodeWt ∨ i ≠ s.regs.accIndex.toNat → t.mems.nodeWt.read i = s.mems.nodeWt.read i) ∧
        (v ≠ .nodeSym ∨ i ≠ s.regs.accIndex.toNat → t.mems.nodeSym.read i = s.mems.nodeSym.read i) ∧
        t.mems.out.read i = s.mems.out.read i ∧ t.mems.clen.read i = s.mems.clen.read i ∧
        t.mems.cbits.read i = s.mems.cbits.read i

/-- 20_memory.md R77 to R80: a port access that hits a reserved memory or an index out of range, or a write to a read-only view, reads 0, changes no cell, sets ACC_ERR and nothing else but the increment. -/
def Obligations.RefusedPortAccess : Prop :=
  ∀ (s : State) (a : BitVec 8) (d : Word), s.core = .idle → regAt a = some .accData →
    let regs := { s.regs with accErr := true, accIndex := if s.regs.autoInc then s.regs.accIndex + 1 else s.regs.accIndex }
    (10 ≤ s.regs.accMem.toNat ∨ (∃ v, viewAt s.regs.accMem = some v ∧ viewDepth s.params v ≤ s.regs.accIndex.toNat) →
      exec (.rd a) s = .next { s with rdata := 0, regs := regs } ∧ exec (.wr a d) s = .next { s with regs := regs }) ∧
    (s.regs.accMem = 2 ∨ s.regs.accMem = 8 ∨ s.regs.accMem = 9 → exec (.wr a d) s = .next { s with regs := regs })

/-- 70_reset_and_hazards.md R312, 93_implementation_defined.md U1 (log entry 3): using a cell nothing has written since reset is a fault, never a value: a read of the port in each of the ten views, and a command: FREQ and ENCODE at the first unwritten input cell, BUILD at the first entry without a count after a valid part of the table, GENTAB and DECODE at an unwritten root, DECODE at an unwritten first token. -/
def Obligations.PortReadOfUnwrittenCellFaults : Prop :=
  (∀ (s : State) (a : BitVec 8) (i : Nat), s.core = .idle → regAt a = some .accData → s.regs.accIndex.toNat = i →
    let faults := fun v : View => exec (.rd a) s = .fault (.unwrittenCell v i)
    (s.regs.accMem = 0 → i < s.params.symDepth.toNat → s.mems.sym.read i = none → faults .sym) ∧
    (s.regs.accMem = 1 → i < s.params.bitDepth.toNat → s.mems.bit.read i = none → faults .bit) ∧
    (s.regs.accMem = 2 → i < s.params.outDepth.toNat → s.mems.out.read i = none → faults .out) ∧
    (s.regs.accMem = 3 → i < nMax s.params → s.mems.esym.read i = none → faults .esym) ∧
    (s.regs.accMem = 4 → i < nMax s.params → s.mems.ecnt.read i = none → faults .ecnt) ∧
    (s.regs.accMem = 5 → i < nodeDepth s.params → s.mems.nodeLr.read i = none → faults .nodeLr) ∧
    (s.regs.accMem = 6 → i < nodeDepth s.params → s.mems.nodeWt.read i = none → faults .nodeWt) ∧
    (s.regs.accMem = 7 → i < nodeDepth s.params → s.mems.nodeSym.read i = none → faults .nodeSym) ∧
    (s.regs.accMem = 8 → i < nsym s.params → s.mems.clen.read i = none → faults .clen) ∧
    (s.regs.accMem = 9 → i < nsym s.params * nMax s.params → s.mems.cbits.read i = none → faults .cbits)) ∧
  (∀ (s : State) (xs : List Sym), s.regs.symLen ≤ s.params.symDepth → xs.length < s.regs.symLen.toNat →
    Holds s.mems.sym 0 xs → s.mems.sym.read xs.length = none →
    exec .freq s = .fault (.unwrittenCell .sym xs.length) ∧ exec .encode s = .fault (.unwrittenCell .sym xs.length)) ∧
  (∀ (s : State) (es : List (Sym × Word)), s.regs.nEntries.toNat ≤ nMax s.params → es.length < s.regs.nEntries.toNat →
    Holds s.mems.esym 0 (es.map (·.1)) → Holds s.mems.ecnt 0 (es.map (·.2)) → ValidEntries es →
    s.mems.ecnt.read es.length = none → exec .build s = .fault (.unwrittenCell .ecnt es.length)) ∧
  (∀ s : State, s.regs.root.toNat < nodeDepth s.params →
    s.mems.nodeLr.read s.regs.root.toNat = none →
    exec .gentab s = .fault (.unwrittenCell .nodeLr s.regs.root.toNat) ∧
    (s.regs.bitLen ≤ s.params.bitDepth → exec .decode s = .fault (.unwrittenCell .nodeLr s.regs.root.toNat))) ∧
  (∀ s : State, s.regs.root ≠ 0xFFFF → GoodTree s.params s.mems s.regs.root →
    s.regs.bitLen ≤ s.params.bitDepth → s.regs.bitLen ≠ 0 → s.mems.bit.read 0 = none →
    exec .decode s = .fault (.unwrittenCell .bit 0))

/-! ### The life of a command -/

/-- 40_command_control.md R130: a write to CMD while IDLE is accepted; no part of the command's work is done. -/
def Obligations.AcceptanceOfCommand : Prop :=
  ∀ (s : State) (a : BitVec 8) (w : Word), s.core = .idle → regAt a = some .cmd →
    exec (.wr a w) s = .next { s with
      core := .running w
      regs := { s.regs with done := false, err := false, errCode := 0, lastCmd := w.extractLsb' 0 4, errInfo := 0 } }

/-- 40_command_control.md R131: whatever command completes, the CORE is IDLE, DONE is set, and either ERR_CODE and ERR_INFO are 0 or ERR is set with one of the codes 1 to 10. No command changes the other STATUS fields, the registers only the host writes, or SYM (30_encoding.md R101). -/
def Obligations.CompletionReport : Prop :=
  ∀ (i : Instr) (s t : State), isCommand i = true → exec i s = .next t →
    t.core = .idle ∧ t.regs.done = true ∧
    ((t.regs.errCode = 0 ∧ t.regs.errInfo = 0 ∧ t.regs.err = s.regs.err) ∨
      (t.regs.err = true ∧ 1 ≤ t.regs.errCode.toNat ∧ t.regs.errCode.toNat ≤ 10)) ∧
    t.regs.reject = s.regs.reject ∧ t.regs.accErr = s.regs.accErr ∧ t.regs.lastCmd = s.regs.lastCmd ∧
    t.regs.symLen = s.regs.symLen ∧ t.regs.accMem = s.regs.accMem ∧ t.regs.autoInc = s.regs.autoInc ∧
    t.regs.accIndex = s.regs.accIndex ∧ t.regs.doneIe = s.regs.doneIe ∧ t.regs.errIe = s.regs.errIe ∧
    t.mems.sym = s.mems.sym ∧ t.params = s.params ∧ t.rdata = s.rdata ∧ t.pending = s.pending ∧ t.draws = s.draws

/-- 30_encoding.md R101: beyond STATUS and ERR_INFO a command that completes, with or without error, changes only its outputs. -/
def Obligations.CommandsWriteOnlyTheirOutputs : Prop :=
  ∀ s t : State,
    (exec .freq s = .next t →
      t.mems = { s.mems with esym := t.mems.esym, ecnt := t.mems.ecnt } ∧ t.regs.bitLen = s.regs.bitLen ∧
      t.regs.outLen = s.regs.outLen ∧ t.regs.root = s.regs.root ∧ t.regs.nNodes = s.regs.nNodes) ∧
    (exec .build s = .next t →
      t.mems = { s.mems with nodeLr := t.mems.nodeLr, nodeWt := t.mems.nodeWt, nodeSym := t.mems.nodeSym } ∧
      t.regs.bitLen = s.regs.bitLen ∧ t.regs.outLen = s.regs.outLen ∧ t.regs.nEntries = s.regs.nEntries) ∧
    (exec .gentab s = .next t →
      t.mems = { s.mems with clen := t.mems.clen, cbits := t.mems.cbits } ∧ t.regs.bitLen = s.regs.bitLen ∧
      t.regs.outLen = s.regs.outLen ∧ t.regs.nEntries = s.regs.nEntries ∧ t.regs.root = s.regs.root ∧
      t.regs.nNodes = s.regs.nNodes) ∧
    (exec .encode s = .next t → t.mems.out = s.mems.out ∧ t.mems.sym = s.mems.sym ∧ t.regs.outLen = s.regs.outLen) ∧
    (exec .decode s = .next t →
      t.mems = { s.mems with out := t.mems.out } ∧ t.regs.bitLen = s.regs.bitLen ∧ t.regs.nEntries = s.regs.nEntries ∧
      t.regs.root = s.regs.root ∧ t.regs.nNodes = s.regs.nNodes)

/-- 40_command_control.md R135: NOP completes and reports success, in every state. -/
def Obligations.NopReportsSuccess : Prop :=
  ∀ s : State, exec .nop s = .next { s with core := .idle, regs := { s.regs with done := true, errCode := 0, errInfo := 0 } }

/-- 40_command_control.md R136: an illegal word of each kind completes with ILLEGAL_CMD and the whole word recorded, and changes nothing else. -/
def Obligations.IllegalWordReportsItself : Prop :=
  ∀ s : State,
    (∀ lo, exec (.illegalOp6 lo) s = .next (reportError 4 (3#31 ++ lo) s)) ∧
    (∀ lo, exec (.illegalOp8 lo) s = .next (reportError 4 (1#29 ++ lo) s)) ∧
    (∀ rsv op, exec (.illegalRsv rsv op) s = .next (reportError 4 (rsv ++ op) s))

/-- 40_command_control.md R132 and the model's choice of log entries 1 and 4: with only whole-word host accesses to come, a running command is still running after all of them, the memories and every register but STATUS flags and IRQ_EN, its inputs among them, are untouched, and the step after them is its completion. A WAIT (30_encoding.md R106) that follows a command reads BUSY = 1 as often as its latency says, changing nothing, then the command completes, then one read returns BUSY = 0 and the WAIT is over. -/
def Obligations.RunningCommandGetsToComplete : Prop :=
  (∀ (s : State) (w : Word), s.core = .running w →
    (∀ x ∈ s.pending, ∃ a i, x = .access a ∧ decode (.bus a) = .ok i) →
    ∃ u : State, Host.Core.run Sys2Proof.core s.pending.length s = .next u ∧
      u = { s with
        pending := []
        rdata := u.rdata
        draws := u.draws
        regs := { s.regs with
          done := u.regs.done
          err := u.regs.err
          reject := u.regs.reject
          accErr := u.regs.accErr
          doneIe := u.regs.doneIe
          errIe := u.regs.errIe } } ∧
      step u = exec (decodeCmd w) u) ∧
  (∀ (s : State) (w : Word) (n : Nat) (rest : List Input), s.core = .running w → s.pending = .wait n :: rest →
    ∃ u : State, Host.Core.run Sys2Proof.core n s = .next u ∧
      u = { s with pending := .wait 0 :: rest, rdata := u.rdata } ∧ (0 < n → u.rdata.getLsbD 0 = true) ∧
      step u = exec (decodeCmd w) u ∧
      ∀ t, exec (decodeCmd w) u = .next t →
        ∃ x : Word, step t = .next { t with pending := rest, rdata := x } ∧ x.getLsbD 0 = false)

/-- 20_memory.md R83, 40_command_control.md R133: no host access made while a command runs changes anything the command reads. -/
def Obligations.RunningCommandIsIsolated : Prop :=
  ∀ (s t : State) (w : Word) (a : BusAccess) (rest : List Input),
    s.core = .running w → s.pending = .access a :: rest → step s = .next t →
    t = { s with
      pending := rest
      rdata := t.rdata
      draws := t.draws
      regs := { s.regs with
        done := t.regs.done
        err := t.regs.err
        reject := t.regs.reject
        accErr := t.regs.accErr
        doneIe := t.regs.doneIe
        errIe := t.regs.errIe } }

/-! ### Rules of the whole machine -/

/-- 10_state.md R26: if a step sets DONE or ERR, it is a completion; if it clears one, it is a STATUS write naming it, the acceptance of a command, or reset. ERR_CODE changes only at acceptance, completion and reset, LAST_CMD only at acceptance and reset. REJECT is set only by a write while a command runs and ACC_ERR only by an access to ACC_DATA while IDLE; a STATUS write naming it or reset clears either. -/
def Obligations.StatusFieldsChangeOnlyWhereStated : Prop :=
  ∀ (s t : State), step s = .next t →
    let accepts := s.core = .idle ∧ ∃ a w rest, s.pending = .access (.write .word a w) :: rest ∧ regAt a = some .cmd
    let resets := ∃ rest, s.pending = .reset :: rest
    let completes := (∃ w, s.core = .running w) ∧ t.core = .idle
    let clears := fun b => ∃ a d rest, s.pending = .access (.write .word a d) :: rest ∧ regAt a = some .status ∧ d.getLsbD b = true
    (s.regs.done = false → t.regs.done = true → completes) ∧
    (s.regs.err = false → t.regs.err = true → completes ∧ t.regs.errCode ≠ 0) ∧
    (s.regs.done = true → t.regs.done = false → clears 1 ∨ accepts ∨ resets) ∧
    (s.regs.err = true → t.regs.err = false → clears 2 ∨ accepts ∨ resets) ∧
    (t.regs.errCode ≠ s.regs.errCode → accepts ∨ completes ∨ resets) ∧
    (t.regs.lastCmd ≠ s.regs.lastCmd → accepts ∨ resets) ∧
    (s.regs.reject = false → t.regs.reject = true →
      (∃ w, s.core = .running w) ∧ ∃ a d rest, s.pending = .access (.write .word a d) :: rest) ∧
    (s.regs.reject = true → t.regs.reject = false → clears 3 ∨ resets) ∧
    (s.regs.accErr = false → t.regs.accErr = true → s.core = .idle ∧ ∃ a rest, regAt a = some .accData ∧
      (s.pending = .access (.read .word a) :: rest ∨ ∃ d, s.pending = .access (.write .word a d) :: rest)) ∧
    (s.regs.accErr = true → t.regs.accErr = false → clears 4 ∨ resets)

/-- 60_exceptions.md R286, R287: irq rises only at a completion or by a write to IRQ_EN, and falls only by a STATUS or IRQ_EN write, the acceptance of a command, or reset; at every step it is the OR of the two enabled flags. -/
def Obligations.InterruptChangesOnlyWhereStated : Prop :=
  ∀ (s t : State), step s = .next t →
    let writes := fun r => ∃ a d rest, s.pending = .access (.write .word a d) :: rest ∧ regAt a = some r
    (t.irq = true ↔ (t.regs.done = true ∧ t.regs.doneIe = true) ∨ (t.regs.err = true ∧ t.regs.errIe = true)) ∧
    (s.irq = false → t.irq = true → ((∃ w, s.core = .running w) ∧ t.core = .idle) ∨ writes .irqEn) ∧
    (s.irq = true → t.irq = false →
      writes .status ∨ writes .irqEn ∨ (s.core = .idle ∧ writes .cmd) ∨ ∃ rest, s.pending = .reset :: rest)

/-- 10_state.md R29, R31, R35 to R38, R43, R44: each memory and result length changes only by the commands the spec names, by a host write where it may write, or by reset. -/
def Obligations.MemoriesChangeOnlyByTheirWriters : Prop :=
  ∀ (s t : State), step s = .next t →
    let resets := ∃ rest, s.pending = .reset :: rest
    let hostWrites := ∃ a d rest, s.pending = .access (.write .word a d) :: rest
    (t.mems.sym ≠ s.mems.sym → hostWrites ∨ resets) ∧
    (t.mems.bit ≠ s.mems.bit → s.core = .running 4 ∨ hostWrites ∨ resets) ∧
    (t.mems.out ≠ s.mems.out → s.core = .running 5 ∨ resets) ∧
    (t.mems.esym ≠ s.mems.esym ∨ t.mems.ecnt ≠ s.mems.ecnt →
      s.core = .running 1 ∨ s.core = .running 4 ∨ hostWrites ∨ resets) ∧
    (t.mems.nodeLr ≠ s.mems.nodeLr ∨ t.mems.nodeWt ≠ s.mems.nodeWt ∨ t.mems.nodeSym ≠ s.mems.nodeSym →
      s.core = .running 2 ∨ s.core = .running 4 ∨ hostWrites ∨ resets) ∧
    (t.mems.clen ≠ s.mems.clen ∨ t.mems.cbits ≠ s.mems.cbits → s.core = .running 3 ∨ s.core = .running 4 ∨ resets) ∧
    (t.regs.symLen ≠ s.regs.symLen → hostWrites ∨ resets) ∧
    (t.regs.outLen ≠ s.regs.outLen → s.core = .running 5 ∨ resets)

/-- 00_scope.md R6: no step changes a build parameter (log entry 2). -/
def Obligations.ParametersNeverChange : Prop :=
  ∀ (s t : State), step s = .next t → t.params = s.params

/-- The invariant holds after reset of every legal build. -/
def Obligations.ResetMeetsInvariant : Prop :=
  Inv State.reset ∧ ∀ p : Params, p.legal = true → Inv (State.resetOf p)

/-- Every step keeps the invariant: memories canonical, in range and with values that fit; a running command's flags as its acceptance left them; no reserved error code; OUT written up to OUT_LEN. -/
def Obligations.StepKeepsInvariant : Prop :=
  ∀ (s t : State), Inv s → step s = .next t → Inv t

/-! ### Lengths beyond capacity -/

/-- 60_exceptions.md R281 (BAD_LENGTH), R283: a length above its capacity ends the command that reads it, with the length recorded, before any memory is touched; ENCODE also clears BIT_LEN and DECODE OUT_LEN. -/
def Obligations.LengthBeyondCapacity : Prop :=
  ∀ s : State,
    (s.params.symDepth < s.regs.symLen →
      exec .freq s = .next (reportError 5 s.regs.symLen s) ∧
      exec .encode s = .next (reportError 5 s.regs.symLen { s with regs := { s.regs with bitLen := 0 } })) ∧
    (nMax s.params < s.regs.nEntries.toNat → exec .build s = .next (reportError 5 s.regs.nEntries s)) ∧
    (s.regs.root ≠ 0xFFFF → s.params.bitDepth < s.regs.bitLen →
      exec .decode s = .next (reportError 5 s.regs.bitLen { s with regs := { s.regs with outLen := 0 } }))

/-! ### FREQ -/

/-- 41_frequency.md R160 to R162, R164: FREQ lists the distinct symbols in order of first appearance with their exact counts, keeps the cells above, and changes nothing else. -/
def Obligations.FreqCountsInOrderOfFirstAppearance : Prop :=
  ∀ (s : State) (xs : List Sym), Inv s → s.regs.symLen ≤ s.params.symDepth → s.regs.symLen.toNat = xs.length →
    Holds s.mems.sym 0 xs →
    ∃ t, exec .freq s = .next t ∧
      t = reportOk { s with
        regs := { s.regs with nEntries := BitVec.ofNat 32 xs.eraseDups.length }
        mems := { s.mems with esym := t.mems.esym, ecnt := t.mems.ecnt } } ∧
      t.regs.nEntries.toNat = xs.eraseDups.length ∧ Holds t.mems.esym 0 xs.eraseDups ∧
      (∀ k, (h : k < xs.eraseDups.length) → ∃ c, t.mems.ecnt.read k = some c ∧ c.toNat = xs.count xs.eraseDups[k]) ∧
      ∀ k, xs.eraseDups.length ≤ k → t.mems.esym.read k = s.mems.esym.read k ∧ t.mems.ecnt.read k = s.mems.ecnt.read k

/-- 41_frequency.md R163: what BUILD relies on in FREQ's table, and that BUILD raises no error on it. -/
def Obligations.FreqTableBuildsWithoutError : Prop :=
  ∀ (s t : State), Inv s → exec .freq s = .next t → t.regs.errCode = 0 →
    ∃ es xs u, EntriesAre t es ∧ ValidEntries es ∧ es.length ≤ nMax s.params ∧ totalCount es = s.regs.symLen.toNat ∧
      Holds s.mems.sym 0 xs ∧ xs.length = s.regs.symLen.toNat ∧ (∀ x, x ∈ es.map (·.1) ↔ x ∈ xs) ∧
      exec .build t = .next u ∧ u.regs.errCode = 0

/-! ### BUILD -/

/-- 42_tree_build.md R181: BUILD reports the first entry that has count 0, repeats a symbol, or brings the running total to 2^32, in that order at one entry, and changes nothing else. -/
def Obligations.BuildReportsFirstBadEntry : Prop :=
  ∀ (s : State) (es : List (Sym × Word)) (k : Nat) (hk : k < es.length), EntriesAre s es → es.length ≤ nMax s.params →
    let invalid := fun (j : Nat) (h : j < es.length) => es[j].2 = 0 ∨ ∃ i, ∃ hi : i < j, es[i].1 = es[j].1
    let exceeds := fun (j : Nat) => 2 ^ 32 ≤ totalCount (es.take (j + 1))
    (∀ j, (hj : j < k) → ¬ invalid j (by omega) ∧ ¬ exceeds j) →
    (invalid k hk → exec .build s = .next (reportError 6 (BitVec.ofNat 32 k) s)) ∧
    (¬ invalid k hk → exceeds k → exec .build s = .next (reportError 7 (BitVec.ofNat 32 k) s))

/-- 42_tree_build.md R180 to R183, 10_state.md R42: on a valid table of n ≥ 1 entries BUILD writes the leaves at 0 to n−1, then at each index i up to 2n−2 the merge of the two members of the working set with the least keys, first LEFT, second RIGHT; ROOT is 2n−2, N_NODES 2n−1; the nodes above and everything else are unchanged. -/
def Obligations.BuildMergesLeastKeys : Prop :=
  ∀ (s : State) (es : List (Sym × Word)) (n : Nat), Inv s → EntriesAre s es → ValidEntries es → es.length = n → 1 ≤ n →
    n ≤ nMax s.params →
    ∃ t, exec .build s = .next t ∧
      t = reportOk { s with
        regs := { s.regs with root := BitVec.ofNat 16 (2 * n - 2), nNodes := BitVec.ofNat 16 (2 * n - 1) }
        mems := { s.mems with nodeLr := t.mems.nodeLr, nodeWt := t.mems.nodeWt, nodeSym := t.mems.nodeSym } } ∧
      (∀ k, (h : k < es.length) → t.mems.nodeLr.read k = some ⟨0xFFFF, 0xFFFF⟩ ∧ t.mems.nodeWt.read k = some es[k].2 ∧
        t.mems.nodeSym.read k = some ⟨es[k].1, true⟩) ∧
      (∀ i, n ≤ i → i < 2 * n - 1 → ∃ l r a b,
        t.mems.nodeLr.read i = some ⟨BitVec.ofNat 16 l, BitVec.ofNat 16 r⟩ ∧ t.mems.nodeSym.read i = some ⟨0, false⟩ ∧
        InWorkingSet t.mems n i l ∧ InWorkingSet t.mems n i r ∧ l ≠ r ∧
        t.mems.nodeWt.read l = some a ∧ t.mems.nodeWt.read r = some b ∧ t.mems.nodeWt.read i = some (a + b) ∧
        a.toNat + b.toNat < 2 ^ 32 ∧ KeyBelow t.mems l r ∧
        ∀ p, InWorkingSet t.mems n i p → p ≠ l → p ≠ r → KeyBelow t.mems r p) ∧
      ∀ i, 2 * n - 1 ≤ i → t.mems.nodeLr.read i = s.mems.nodeLr.read i ∧ t.mems.nodeWt.read i = s.mems.nodeWt.read i ∧
        t.mems.nodeSym.read i = s.mems.nodeSym.read i

/-- 42_tree_build.md R180, R186: no entry gives the absent tree and writes no node; one entry gives a single leaf at index 0. -/
def Obligations.BuildOfNoneAndOne : Prop :=
  (∀ s : State, s.regs.nEntries = 0 →
    exec .build s = .next (reportOk { s with regs := { s.regs with root := 0xFFFF, nNodes := 0 } })) ∧
  (∀ (s : State) (x : Sym) (c : Word), Inv s → EntriesAre s [(x, c)] → c ≠ 0 →
    ∃ t, exec .build s = .next t ∧ t.regs.errCode = 0 ∧ t.regs.root = 0 ∧ t.regs.nNodes = 1 ∧
      t.mems.nodeLr.read 0 = some ⟨0xFFFF, 0xFFFF⟩ ∧ t.mems.nodeWt.read 0 = some c ∧ t.mems.nodeSym.read 0 = some ⟨x, true⟩)

/-- 42_tree_build.md R184: the tree BUILD leaves is well formed, its nodes are exactly 0 to 2n−2, it passes WF_TREE, and the root's weight is the total of the counts. -/
def Obligations.BuiltTreeIsWellFormed : Prop :=
  ∀ (s t : State) (es : List (Sym × Word)), Inv s → EntriesAre s es → ValidEntries es → es ≠ [] → es.length ≤ nMax s.params →
    exec .build s = .next t →
    GoodTree t.params t.mems t.regs.root ∧ wfTree t.params t.mems t.regs.root = .ok none ∧
      (∀ q, Reachable t.mems t.regs.root q ↔ q.toNat ≤ 2 * es.length - 2) ∧
      ∃ w, t.mems.nodeWt.read t.regs.root.toNat = some w ∧ w.toNat = totalCount es

/-! ### GENTAB -/

/-- 43_code_table.md R201, R202: the tree check accepts exactly the well-formed trees. -/
def Obligations.TreeCheckAcceptsExactlyGoodTrees : Prop :=
  ∀ (p : Params) (m : Mems) (r : NodeIx), p.legal = true → r ≠ 0xFFFF → (wfTree p m r = .ok none ↔ GoodTree p m r)

/-- 43_code_table.md R202: in a well-formed tree of a build's symbols every path has at most N_MAX − 1 edges. -/
def Obligations.TreePathsAreShort : Prop :=
  ∀ (s : State) (path : List CodeBit) (q : NodeIx), Inv s → GoodTree s.params s.mems s.regs.root →
    walkPath s.mems s.regs.root path = some q → path.length ≤ nMax s.params - 1

/-- 43_code_table.md R203 to R205: on a well-formed tree GENTAB writes each leaf's path as its symbol's code, "0" for a leaf root, and clears every other cell of the table; nothing else changes. -/
def Obligations.GentabWritesTheCodes : Prop :=
  ∀ s : State, Inv s → s.regs.root ≠ 0xFFFF → GoodTree s.params s.mems s.regs.root →
    ∃ t, exec .gentab s = .next t ∧
      t = reportOk { s with mems := { s.mems with clen := t.mems.clen, cbits := t.mems.cbits } } ∧
      (IsInternal s.mems s.regs.root → ∀ path x, CodePath s.mems s.regs.root path x →
        (∃ c, t.mems.clen.read x.toNat = some c ∧ c.toNat = path.length) ∧
        ∀ j, j < nMax s.params → t.mems.cbits.read (x.toNat * nMax s.params + j) = some (path.getD j 0)) ∧
      (∀ x, s.mems.nodeSym.read s.regs.root.toNat = some ⟨x, true⟩ →
        t.mems.clen.read x.toNat = some 1 ∧ ∀ j, j < nMax s.params → t.mems.cbits.read (x.toNat * nMax s.params + j) = some 0) ∧
      (∀ x : Sym, (∀ path, ¬ CodePath s.mems s.regs.root path x) →
        x.toNat < nsym s.params → t.mems.clen.read x.toNat = some 0 ∧
        ∀ j, j < nMax s.params → t.mems.cbits.read (x.toNat * nMax s.params + j) = some 0)

/-- 43_code_table.md R203: with no tree the table is empty. -/
def Obligations.GentabOfAbsentTree : Prop :=
  ∀ s : State, s.regs.root = 0xFFFF →
    ∃ t, exec .gentab s = .next t ∧ t = reportOk { s with mems := { s.mems with clen := t.mems.clen, cbits := t.mems.cbits } } ∧
      (∀ i, i < nsym s.params → t.mems.clen.read i = some 0) ∧
      ∀ i, i < nsym s.params * nMax s.params → t.mems.cbits.read i = some 0

/-- 43_code_table.md R201, R203, 45_decode.md R250, 60_exceptions.md R282, R283: a tree that is not well formed, its reachable nodes written, has a first failing node in preorder, left before right; GENTAB and DECODE refuse the tree with TREE_INVALID at that node; GENTAB changes nothing else, DECODE clears OUT_LEN and changes nothing else. -/
def Obligations.GentabRefusesBadTree : Prop :=
  ∀ s : State, s.params.legal = true → s.regs.root ≠ 0xFFFF → TreeWritten s.params s.mems s.regs.root →
    (¬ GoodTree s.params s.mems s.regs.root → ∃ path q, FirstBadNode s.params s.mems s.regs.root path q) ∧
    ∀ path q, FirstBadNode s.params s.mems s.regs.root path q →
      exec .gentab s = .next (reportError 8 (q.setWidth 32) s) ∧
      (s.regs.bitLen ≤ s.params.bitDepth →
        exec .decode s = .next (reportError 8 (q.setWidth 32) { s with regs := { s.regs with outLen := 0 } }))

/-- 43_code_table.md R206: after a GENTAB that succeeds, no symbol's code is the beginning of another's, and none is empty. -/
def Obligations.CodesArePrefixFree : Prop :=
  ∀ (s t : State) (x y : Sym), Inv s → exec .gentab s = .next t → t.regs.errCode = 0 → x ≠ y →
    (∃ c, t.mems.clen.read x.toNat = some c ∧ c ≠ 0) → (∃ c, t.mems.clen.read y.toNat = some c ∧ c ≠ 0) →
    codeOf t.params t.mems x ≠ [] ∧ ¬ codeOf t.params t.mems x <+: codeOf t.params t.mems y

/-! ### ENCODE -/

/-- 44_encode.md R230, R232: ENCODE never faults on a written input and leaves the frequency table, tree and code table that FREQ, BUILD and GENTAB leave one after the other, none of which fails. -/
def Obligations.EncodeIsTheComposite : Prop :=
  ∀ (s : State) (xs : List Sym), Inv s → s.regs.symLen ≤ s.params.symDepth → s.regs.symLen.toNat = xs.length →
    Holds s.mems.sym 0 xs →
    ∃ t a b c, exec .encode s = .next t ∧ exec .freq s = .next a ∧ exec .build a = .next b ∧ exec .gentab b = .next c ∧
      a.regs.errCode = 0 ∧ b.regs.errCode = 0 ∧ c.regs.errCode = 0 ∧
      t.mems = { c.mems with bit := t.mems.bit } ∧ t.regs.nEntries = c.regs.nEntries ∧ t.regs.root = c.regs.root ∧
      t.regs.nNodes = c.regs.nNodes ∧ ∀ x ∈ xs, codeOf t.params t.mems x ≠ []

/-- 44_encode.md R231, R233: when the codes of the input fit in BIT, ENCODE succeeds, BIT holds their concatenation in input order and BIT_LEN its length; the cells above keep their contents. -/
def Obligations.EncodeEmitsTheCodes : Prop :=
  ∀ (s t : State) (xs : List Sym), Inv s → s.regs.symLen ≤ s.params.symDepth → s.regs.symLen.toNat = xs.length →
    Holds s.mems.sym 0 xs → exec .encode s = .next t →
    (xs.flatMap (codeOf t.params t.mems)).length ≤ s.params.bitDepth.toNat →
    t.regs.errCode = 0 ∧ t.regs.err = s.regs.err ∧
      t.regs.bitLen.toNat = (xs.flatMap (codeOf t.params t.mems)).length ∧
      Holds t.mems.bit 0 ((xs.flatMap (codeOf t.params t.mems)).map (BitVec.setWidth 2)) ∧
      ∀ k, (xs.flatMap (codeOf t.params t.mems)).length ≤ k → t.mems.bit.read k = s.mems.bit.read k

/-- 44_encode.md R230, R233, 60_exceptions.md R283: when the code of symbol i is the first that does not fit, ENCODE fails with BIT_OVERFLOW(i), BIT_LEN 0, and the codes of the symbols before it stay in BIT. -/
def Obligations.EncodeReportsFirstOverflow : Prop :=
  ∀ (s t : State) (xs ys zs : List Sym) (x : Sym), Inv s → s.regs.symLen ≤ s.params.symDepth →
    s.regs.symLen.toNat = xs.length → Holds s.mems.sym 0 xs → exec .encode s = .next t → xs = ys ++ x :: zs →
    (ys.flatMap (codeOf t.params t.mems)).length ≤ s.params.bitDepth.toNat →
    s.params.bitDepth.toNat < ((ys ++ [x]).flatMap (codeOf t.params t.mems)).length →
    t.regs.err = true ∧ t.regs.errCode = 9 ∧ t.regs.errInfo.toNat = ys.length ∧ t.regs.bitLen = 0 ∧
      Holds t.mems.bit 0 ((ys.flatMap (codeOf t.params t.mems)).map (BitVec.setWidth 2)) ∧
      ∀ k, (ys.flatMap (codeOf t.params t.mems)).length ≤ k → t.mems.bit.read k = s.mems.bit.read k

/-- 44_encode.md R235: empty input gives an empty table, the absent tree, an empty code table and an empty bitstring, without error. -/
def Obligations.EncodeOfEmptyInput : Prop :=
  ∀ s : State, s.regs.symLen = 0 →
    ∃ t, exec .encode s = .next t ∧
      t = reportOk { s with
        regs := { s.regs with nEntries := 0, root := 0xFFFF, nNodes := 0, bitLen := 0 }
        mems := { s.mems with clen := t.mems.clen, cbits := t.mems.cbits } } ∧
      (∀ i, i < nsym s.params → t.mems.clen.read i = some 0) ∧
      ∀ i, i < nsym s.params * nMax s.params → t.mems.cbits.read i = some 0

/-- 44_encode.md R236: an input of one distinct symbol gives one entry, one leaf, the code "0" and a bitstring of zeros. -/
def Obligations.EncodeOfOneDistinctSymbol : Prop :=
  ∀ (s : State) (x : Sym) (n : Nat), Inv s → s.regs.symLen ≤ s.params.symDepth → s.regs.symLen.toNat = n → 1 ≤ n →
    n ≤ s.params.bitDepth.toNat → Holds s.mems.sym 0 (List.replicate n x) →
    ∃ t, exec .encode s = .next t ∧ t.regs.errCode = 0 ∧ t.regs.nEntries = 1 ∧ t.mems.esym.read 0 = some x ∧
      t.mems.ecnt.read 0 = some s.regs.symLen ∧ t.regs.root = 0 ∧ t.regs.nNodes = 1 ∧
      t.mems.nodeLr.read 0 = some ⟨0xFFFF, 0xFFFF⟩ ∧ t.mems.nodeSym.read 0 = some ⟨x, true⟩ ∧
      t.mems.clen.read x.toNat = some 1 ∧ t.mems.cbits.read (x.toNat * nMax s.params) = some 0 ∧
      Holds t.mems.bit 0 (List.replicate n 0) ∧ t.regs.bitLen = s.regs.symLen

/-- 44_encode.md R234: ENCODE's results are a function of SYM_LEN and the input alone: two states of one build that agree on them get the same report, table, tree, codes and bitstring. -/
def Obligations.EncodeDependsOnInputOnly : Prop :=
  ∀ (s s' t t' : State) (xs : List Sym), Inv s → Inv s' → s.params = s'.params → s.regs.symLen = s'.regs.symLen →
    s.regs.symLen.toNat = xs.length → Holds s.mems.sym 0 xs → Holds s'.mems.sym 0 xs →
    s.regs.symLen ≤ s.params.symDepth → exec .encode s = .next t → exec .encode s' = .next t' →
    t.regs.errCode = t'.regs.errCode ∧ t.regs.errInfo = t'.regs.errInfo ∧ t.regs.bitLen = t'.regs.bitLen ∧
      t.regs.nEntries = t'.regs.nEntries ∧ t.regs.root = t'.regs.root ∧ t.regs.nNodes = t'.regs.nNodes ∧
      t.mems.clen = t'.mems.clen ∧ t.mems.cbits = t'.mems.cbits ∧
      (∀ k, k < t.regs.bitLen.toNat → t.mems.bit.read k = t'.mems.bit.read k) ∧
      (∀ k, k < t.regs.nEntries.toNat → t.mems.esym.read k = t'.mems.esym.read k ∧ t.mems.ecnt.read k = t'.mems.ecnt.read k) ∧
      ∀ k, k < t.regs.nNodes.toNat → t.mems.nodeLr.read k = t'.mems.nodeLr.read k ∧
        t.mems.nodeWt.read k = t'.mems.nodeWt.read k ∧ t.mems.nodeSym.read k = t'.mems.nodeSym.read k

/-! ### DECODE -/

/-- 45_decode.md R255: with no tree DECODE returns empty output and no error, whatever BIT_LEN and BIT hold. -/
def Obligations.DecodeOfAbsentTree : Prop :=
  ∀ s : State, s.regs.root = 0xFFFF → exec .decode s = .next (reportOk { s with regs := { s.regs with outLen := 0 } })

/-- 45_decode.md R250, R251: in a tree with an internal root, a bitstring that is a sequence of codes decodes to their symbols; and whenever DECODE succeeds, the bitstring was such a sequence and OUT holds its symbols. -/
def Obligations.DecodeReadsCodes : Prop :=
  ∀ s : State, Inv s → s.regs.root ≠ 0xFFFF → GoodTree s.params s.mems s.regs.root → IsInternal s.mems s.regs.root →
    s.regs.bitLen ≤ s.params.bitDepth →
    let spells := fun l : List (List CodeBit × Sym) =>
      (∀ e ∈ l, CodePath s.mems s.regs.root e.1 e.2) ∧ (l.flatMap (·.1)).length = s.regs.bitLen.toNat ∧
      Holds s.mems.bit 0 ((l.flatMap (·.1)).map (BitVec.setWidth 2)) ∧ l.length ≤ s.params.outDepth.toNat
    (∀ l, spells l → ∃ t, exec .decode s = .next t ∧
      t = reportOk { s with
        regs := { s.regs with outLen := BitVec.ofNat 32 l.length }
        mems := { s.mems with out := t.mems.out } } ∧
      t.regs.outLen.toNat = l.length ∧ Holds t.mems.out 0 (l.map (·.2)) ∧
      ∀ k, l.length ≤ k → t.mems.out.read k = s.mems.out.read k) ∧
    (∀ t, exec .decode s = .next t → t.regs.errCode = 0 →
      ∃ l, spells l ∧ t.regs.outLen.toNat = l.length ∧ Holds t.mems.out 0 (l.map (·.2)))

/-- 45_decode.md R253: tokens that end inside a code are a malformed stream at BIT_LEN; the symbols before stay in OUT, OUT_LEN is 0 (60_exceptions.md R283). -/
def Obligations.DecodeReportsMalformedEnd : Prop :=
  ∀ (s : State) (l : List (List CodeBit × Sym)) (path : List CodeBit) (q : NodeIx), Inv s → s.regs.root ≠ 0xFFFF →
    GoodTree s.params s.mems s.regs.root → s.regs.bitLen ≤ s.params.bitDepth →
    (∀ e ∈ l, CodePath s.mems s.regs.root e.1 e.2) → l.length ≤ s.params.outDepth.toNat →
    walkPath s.mems s.regs.root path = some q → path ≠ [] → IsInternal s.mems q →
    s.regs.bitLen.toNat = (l.flatMap (·.1) ++ path).length →
    Holds s.mems.bit 0 ((l.flatMap (·.1) ++ path).map (BitVec.setWidth 2)) →
    ∃ t, exec .decode s = .next t ∧
      t = reportError 3 s.regs.bitLen { s with
        regs := { s.regs with outLen := 0 }
        mems := { s.mems with out := t.mems.out } } ∧
      Holds t.mems.out 0 (l.map (·.2)) ∧ ∀ k, l.length ≤ k → t.mems.out.read k = s.mems.out.read k

/-- 45_decode.md R254, 60_exceptions.md R282: the first INVALID token, reached after codes and a part of a code, is reported at its index, whatever follows it. -/
def Obligations.DecodeReportsInvalidToken : Prop :=
  ∀ (s : State) (l : List (List CodeBit × Sym)) (path : List CodeBit) (q : NodeIx) (tok : Token), Inv s →
    s.regs.root ≠ 0xFFFF → GoodTree s.params s.mems s.regs.root → s.regs.bitLen ≤ s.params.bitDepth →
    (∀ e ∈ l, CodePath s.mems s.regs.root e.1 e.2) → l.length ≤ s.params.outDepth.toNat →
    walkPath s.mems s.regs.root path = some q → IsInternal s.mems q →
    tok = 2 ∨ tok = 3 → (l.flatMap (·.1) ++ path).length < s.regs.bitLen.toNat →
    Holds s.mems.bit 0 ((l.flatMap (·.1) ++ path).map (BitVec.setWidth 2) ++ [tok]) →
    ∃ t, exec .decode s = .next t ∧
      t = reportError 2 (BitVec.ofNat 32 (l.flatMap (·.1) ++ path).length) { s with
        regs := { s.regs with outLen := 0 }
        mems := { s.mems with out := t.mems.out } } ∧
      Holds t.mems.out 0 (l.map (·.2)) ∧ ∀ k, l.length ≤ k → t.mems.out.read k = s.mems.out.read k

/-- 45_decode.md R250, 60_exceptions.md R281: a symbol due when OUT is full is OUT_OVERFLOW at the token that completes it; OUT keeps the symbols before it. -/
def Obligations.DecodeReportsOutOverflow : Prop :=
  ∀ (s : State) (l : List (List CodeBit × Sym)) (path : List CodeBit) (x : Sym), Inv s → s.regs.root ≠ 0xFFFF →
    GoodTree s.params s.mems s.regs.root → IsInternal s.mems s.regs.root → s.regs.bitLen ≤ s.params.bitDepth →
    (∀ e ∈ l, CodePath s.mems s.regs.root e.1 e.2) → l.length = s.params.outDepth.toNat →
    CodePath s.mems s.regs.root path x → (l.flatMap (·.1) ++ path).length ≤ s.regs.bitLen.toNat →
    Holds s.mems.bit 0 ((l.flatMap (·.1) ++ path).map (BitVec.setWidth 2)) →
    ∃ t, exec .decode s = .next t ∧
      t = reportError 10 (BitVec.ofNat 32 ((l.flatMap (·.1) ++ path).length - 1)) { s with
        regs := { s.regs with outLen := 0 }
        mems := { s.mems with out := t.mems.out } } ∧
      Holds t.mems.out 0 (l.map (·.2)) ∧ ∀ k, l.length ≤ k → t.mems.out.read k = s.mems.out.read k

/-- 45_decode.md R252: with a leaf root every `0` token is a complete code of the root's symbol, and a `1` token is a malformed stream at its index, also when OUT is full. R254, R250: an INVALID token is reported at its index, also when OUT is full, and a `0` token when OUT is full is OUT_OVERFLOW at its index. -/
def Obligations.DecodeOfSingleLeaf : Prop :=
  ∀ (s : State) (x : Sym) (n : Nat), Inv s → s.regs.root.toNat < nodeDepth s.params → IsLeaf s.mems s.regs.root →
    s.mems.nodeSym.read s.regs.root.toNat = some ⟨x, true⟩ → s.regs.bitLen ≤ s.params.bitDepth → n ≤ s.params.outDepth.toNat →
    (s.regs.bitLen.toNat = n → Holds s.mems.bit 0 (List.replicate n 0) →
      ∃ t, exec .decode s = .next t ∧
        t = reportOk { s with regs := { s.regs with outLen := BitVec.ofNat 32 n }, mems := { s.mems with out := t.mems.out } } ∧
        Holds t.mems.out 0 (List.replicate n x) ∧ ∀ k, n ≤ k → t.mems.out.read k = s.mems.out.read k) ∧
    (n < s.regs.bitLen.toNat → ∀ (tok : Token) (code : BitVec 4), Holds s.mems.bit 0 (List.replicate n 0 ++ [tok]) →
      (tok = 1 ∧ code = 3) ∨ (tok = 2 ∧ code = 2) ∨ (tok = 3 ∧ code = 2) ∨ (tok = 0 ∧ n = s.params.outDepth.toNat ∧ code = 10) →
      ∃ t, exec .decode s = .next t ∧
        t = reportError code (BitVec.ofNat 32 n)
          { s with regs := { s.regs with outLen := 0 }, mems := { s.mems with out := t.mems.out } } ∧
        Holds t.mems.out 0 (List.replicate n x) ∧ ∀ k, n ≤ k → t.mems.out.read k = s.mems.out.read k)

/-- 60_exceptions.md R283: a failed ENCODE leaves BIT_LEN 0 and a failed DECODE OUT_LEN 0; a failed FREQ, BUILD or GENTAB changes nothing but its report. -/
def Obligations.ErrorEffects : Prop :=
  ∀ s t : State, t.regs.errCode ≠ 0 →
    (exec .encode s = .next t → t.regs.bitLen = 0) ∧
    (exec .decode s = .next t → t.regs.outLen = 0) ∧
    (exec .freq s = .next t ∨ exec .build s = .next t ∨ exec .gentab s = .next t →
      t = reportError t.regs.errCode t.regs.errInfo s)

/-- 45_decode.md R257: if ENCODE succeeds on a non-empty input that fits in OUT, then DECODE, accepted in any idle state of the build that meets the invariant and has the BIT, BIT_LEN, TREE and NODE that ENCODE left (whatever else the host has done in between), gives the input back. -/
def Obligations.RoundTrip : Prop :=
  ∀ (s t v : State) (a : BitVec 8), Inv s → exec .encode s = .next t → t.regs.errCode = 0 → s.regs.symLen ≠ 0 →
    s.regs.symLen ≤ s.params.outDepth → Inv v → v.core = .idle → v.params = t.params → v.mems.bit = t.mems.bit →
    v.regs.bitLen = t.regs.bitLen → v.regs.root = t.regs.root → v.regs.nNodes = t.regs.nNodes →
    v.mems.nodeLr = t.mems.nodeLr → v.mems.nodeWt = t.mems.nodeWt → v.mems.nodeSym = t.mems.nodeSym → regAt a = some .cmd →
    ∃ v' u, exec (.wr a 5) v = .next v' ∧ exec .decode v' = .next u ∧ u.regs.errCode = 0 ∧ u.regs.err = false ∧
      u.regs.outLen = s.regs.symLen ∧ ∀ i, i < s.regs.symLen.toNat → u.mems.out.read i = s.mems.sym.read i
end

