-- ==== Sys2Proof/Laws/Memory.lean ====
section
/-! SUPPORT. The laws of the on-chip memories: read after write, everything else unchanged, the canonical form kept. -/

namespace Sys2Proof.Machine

variable {α : Type}

/-- Every listed key is at least `b`. -/
def keysFrom (b : Nat) (l : List (Nat × α)) : Prop := ∀ c ∈ l, b ≤ c.1

theorem rising_cons {a : Nat × α} {l : List (Nat × α)} :
    rising (a :: l) = true ↔ keysFrom (a.1 + 1) l ∧ rising l = true := by
  induction l generalizing a with
  | nil => simp [rising, keysFrom]
  | cons b rest ih =>
    simp only [rising, Bool.and_eq_true, decide_eq_true_eq, keysFrom, List.mem_cons, forall_eq_or_imp]
    constructor
    · rintro ⟨hab, hr⟩
      refine ⟨⟨hab, fun c hc => ?_⟩, hr⟩
      have := (ih.mp hr).1 c hc
      omega
    · rintro ⟨⟨hab, -⟩, hr⟩
      exact ⟨hab, hr⟩

theorem findCell_none_of_below {l : List (Nat × α)} {i : Nat} (h : keysFrom (i + 1) l) : findCell l i = none := by
  cases l with
  | nil => rfl
  | cons c rest =>
    have := h c (by simp)
    simp only [findCell]
    rw [if_neg (by omega), if_pos (by omega)]

theorem findCell_putCell_same (i : Nat) (v : α) (l : List (Nat × α)) : findCell (putCell i v l) i = some v := by
  induction l with
  | nil => simp [putCell, findCell]
  | cons c rest ih =>
    simp only [putCell]
    split
    · simp [findCell]
    · split
      · simp [findCell]
      · rename_i h1 h2; simp [findCell, h1, h2, ih]

theorem findCell_putCell_other {i k : Nat} (v : α) (l : List (Nat × α)) (h : k ≠ i) :
    rising l = true → findCell (putCell i v l) k = findCell l k := by
  induction l with
  | nil => intro _; simp [putCell, findCell, h]
  | cons c rest ih =>
    intro hr
    obtain ⟨hk, hrest⟩ := rising_cons.mp hr
    simp only [putCell]
    split
    · rename_i h1; subst h1; simp [findCell, h]
    · split
      · rename_i h1 h2
        simp only [findCell, if_neg h]
        by_cases hki : k < i
        · rw [if_pos hki, if_neg (by omega), if_pos (by omega)]
        · rw [if_neg hki]
      · simp only [findCell, ih hrest]

theorem findCell_dropCell_same (i : Nat) (l : List (Nat × α)) (hr : rising l = true) : findCell (dropCell i l) i = none := by
  induction l with
  | nil => rfl
  | cons c rest ih =>
    obtain ⟨hk, hrest⟩ := rising_cons.mp hr
    simp only [dropCell]
    split
    · rename_i h; subst h; exact findCell_none_of_below hk
    · split
      · rename_i h1 h2; simp [findCell, h1, h2]
      · rename_i h1 h2; simp [findCell, h1, h2, ih hrest]

theorem findCell_dropCell_other {i k : Nat} (l : List (Nat × α)) (hr : rising l = true) (h : k ≠ i) :
    findCell (dropCell i l) k = findCell l k := by
  induction l with
  | nil => rfl
  | cons c rest ih =>
    obtain ⟨hk, hrest⟩ := rising_cons.mp hr
    simp only [dropCell]
    split
    · rename_i h1
      subst h1
      simp only [findCell, if_neg h]
      split
      · exact findCell_none_of_below fun d hd => by have := hk d hd; omega
      · rfl
    · split
      · rfl
      · simp only [findCell, ih hrest]

theorem mem_putCell {i : Nat} {v : α} {l : List (Nat × α)} {c : Nat × α} (h : c ∈ putCell i v l) : c = (i, v) ∨ c ∈ l := by
  induction l with
  | nil => simpa [putCell] using h
  | cons d rest ih =>
    simp only [putCell] at h
    split at h
    · simp only [List.mem_cons] at h ⊢; tauto
    · split at h
      · simp only [List.mem_cons] at h ⊢; tauto
      · simp only [List.mem_cons] at h ⊢
        rcases h with h | h
        · tauto
        · have := ih h; tauto

theorem mem_dropCell {i : Nat} {l : List (Nat × α)} {c : Nat × α} (h : c ∈ dropCell i l) : c ∈ l := by
  induction l with
  | nil => simp [dropCell] at h
  | cons d rest ih =>
    simp only [dropCell] at h
    split at h
    · exact List.mem_cons_of_mem _ h
    · split at h
      · exact h
      · simp only [List.mem_cons] at h ⊢
        rcases h with h | h
        · exact .inl h
        · exact .inr (ih h)

theorem rising_putCell (i : Nat) (v : α) (l : List (Nat × α)) (hr : rising l = true) : rising (putCell i v l) = true := by
  induction l with
  | nil => rfl
  | cons c rest ih =>
    obtain ⟨hk, hrest⟩ := rising_cons.mp hr
    simp only [putCell]
    split
    · rename_i h; subst h; exact rising_cons.mpr ⟨hk, hrest⟩
    · split
      · rename_i h1 h2
        refine rising_cons.mpr ⟨fun d hd => ?_, hr⟩
        rcases List.mem_cons.mp hd with rfl | hd
        · exact h2
        · have := hk d hd; omega
      · rename_i h1 h2
        refine rising_cons.mpr ⟨fun d hd => ?_, ih hrest⟩
        rcases mem_putCell hd with rfl | hd
        · simp only; omega
        · exact hk d hd

theorem rising_dropCell (i : Nat) (l : List (Nat × α)) (hr : rising l = true) : rising (dropCell i l) = true := by
  induction l with
  | nil => rfl
  | cons c rest ih =>
    obtain ⟨hk, hrest⟩ := rising_cons.mp hr
    simp only [dropCell]
    split
    · exact hrest
    · split
      · exact hr
      · exact rising_cons.mpr ⟨fun d hd => hk d (mem_dropCell hd), ih hrest⟩

variable [DecidableEq α]

theorem wf_iff (m : Mem α) :
    m.wf = true ↔ rising m.cells = true ∧ ∀ c ∈ m.cells, m.blank ≠ some c.2 := by
  simp [Mem.wf]

/-- Everything a write can do, said once: it keeps the canonical form, sets its cell and leaves every other cell alone. -/
theorem write_spec (m : Mem α) (i : Nat) (v : α) (h : m.wf = true) :
    (m.write i v).wf = true ∧ (m.write i v).blank = m.blank ∧ (m.write i v).read i = some v ∧
      ∀ k, k ≠ i → (m.write i v).read k = m.read k := by
  obtain ⟨hr, hb⟩ := (wf_iff m).mp h
  unfold Mem.write
  split
  · rename_i hblank
    refine ⟨(wf_iff _).mpr ⟨rising_dropCell i _ hr, fun c hc => hb c (mem_dropCell hc)⟩, rfl, ?_, fun k hk => ?_⟩
    · simp [Mem.read, findCell_dropCell_same i _ hr, hblank]
    · simp [Mem.read, findCell_dropCell_other _ hr hk]
  · rename_i hblank
    refine ⟨(wf_iff _).mpr ⟨rising_putCell i v _ hr, fun c hc => ?_⟩, rfl, ?_, fun k hk => ?_⟩
    · rcases mem_putCell hc with rfl | hc
      · exact hblank
      · exact hb c hc
    · simp [Mem.read, findCell_putCell_same]
    · simp [Mem.read, findCell_putCell_other v _ hk hr]

theorem write_wf (m : Mem α) (i : Nat) (v : α) (h : m.wf = true) : (m.write i v).wf = true := (write_spec m i v h).1
theorem write_blank (m : Mem α) (i : Nat) (v : α) : (m.write i v).blank = m.blank := by
  unfold Mem.write; split <;> rfl
theorem read_write_same (m : Mem α) (i : Nat) (v : α) (h : m.wf = true) : (m.write i v).read i = some v :=
  (write_spec m i v h).2.2.1
theorem read_write_other (m : Mem α) {i k : Nat} (v : α) (h : m.wf = true) (hk : k ≠ i) : (m.write i v).read k = m.read k :=
  (write_spec m i v h).2.2.2 k hk

/-- A listed cell after a write is the written one or was listed. -/
theorem mem_write {m : Mem α} {i : Nat} {v : α} {c : Nat × α} (h : c ∈ (m.write i v).cells) : c = (i, v) ∨ c ∈ m.cells := by
  unfold Mem.write at h
  split at h
  · exact .inr (mem_dropCell h)
  · exact mem_putCell h

theorem writeList_wf (m : Mem α) (i : Nat) (xs : List α) (h : m.wf = true) : (m.writeList i xs).wf = true := by
  induction xs generalizing m i with
  | nil => exact h
  | cons x xs ih => exact ih _ _ (write_wf m i x h)

theorem writeList_blank (m : Mem α) (i : Nat) (xs : List α) : (m.writeList i xs).blank = m.blank := by
  induction xs generalizing m i with
  | nil => rfl
  | cons x xs ih => rw [Mem.writeList, ih, write_blank]

/-- A cell below the written range keeps its contents. -/
theorem read_writeList_below (m : Mem α) {i k : Nat} (xs : List α) (h : m.wf = true) (hk : k < i) :
    (m.writeList i xs).read k = m.read k := by
  induction xs generalizing m i with
  | nil => rfl
  | cons x xs ih =>
    rw [Mem.writeList, ih _ (write_wf m i x h) (by omega), read_write_other m x h (by omega)]

/-- A cell at or above the end of the written range keeps its contents. -/
theorem read_writeList_above (m : Mem α) {i k : Nat} (xs : List α) (h : m.wf = true) (hk : i + xs.length ≤ k) :
    (m.writeList i xs).read k = m.read k := by
  induction xs generalizing m i with
  | nil => rfl
  | cons x xs ih =>
    simp only [List.length_cons] at hk
    rw [Mem.writeList, ih _ (write_wf m i x h) (by omega), read_write_other m x h (by omega)]

/-- The cells of the written range hold the written values. -/
theorem read_writeList_in (m : Mem α) (i : Nat) (xs : List α) (h : m.wf = true) (k : Nat) (hk : k < xs.length) :
    (m.writeList i xs).read (i + k) = some xs[k] := by
  induction xs generalizing m i k with
  | nil => simp at hk
  | cons x xs ih =>
    rw [Mem.writeList]
    cases k with
    | zero =>
      rw [Nat.add_zero, read_writeList_below _ xs (write_wf m i x h) (by omega)]
      exact read_write_same m i x h
    | succ k =>
      have := ih (m.write i x) (i + 1) (write_wf m i x h) k (by simpa using hk)
      rw [show i + (k + 1) = i + 1 + k by omega, this]
      rfl

/-- A listed cell after a range write lies in the range with one of its values, or was listed. -/
theorem mem_writeList {m : Mem α} {i : Nat} {xs : List α} {c : Nat × α} (h : c ∈ (m.writeList i xs).cells) :
    (i ≤ c.1 ∧ c.1 < i + xs.length ∧ c.2 ∈ xs) ∨ c ∈ m.cells := by
  induction xs generalizing m i with
  | nil => exact .inr h
  | cons x xs ih =>
    rcases ih h with ⟨h1, h2, h3⟩ | h
    · exact .inl ⟨by omega, by simp only [List.length_cons]; omega, List.mem_cons_of_mem _ h3⟩
    · rcases mem_write h with rfl | h
      · exact .inl ⟨le_refl _, by simp, by simp⟩
      · exact .inr h

omit [DecidableEq α] in
@[simp] theorem read_fill (v : α) (i : Nat) : (Mem.fill v).read i = some v := rfl
theorem fill_wf (v : α) : (Mem.fill v).wf = true := rfl
omit [DecidableEq α] in
@[simp] theorem read_unspecified (i : Nat) : (Mem.unspecified : Mem α).read i = none := rfl
theorem unspecified_wf : (Mem.unspecified : Mem α).wf = true := rfl

omit [DecidableEq α] in
theorem readCell_ok {v : View} {m : Mem α} {i : Nat} {x : α} : readCell v m i = .ok x ↔ m.read i = some x := by
  unfold readCell; split <;> simp_all

omit [DecidableEq α] in
theorem readCell_error {v : View} {m : Mem α} {i : Nat} {f : Fault} :
    readCell v m i = .error f ↔ m.read i = none ∧ f = .unwrittenCell v i := by
  unfold readCell
  cases m.read i <;> simp [eq_comm]

omit [DecidableEq α] in
/-- A range read faults at the first cell nothing has written (70_reset_and_hazards.md R312). -/
theorem readRange_unwritten {v : View} {m : Mem α} :
    ∀ (xs : List α) (i n : Nat), xs.length < n → (∀ k, (h : k < xs.length) → m.read (i + k) = some xs[k]) →
      m.read (i + xs.length) = none → readRange v m i n = .error (.unwrittenCell v (i + xs.length))
  | _, _, 0, h, _, _ => absurd h (by omega)
  | [], i, n + 1, _, _, h => by
    simp only [List.length_nil, Nat.add_zero] at h ⊢
    simp only [readRange, readCell_error.mpr ⟨h, rfl⟩]
  | x :: xs, i, n + 1, hl, hx, h => by
    have e : i + (x :: xs).length = i + 1 + xs.length := by simp only [List.length_cons]; omega
    rw [e] at h ⊢
    have h0 : readCell v m i = .ok x := readCell_ok.mpr (hx 0 (by simp))
    simp only [readRange, h0]
    rw [readRange_unwritten xs (i + 1) n (by simpa using hl) (fun k hk => by
      rw [show i + 1 + k = i + (k + 1) by omega]
      exact hx (k + 1) (by simpa using hk)) h]

omit [DecidableEq α] in
/-- Everything a range read can answer: the values of the cells, if each has one. -/
theorem readRange_ok {v : View} {m : Mem α} {i n : Nat} {xs : List α} :
    readRange v m i n = .ok xs ↔ xs.length = n ∧ ∀ k, (h : k < xs.length) → m.read (i + k) = some xs[k] := by
  induction n generalizing i xs with
  | zero =>
    simp only [readRange]
    constructor
    · rintro ⟨⟩; simp
    · rintro ⟨h, -⟩; rw [List.length_eq_zero_iff.mp h]
  | succ n ih =>
    simp only [readRange]
    constructor
    · intro h
      split at h
      · cases h
      · rename_i x hx
        split at h
        · cases h
        · rename_i ys hys
          cases h
          obtain ⟨hl, hy⟩ := ih.mp hys
          refine ⟨by simp [hl], fun k hk => ?_⟩
          cases k with
          | zero => simpa using readCell_ok.mp hx
          | succ k =>
            rw [show i + (k + 1) = i + 1 + k by omega]
            simpa using hy k (by simpa using hk)
    · rintro ⟨hl, hx⟩
      cases xs with
      | nil => simp at hl
      | cons x ys =>
        have h0 : readCell v m i = .ok x := readCell_ok.mpr (hx 0 (by simp))
        have h1 : readRange v m (i + 1) n = .ok ys := by
          refine ih.mpr ⟨by simpa using hl, fun k hk => ?_⟩
          have := hx (k + 1) (by simpa using hk)
          rw [show i + 1 + k = i + (k + 1) by omega]
          simpa using this
        simp [h0, h1]

end Sys2Proof.Machine
end

