-- ==== Sys2Proof/Laws/Entries.lean ====
section
/-! SUPPORT. BUILD_CHECK entry by entry. -/

namespace Sys2Proof.Machine

/-- ESYM and ECNT hold a table. -/
def HoldsEntries (m : Mems) (es : List (Sym × Word)) : Prop :=
  ∀ j, (h : j < es.length) → m.esym.read j = some es[j].1 ∧ m.ecnt.read j = some es[j].2

/-- Entry `j` has count 0 or repeats an earlier symbol (42_tree_build.md R181). -/
def EntryInvalid (es : List (Sym × Word)) (j : Nat) (h : j < es.length) : Prop :=
  es[j].2 = 0 ∨ ∃ i, ∃ hi : i < j, es[i].1 = es[j].1

/-- The running total up to and with entry `j` reaches 2^32 (42_tree_build.md R181). -/
def TotalExceeds (es : List (Sym × Word)) (j : Nat) : Prop := 2 ^ 32 ≤ totalCount (es.take (j + 1))

theorem totalCount_take_succ (es : List (Sym × Word)) (j : Nat) (h : j < es.length) :
    totalCount (es.take (j + 1)) = totalCount (es.take j) + es[j].2.toNat := by
  rw [List.take_succ_eq_append_getElem h]
  simp only [totalCount, List.map_append, List.sum_append, List.map_cons, List.map_nil, List.sum_cons, List.sum_nil, Nat.add_zero]

theorem entriesAre_holds {s : State} {es : List (Sym × Word)} (h : EntriesAre s es) :
    s.regs.nEntries.toNat = es.length ∧ HoldsEntries s.mems es := by
  obtain ⟨h1, h2, h3⟩ := h
  refine ⟨h1, fun j hj => ⟨?_, ?_⟩⟩
  · have := h2 j (by simpa using hj)
    simpa using this
  · have := h3 j (by simpa using hj)
    simpa using this

/-- `seen` holds ESYM[0 .. k-2], what `dupEntry` is given for entry `k`. -/
def SeenBefore (es : List (Sym × Word)) (k : Nat) (seen : List Sym) : Prop :=
  ∀ x, x ∈ seen ↔ ∃ i, ∃ h : i < es.length, i + 1 < k ∧ es[i].1 = x

/-- The duplicate test of entry `k` of a written table. -/
theorem dupEntry_spec {m : Mems} {es : List (Sym × Word)} (hm : HoldsEntries m es) {k : Nat} (hk : k < es.length)
    {seen : List Sym} (hs : SeenBefore es k seen) :
    ∃ dup seen', dupEntry m k seen = .ok (dup, seen') ∧ SeenBefore es (k + 1) seen' ∧
      (dup = true ↔ ∃ i, ∃ hi : i < k, es[i].1 = es[k].1) := by
  cases k with
  | zero =>
    refine ⟨false, seen, rfl, fun x => ?_, by simp⟩
    rw [hs]
    constructor <;> rintro ⟨i, hi, h, _⟩ <;> omega
  | succ j =>
    have hset : ∀ x, x ∈ es[j].1 :: seen ↔ ∃ i, ∃ h : i < es.length, i + 1 < j + 1 + 1 ∧ es[i].1 = x := by
      intro x
      rw [List.mem_cons, hs]
      constructor
      · rintro (rfl | ⟨i, hi, h, e⟩)
        · exact ⟨j, by omega, by omega, rfl⟩
        · exact ⟨i, hi, by omega, e⟩
      · rintro ⟨i, hi, h, e⟩
        by_cases hij : i = j
        · subst hij; exact .inl e.symm
        · exact .inr ⟨i, hi, by omega, e⟩
    refine ⟨(es[j].1 :: seen).contains es[j + 1].1, es[j].1 :: seen, ?_, hset, ?_⟩
    · simp only [dupEntry, readCell_ok.mpr (hm j (by omega)).1, readCell_ok.mpr (hm (j + 1) hk).1]
    · rw [List.contains_iff_mem, hset]
      constructor
      · rintro ⟨i, hi, h, e⟩; exact ⟨i, by omega, e⟩
      · rintro ⟨i, hi, e⟩; exact ⟨i, by omega, by omega, e⟩

/-- Everything BUILD_CHECK answers on a written table (42_tree_build.md R181): it passes if no entry is bad, and otherwise reports the first bad one. -/
theorem checkEntries_spec {m : Mems} {es : List (Sym × Word)} (hm : HoldsEntries m es) :
    ∀ (n k : Nat) (seen : List Sym) (total : Nat), k + n = es.length → SeenBefore es k seen → total = totalCount (es.take k) →
      ((∀ j, (hj : j < es.length) → k ≤ j → ¬ EntryInvalid es j hj ∧ ¬ TotalExceeds es j) →
        checkEntries m n k seen total = .ok none) ∧
      (∀ b, (hb : b < es.length) → k ≤ b →
        (∀ j, (hj : j < b) → k ≤ j → ¬ EntryInvalid es j (by omega) ∧ ¬ TotalExceeds es j) →
        (EntryInvalid es b hb → checkEntries m n k seen total = .ok (some (.entryInvalid b))) ∧
        (¬ EntryInvalid es b hb → TotalExceeds es b → checkEntries m n k seen total = .ok (some (.weightOverflow b)))) := by
  intro n
  induction n with
  | zero =>
    intro k seen total hk _ _
    exact ⟨fun _ => rfl, fun b hb hkb => absurd hb (by omega)⟩
  | succ n ih =>
    intro k seen total hk hs ht
    have hkl : k < es.length := by omega
    obtain ⟨dup, seen', hdup, hs', hiff⟩ := dupEntry_spec hm hkl hs
    have hpass : checkEntries m (n + 1) k seen total =
        if es[k].2 = 0 then .ok (some (.entryInvalid k)) else if dup then .ok (some (.entryInvalid k))
        else if 2 ^ 32 ≤ totalCount (es.take (k + 1)) then .ok (some (.weightOverflow k))
        else checkEntries m n (k + 1) seen' (totalCount (es.take (k + 1))) := by
      rw [totalCount_take_succ es k hkl, ← ht]
      simp only [checkEntries, readCell_ok.mpr (hm k hkl).2, hdup]
    have hinv : EntryInvalid es k hkl ↔ es[k].2 = 0 ∨ dup = true := by rw [hiff]; rfl
    obtain ⟨ih1, ih2⟩ := ih (k + 1) seen' _ (by omega) hs' rfl
    have hgo : ¬ EntryInvalid es k hkl ∧ ¬ TotalExceeds es k →
        checkEntries m (n + 1) k seen total = checkEntries m n (k + 1) seen' (totalCount (es.take (k + 1))) := by
      rintro ⟨h1, h2⟩
      rw [hinv, not_or] at h1
      unfold TotalExceeds at h2
      rw [hpass, if_neg h1.1, if_neg h1.2, if_neg h2]
    refine ⟨fun h => ?_, fun b hb hkb h => ?_⟩
    · rw [hgo (h k hkl (le_refl _))]
      exact ih1 fun j hj hkj => h j hj (by omega)
    · by_cases hbk : b = k
      · subst hbk
        refine ⟨fun hi => ?_, fun hi he => ?_⟩
        · rw [hpass]
          rcases hinv.mp hi with h0 | hd
          · rw [if_pos h0]
          · rw [if_pos hd]; split <;> rfl
        · rw [hinv, not_or] at hi
          unfold TotalExceeds at he
          rw [hpass, if_neg hi.1, if_neg hi.2, if_pos he]
      · rw [hgo (h k (by omega) (le_refl _))]
        exact ih2 b hb (by omega) fun j hj hkj => h j hj (by omega)

/-- No entry of a valid table is bad (42_tree_build.md R181). -/
theorem validEntries_entry {es : List (Sym × Word)} (hv : ValidEntries es) (j : Nat) (hj : j < es.length) :
    ¬ EntryInvalid es j hj ∧ ¬ TotalExceeds es j := by
  obtain ⟨h1, h2, h3⟩ := hv
  refine ⟨?_, ?_⟩
  · rintro (h | ⟨i, hi, e⟩)
    · exact h1 _ (List.getElem_mem hj) h
    · have := List.pairwise_iff_getElem.mp h2 i j (by simp; omega) (by simpa using hj) hi
      simp at this
      exact this e
  · unfold TotalExceeds
    have : totalCount (es.take (j + 1)) ≤ totalCount es := by
      conv_rhs => rw [← List.take_append_drop (j + 1) es]
      simp only [totalCount, List.map_append, List.sum_append]
      omega
    omega

/-- A valid table passes BUILD_CHECK (42_tree_build.md R181). -/
theorem checkEntries_valid {m : Mems} {es : List (Sym × Word)} (hm : HoldsEntries m es) (hv : ValidEntries es) :
    checkEntries m es.length 0 [] 0 = .ok none :=
  (checkEntries_spec hm es.length 0 [] 0 (by simp) (by simp [SeenBefore]) (by simp [totalCount])).1 fun j hj _ =>
    validEntries_entry hv j hj

/-- One pass of BUILD_CHECK over an entry that is not bad. -/
theorem checkEntries_pass {m : Mems} {es : List (Sym × Word)} (hm : HoldsEntries m es) {k : Nat} (hk : k < es.length)
    {seen : List Sym} (hs : SeenBefore es k seen) (hg : ¬ EntryInvalid es k hk ∧ ¬ TotalExceeds es k) (n : Nat) :
    ∃ seen', SeenBefore es (k + 1) seen' ∧
      checkEntries m (n + 1) k seen (totalCount (es.take k)) = checkEntries m n (k + 1) seen' (totalCount (es.take (k + 1))) := by
  obtain ⟨dup, seen', hdup, hs', hiff⟩ := dupEntry_spec hm hk hs
  obtain ⟨h1, h2⟩ := hg
  have hd : ¬ dup = true := fun h => h1 (.inr (hiff.mp h))
  have ht := totalCount_take_succ es k hk
  unfold TotalExceeds at h2
  refine ⟨seen', hs', ?_⟩
  simp only [checkEntries, readCell_ok.mpr (hm k hk).2, hdup, if_neg hd]
  rw [if_neg fun h => h1 (.inl h), if_neg (by omega), ht]

/-- BUILD_CHECK that meets an entry without a count after a valid part of the table (70_reset_and_hazards.md R312). -/
theorem checkEntries_unwritten {m : Mems} {es : List (Sym × Word)} (hm : HoldsEntries m es) (hv : ValidEntries es)
    (hn : m.ecnt.read es.length = none) :
    ∀ (n k : Nat) (seen : List Sym), k ≤ es.length → es.length < k + n → SeenBefore es k seen →
      checkEntries m n k seen (totalCount (es.take k)) = .error (.unwrittenCell .ecnt es.length)
  | 0, _, _, h, h', _ => absurd h (by omega)
  | n + 1, k, seen, h, h', hs => by
    by_cases hk : k < es.length
    · obtain ⟨seen', hs', e⟩ := checkEntries_pass hm hk hs (validEntries_entry hv k hk) n
      rw [e]
      exact checkEntries_unwritten hm hv hn n (k + 1) seen' hk (by omega) hs'
    · obtain rfl : k = es.length := by omega
      simp only [checkEntries, readCell_error.mpr ⟨hn, rfl⟩]

end Sys2Proof.Machine
end

