-- ==== Sys2Proof/Laws/Merge.lean ====
section
/-! SUPPORT. The greedy merge of BUILD: what selecting the least key does, and what each created node is. -/

namespace Sys2Proof.Machine

theorem keyLt_iff {a b : Key} : keyLt a b = true ↔ a.1 < b.1 ∨ (a.1 = b.1 ∧ a.2 < b.2) := by
  simp [keyLt]

theorem keyLt_trans {a b c : Key} (h1 : keyLt a b = true) (h2 : keyLt b c = true) : keyLt a c = true := by
  rw [keyLt_iff] at *
  rcases h1 with h1 | ⟨e1, h1⟩ <;> rcases h2 with h2 | ⟨e2, h2⟩
  · exact .inl (BitVec.lt_trans h1 h2)
  · exact .inl (e2 ▸ h1)
  · exact .inl (e1 ▸ h2)
  · exact .inr ⟨e1.trans e2, Nat.lt_trans h1 h2⟩

/-- Keys with distinct indices are comparable (42_tree_build.md R182: the order is total). -/
theorem keyLt_total {a b : Key} (hne : a.2 ≠ b.2) (h : ¬ keyLt a b = true) : keyLt b a = true := by
  rw [keyLt_iff] at *
  push Not at h
  by_cases he : a.1 = b.1
  · exact .inr ⟨he.symm, by have := h.2 he; omega⟩
  · have hle := h.1
    have hne' : a.1.toNat ≠ b.1.toNat := fun e => he (BitVec.eq_of_toNat_eq e)
    refine .inl (BitVec.lt_def.mpr ?_)
    rw [BitVec.lt_def] at hle
    omega

/-- Selecting the least key loses and adds nothing. -/
theorem takeLeast_perm : ∀ (a : Key) (l : List Key), (a :: l).Perm ((takeLeast a l).1 :: (takeLeast a l).2)
  | _, [] => .refl _
  | a, b :: rest => by
    unfold takeLeast
    split
    · exact ((takeLeast_perm b rest).cons a).trans (.swap _ _ _)
    · exact (List.Perm.swap b a rest).trans (((takeLeast_perm a rest).cons b).trans (.swap _ _ _))

theorem takeLeast_length (a : Key) (l : List Key) : (takeLeast a l).2.length = l.length := by
  have := (takeLeast_perm a l).length_eq
  simpa using this.symm

/-- The selected key is below every other, where indices are distinct (42_tree_build.md R182). -/
theorem takeLeast_least : ∀ (a : Key) (l : List Key), ((a :: l).map (·.2)).Nodup →
    ∀ c ∈ (takeLeast a l).2, keyLt (takeLeast a l).1 c = true
  | _, [], _ => by simp [takeLeast]
  | a, b :: rest, h => by
    simp only [List.map_cons, List.nodup_cons, List.mem_cons, not_or] at h
    obtain ⟨⟨hab, har⟩, hbr, hr⟩ := h
    unfold takeLeast
    split
    · rename_i hlt
      have hb : ((b :: rest).map (·.2)).Nodup := List.nodup_cons.mpr ⟨hbr, hr⟩
      have ih := takeLeast_least b rest hb
      have hmem : b = (takeLeast b rest).1 ∨ b ∈ (takeLeast b rest).2 := by
        simpa using (takeLeast_perm b rest).mem_iff.mp (List.mem_cons_self ..)
      intro c hc
      rcases List.mem_cons.mp hc with rfl | hc
      · rcases hmem with h | h
        · rw [← h]; exact hlt
        · exact keyLt_trans (ih b h) hlt
      · exact ih c hc
    · rename_i hlt
      have ha : ((a :: rest).map (·.2)).Nodup := List.nodup_cons.mpr ⟨har, hr⟩
      have ih := takeLeast_least a rest ha
      have hmem : a = (takeLeast a rest).1 ∨ a ∈ (takeLeast a rest).2 := by
        simpa using (takeLeast_perm a rest).mem_iff.mp (List.mem_cons_self ..)
      have hab' : keyLt a b = true := keyLt_total (Ne.symm hab) hlt
      intro c hc
      rcases List.mem_cons.mp hc with rfl | hc
      · rcases hmem with h | h
        · rw [← h]; exact hab'
        · exact keyLt_trans (ih a h) hab'
      · exact ih c hc

/-- One pass of the merge on a working set of `n + 2` members: the two least are taken, their merge is put in. -/
theorem mergeLoop_pass (n : Nat) (w : List Key) (next : Nat) (hl : w.length = n + 2) (hn : (w.map (·.2)).Nodup) :
    ∃ a b rest, w.Perm (a :: b :: rest) ∧ keyLt a b = true ∧ (∀ c ∈ rest, keyLt b c = true) ∧
      mergeLoop (n + 1) w next = mergedNode a b :: mergeLoop n ((a.1 + b.1, next) :: rest) (next + 1) := by
  match w, hl with
  | p :: ps, hl =>
    have hp1 := takeLeast_perm p ps
    have hl1 := takeLeast_length p ps
    have hm1 := takeLeast_least p ps hn
    obtain ⟨⟨a, w1⟩, ha⟩ : ∃ x, takeLeast p ps = x := ⟨_, rfl⟩
    rw [ha] at hp1 hl1 hm1
    simp only at hp1 hl1 hm1
    match w1, hl1 with
    | [], hl1 => simp at hl hl1; omega
    | q :: qs, hl1 =>
      have hn1 : ((q :: qs).map (·.2)).Nodup := (((hp1.map (·.2)).nodup_iff).mp hn).of_cons
      have hp2 := takeLeast_perm q qs
      have hm2 := takeLeast_least q qs hn1
      obtain ⟨⟨b, w2⟩, hb⟩ : ∃ x, takeLeast q qs = x := ⟨_, rfl⟩
      rw [hb] at hp2 hm2
      simp only at hp2 hm2
      refine ⟨a, b, w2, hp1.trans (hp2.cons a), hm1 b (hp2.mem_iff.mpr (by simp)), hm2, ?_⟩
      simp only [mergeLoop, ha, hb]

theorem mergeLoop_length : ∀ (n : Nat) (w : List Key) (next : Nat), w.length = n + 1 → (w.map (·.2)).Nodup →
    (∀ c ∈ w, c.2 < next) → (mergeLoop n w next).length = n
  | 0, _, _, _, _, _ => rfl
  | n + 1, w, next, hl, hn, hw => by
    obtain ⟨a, b, rest, hp, -, -, e⟩ := mergeLoop_pass n w next hl hn
    have hlen := hp.length_eq
    have hnr := ((hp.map (·.2)).nodup_iff).mp hn
    rw [e, List.length_cons, mergeLoop_length n _ _ (by simp at hlen ⊢; omega) ?_ ?_]
    · simp only [List.map_cons, List.nodup_cons, List.mem_cons, not_or] at hnr ⊢
      refine ⟨fun h => ?_, hnr.2.2⟩
      obtain ⟨c, hc, hce⟩ := List.mem_map.mp h
      have := hw c (hp.mem_iff.mpr (by simp [hc]))
      omega
    · intro c hc
      rcases List.mem_cons.mp hc with rfl | hc
      · simp
      · have := hw c (hp.mem_iff.mpr (by simp [hc]))
        omega

/-- The working set at the creation of the `i`-th internal node: the keys at the start and of the nodes created before, less the children of those (42_tree_build.md R180 step 2). -/
def InMergeSet (w : List Key) (next : Nat) (out : List Node) (i : Nat) (c : Key) : Prop :=
  (c ∈ w ∨ ∃ j, ∃ h : j < out.length, j < i ∧ c = (out[j].weight, next + j)) ∧
    ∀ j, (h : j < out.length) → j < i → out[j].left.toNat ≠ c.2 ∧ out[j].right.toNat ≠ c.2

theorem toNat_ofNat_ix {n : Nat} (h : n < 65536) : (BitVec.ofNat 16 n).toNat = n := by
  rw [BitVec.toNat_ofNat, Nat.mod_eq_of_lt h]

/-- The sum of the weights of a working set. -/
def totalWeight (w : List Key) : Nat := (w.map (·.1.toNat)).sum

/-- A merge keeps the sum of the weights, and no sum it makes wraps (42_tree_build.md R181, R184). -/
theorem totalWeight_pass {w rest : List Key} {a b : Key} (hp : w.Perm (a :: b :: rest)) (next : Nat)
    (h : totalWeight w < 2 ^ 32) :
    a.1.toNat + b.1.toNat < 2 ^ 32 ∧ totalWeight ((a.1 + b.1, next) :: rest) = totalWeight w := by
  have e : totalWeight w = totalWeight (a :: b :: rest) := (hp.map _).sum_eq
  rw [e] at h ⊢
  simp only [totalWeight, List.map_cons, List.sum_cons] at h ⊢
  have h2 : a.1.toNat + b.1.toNat < 2 ^ 32 := by omega
  exact ⟨h2, by rw [BitVec.toNat_add, Nat.mod_eq_of_lt h2]; omega⟩

/-- The last node created carries the sum of the weights (42_tree_build.md R184). -/
theorem mergeLoop_root : ∀ (n : Nat) (w : List Key) (next : Nat), w.length = n + 1 → (w.map (·.2)).Nodup →
    (∀ c ∈ w, c.2 < next) → totalWeight w < 2 ^ 32 →
    ∀ x, (mergeLoop n w next).getLast? = some x → x.weight.toNat = totalWeight w
  | 0, _, _, _, _, _, _, x, h => by simp [mergeLoop] at h
  | n + 1, w, next, hl, hn, hw, hs, x, h => by
    obtain ⟨a, b, rest, hp, -, -, e⟩ := mergeLoop_pass n w next hl hn
    have hlen := hp.length_eq
    have hnr := ((hp.map (·.2)).nodup_iff).mp hn
    have hwr : ∀ c ∈ rest, c.2 < next := fun c hc => hw c (hp.mem_iff.mpr (by simp [hc]))
    obtain ⟨hsum, hs'⟩ := totalWeight_pass hp next hs
    simp only [List.map_cons, List.nodup_cons, List.mem_cons, not_or] at hnr
    have hn' : (((a.1 + b.1, next) :: rest).map (·.2)).Nodup := by
      simp only [List.map_cons, List.nodup_cons]
      refine ⟨fun h => ?_, hnr.2.2⟩
      obtain ⟨c, hc, hce⟩ := List.mem_map.mp h
      have := hwr c hc
      omega
    have hw' : ∀ c ∈ (a.1 + b.1, next) :: rest, c.2 < next + 1 := by
      intro c hc
      rcases List.mem_cons.mp hc with rfl | hc
      · simp
      · have := hwr c hc; omega
    have hl' : ((a.1 + b.1, next) :: rest).length = n + 1 := by simp at hlen ⊢; omega
    rw [e, List.getLast?_cons] at h
    cases hg : (mergeLoop n ((a.1 + b.1, next) :: rest) (next + 1)).getLast? with
    | some y =>
      rw [hg] at h
      cases h
      rw [← hs']
      exact mergeLoop_root n _ _ hl' hn' hw' (by omega) _ hg
    | none =>
      rw [hg] at h
      cases h
      have hnil := List.getLast?_eq_none_iff.mp hg
      have hlm := mergeLoop_length n _ _ hl' hn' hw'
      rw [hnil] at hlm
      have hrest : rest = [] := List.length_eq_zero_iff.mp (by simp at hlm hl'; omega)
      rw [← hs', hrest]
      simp [totalWeight, mergedNode]

/-- Everything the greedy merge does (42_tree_build.md R180 to R183): the `i`-th node it creates is the merge of the two members of the working set with the least keys, the least one left. -/
theorem mergeLoop_spec : ∀ (n : Nat) (w : List Key) (next : Nat), w.length = n + 1 → (w.map (·.2)).Nodup →
    (∀ c ∈ w, c.2 < next) → next + n ≤ 65535 → totalWeight w < 2 ^ 32 → ∀ i, (hi : i < (mergeLoop n w next).length) →
      ∃ a b, (mergeLoop n w next)[i] = mergedNode a b ∧ keyLt a b = true ∧ a.1.toNat + b.1.toNat < 2 ^ 32 ∧
        InMergeSet w next (mergeLoop n w next) i a ∧ InMergeSet w next (mergeLoop n w next) i b ∧
        ∀ c, InMergeSet w next (mergeLoop n w next) i c → c.2 ≠ a.2 → c.2 ≠ b.2 → keyLt b c = true
  | 0, _, _, _, _, _, _, _, i, hi => absurd hi (Nat.not_lt_zero i)
  | n + 1, w, next, hl, hn, hw, hd, hs, i, hi => by
    obtain ⟨a, b, rest, hp, hab, hb, e⟩ := mergeLoop_pass n w next hl hn
    have hlen := hp.length_eq
    have hnr := ((hp.map (·.2)).nodup_iff).mp hn
    have hwa := hw a (hp.mem_iff.mpr (by simp))
    have hwb := hw b (hp.mem_iff.mpr (by simp))
    have hwr : ∀ c ∈ rest, c.2 < next := fun c hc => hw c (hp.mem_iff.mpr (by simp [hc]))
    obtain ⟨hsum, hs'⟩ := totalWeight_pass hp next hs
    simp only [List.map_cons, List.nodup_cons, List.mem_cons, not_or] at hnr
    simp only [e] at hi ⊢
    cases i with
    | zero =>
      refine ⟨a, b, rfl, hab, hsum, ⟨.inl (hp.mem_iff.mpr (by simp)), by simp⟩, ⟨.inl (hp.mem_iff.mpr (by simp)), by simp⟩, ?_⟩
      rintro c ⟨hc | ⟨j, _, hj, _⟩, -⟩ hca hcb
      · have := hp.mem_iff.mp hc
        simp only [List.mem_cons] at this
        rcases this with rfl | rfl | h
        · exact absurd rfl hca
        · exact absurd rfl hcb
        · exact hb c h
      · omega
    | succ i =>
      have hn' : (((a.1 + b.1, next) :: rest).map (·.2)).Nodup := by
        simp only [List.map_cons, List.nodup_cons]
        refine ⟨fun h => ?_, hnr.2.2⟩
        obtain ⟨c, hc, hce⟩ := List.mem_map.mp h
        have := hwr c hc
        omega
      have hw' : ∀ c ∈ (a.1 + b.1, next) :: rest, c.2 < next + 1 := by
        intro c hc
        rcases List.mem_cons.mp hc with rfl | hc
        · simp
        · have := hwr c hc; omega
      have hset : ∀ c, InMergeSet w next (mergedNode a b :: mergeLoop n ((a.1 + b.1, next) :: rest) (next + 1)) (i + 1) c ↔
          InMergeSet ((a.1 + b.1, next) :: rest) (next + 1) (mergeLoop n ((a.1 + b.1, next) :: rest) (next + 1)) i c := by
        intro c
        have hab0 : (mergedNode a b).left.toNat = a.2 ∧ (mergedNode a b).right.toNat = b.2 :=
          ⟨toNat_ofNat_ix (by omega), toNat_ofNat_ix (by omega)⟩
        unfold InMergeSet
        constructor
        · rintro ⟨hc, hch⟩
          obtain ⟨h1, h2⟩ := hch 0 (by simp) (by omega)
          simp only [List.getElem_cons_zero, hab0] at h1 h2
          refine ⟨?_, fun j hj hji => ?_⟩
          · rcases hc with hc | ⟨j, hj, hji, rfl⟩
            · have := hp.mem_iff.mp hc
              simp only [List.mem_cons] at this
              rcases this with rfl | rfl | h
              · exact absurd rfl h1
              · exact absurd rfl h2
              · exact .inl (by simp [h])
            · cases j with
              | zero => exact .inl (by simp [mergedNode])
              | succ j =>
                refine .inr ⟨j, by simpa using hj, by omega, ?_⟩
                simp only [List.getElem_cons_succ, Prod.mk.injEq, true_and]
                omega
          · have := hch (j + 1) (by simpa using hj) (by omega)
            simpa using this
        · rintro ⟨hc, hch⟩
          have hne : c.2 ≠ a.2 ∧ c.2 ≠ b.2 ∧
              (c ∈ w ∨ ∃ j, ∃ h : j < (mergedNode a b :: mergeLoop n ((a.1 + b.1, next) :: rest) (next + 1)).length,
                j < i + 1 ∧ c = ((mergedNode a b :: mergeLoop n ((a.1 + b.1, next) :: rest) (next + 1))[j].weight, next + j)) := by
            rcases hc with hc | ⟨j, hj, hji, rfl⟩
            · rcases List.mem_cons.mp hc with rfl | hc
              · exact ⟨by simp only; omega, by simp only; omega, .inr ⟨0, by simp, by omega, by simp [mergedNode]⟩⟩
              · refine ⟨fun h => hnr.1.2 (h ▸ List.mem_map_of_mem hc), fun h => hnr.2.1 (h ▸ List.mem_map_of_mem hc), .inl ?_⟩
                exact hp.mem_iff.mpr (by simp [hc])
            · refine ⟨by simp only; omega, by simp only; omega, .inr ⟨j + 1, by simpa using hj, by omega, ?_⟩⟩
              simp only [List.getElem_cons_succ, Prod.mk.injEq, true_and]
              omega
          refine ⟨hne.2.2, fun j hj hji => ?_⟩
          cases j with
          | zero =>
            simp only [List.getElem_cons_zero, hab0]
            exact ⟨Ne.symm hne.1, Ne.symm hne.2.1⟩
          | succ j =>
            have := hch j (by simpa using hj) (by omega)
            simpa using this
      obtain ⟨a', b', h1, h2, h3, h4, h5, h6⟩ :=
        mergeLoop_spec n _ _ (by simp at hlen ⊢; omega) hn' hw' (by omega) (by omega) i (by simpa using hi)
      refine ⟨a', b', by simpa using h1, h2, h3, (hset _).mpr h4, (hset _).mpr h5, fun c hc => h6 c ((hset c).mp hc)⟩

end Sys2Proof.Machine
end

