-- ==== Sys2Proof/Laws/State.lean ====
section
/-! SUPPORT. One lemma per field per named update of State, so that no proof unfolds one. -/

namespace Sys2Proof.Machine

/-! ### acceptCommand -/

@[simp] theorem acceptCommand_params (w : Word) (s : State) : (acceptCommand w s).params = s.params := rfl
@[simp] theorem acceptCommand_core (w : Word) (s : State) : (acceptCommand w s).core = .running w := rfl
@[simp] theorem acceptCommand_regs (w : Word) (s : State) :
    (acceptCommand w s).regs = { s.regs with done := false, err := false, errCode := 0, lastCmd := opField w, errInfo := 0 } := rfl
@[simp] theorem acceptCommand_mems (w : Word) (s : State) : (acceptCommand w s).mems = s.mems := rfl
@[simp] theorem acceptCommand_rdata (w : Word) (s : State) : (acceptCommand w s).rdata = s.rdata := rfl
@[simp] theorem acceptCommand_pending (w : Word) (s : State) : (acceptCommand w s).pending = s.pending := rfl
@[simp] theorem acceptCommand_draws (w : Word) (s : State) : (acceptCommand w s).draws = s.draws := rfl

/-! ### completeOk -/

@[simp] theorem completeOk_params (s : State) : (completeOk s).params = s.params := rfl
@[simp] theorem completeOk_core (s : State) : (completeOk s).core = .idle := rfl
@[simp] theorem completeOk_regs (s : State) :
    (completeOk s).regs = { s.regs with done := true, errCode := 0, errInfo := 0 } := rfl
@[simp] theorem completeOk_mems (s : State) : (completeOk s).mems = s.mems := rfl
@[simp] theorem completeOk_rdata (s : State) : (completeOk s).rdata = s.rdata := rfl
@[simp] theorem completeOk_pending (s : State) : (completeOk s).pending = s.pending := rfl
@[simp] theorem completeOk_draws (s : State) : (completeOk s).draws = s.draws := rfl

/-! ### completeError -/

@[simp] theorem completeError_params (e : CmdError) (s : State) : (completeError e s).params = s.params := rfl
@[simp] theorem completeError_core (e : CmdError) (s : State) : (completeError e s).core = .idle := rfl
@[simp] theorem completeError_regs (e : CmdError) (s : State) :
    (completeError e s).regs = { s.regs with done := true, err := true, errCode := e.code, errInfo := e.info } := rfl
@[simp] theorem completeError_mems (e : CmdError) (s : State) : (completeError e s).mems = s.mems := rfl
@[simp] theorem completeError_rdata (e : CmdError) (s : State) : (completeError e s).rdata = s.rdata := rfl
@[simp] theorem completeError_pending (e : CmdError) (s : State) : (completeError e s).pending = s.pending := rfl
@[simp] theorem completeError_draws (e : CmdError) (s : State) : (completeError e s).draws = s.draws := rfl

/-! ### rejectWrite, portError -/

@[simp] theorem rejectWrite_params (s : State) : (rejectWrite s).params = s.params := rfl
@[simp] theorem rejectWrite_core (s : State) : (rejectWrite s).core = s.core := rfl
@[simp] theorem rejectWrite_regs (s : State) : (rejectWrite s).regs = { s.regs with reject := true } := rfl
@[simp] theorem rejectWrite_mems (s : State) : (rejectWrite s).mems = s.mems := rfl
@[simp] theorem rejectWrite_rdata (s : State) : (rejectWrite s).rdata = s.rdata := rfl
@[simp] theorem rejectWrite_pending (s : State) : (rejectWrite s).pending = s.pending := rfl
@[simp] theorem rejectWrite_draws (s : State) : (rejectWrite s).draws = s.draws := rfl
@[simp] theorem portError_params (s : State) : (portError s).params = s.params := rfl
@[simp] theorem portError_core (s : State) : (portError s).core = s.core := rfl
@[simp] theorem portError_regs (s : State) : (portError s).regs = { s.regs with accErr := true } := rfl
@[simp] theorem portError_mems (s : State) : (portError s).mems = s.mems := rfl
@[simp] theorem portError_rdata (s : State) : (portError s).rdata = s.rdata := rfl
@[simp] theorem portError_pending (s : State) : (portError s).pending = s.pending := rfl
@[simp] theorem portError_draws (s : State) : (portError s).draws = s.draws := rfl

/-! ### drawRead -/

@[simp] theorem drawRead_params (s : State) : (drawRead s).params = s.params := rfl
@[simp] theorem drawRead_core (s : State) : (drawRead s).core = s.core := rfl
@[simp] theorem drawRead_regs (s : State) : (drawRead s).regs = s.regs := rfl
@[simp] theorem drawRead_mems (s : State) : (drawRead s).mems = s.mems := rfl
@[simp] theorem drawRead_rdata (s : State) : (drawRead s).rdata = Config.freeWord s.draws := rfl
@[simp] theorem drawRead_pending (s : State) : (drawRead s).pending = s.pending := rfl
@[simp] theorem drawRead_draws (s : State) : (drawRead s).draws = s.draws + 1 := rfl

/-! ### applyReset -/

@[simp] theorem applyReset_params (s : State) : (applyReset s).params = s.params := rfl
@[simp] theorem applyReset_core (s : State) : (applyReset s).core = .idle := rfl
@[simp] theorem applyReset_regs (s : State) : (applyReset s).regs = .reset := rfl
@[simp] theorem applyReset_mems (s : State) : (applyReset s).mems = .reset := rfl
@[simp] theorem applyReset_rdata (s : State) : (applyReset s).rdata = 0 := rfl
@[simp] theorem applyReset_pending (s : State) : (applyReset s).pending = s.pending := rfl
@[simp] theorem applyReset_draws (s : State) : (applyReset s).draws = s.draws := rfl

/-! ### autoIncrement -/

@[simp] theorem autoIncrement_params (s : State) : (autoIncrement s).params = s.params := by
  unfold autoIncrement; split <;> rfl
@[simp] theorem autoIncrement_core (s : State) : (autoIncrement s).core = s.core := by
  unfold autoIncrement; split <;> rfl
@[simp] theorem autoIncrement_mems (s : State) : (autoIncrement s).mems = s.mems := by
  unfold autoIncrement; split <;> rfl
@[simp] theorem autoIncrement_rdata (s : State) : (autoIncrement s).rdata = s.rdata := by
  unfold autoIncrement; split <;> rfl
@[simp] theorem autoIncrement_pending (s : State) : (autoIncrement s).pending = s.pending := by
  unfold autoIncrement; split <;> rfl
@[simp] theorem autoIncrement_draws (s : State) : (autoIncrement s).draws = s.draws := by
  unfold autoIncrement; split <;> rfl

/-- The state after the auto-increment (20_memory.md R80). -/
theorem autoIncrement_eq (s : State) :
    autoIncrement s =
      { s with regs := { s.regs with accIndex := if s.regs.autoInc then s.regs.accIndex + 1 else s.regs.accIndex } } := by
  unfold autoIncrement
  split <;> rfl

/-- The registers after the auto-increment (20_memory.md R80). -/
theorem autoIncrement_regs (s : State) :
    (autoIncrement s).regs = { s.regs with accIndex := if s.regs.autoInc then s.regs.accIndex + 1 else s.regs.accIndex } := by
  rw [autoIncrement_eq]

/-! ### busy and irq -/

@[simp] theorem busy_of_idle {s : State} (h : s.core = .idle) : s.busy = false := by simp [State.busy, h]
@[simp] theorem busy_of_running {s : State} {w : Word} (h : s.core = .running w) : s.busy = true := by simp [State.busy, h]

theorem busy_iff (s : State) : s.busy = true ↔ ∃ w, s.core = .running w := by
  unfold State.busy; split <;> simp_all

theorem not_busy_iff (s : State) : s.busy = false ↔ s.core = .idle := by
  unfold State.busy; split <;> simp_all

/-- REJECT and ACC_ERR never assert irq (60_exceptions.md R287). -/
@[simp] theorem irq_rejectWrite (s : State) : (rejectWrite s).irq = s.irq := rfl
@[simp] theorem irq_portError (s : State) : (portError s).irq = s.irq := rfl

end Sys2Proof.Machine
end

