-- ==== Sys2Proof/Laws/Commands.lean ====
section
/-! SUPPORT. One inversion lemma per shared operation and per command: everything it can answer, said once. -/

namespace Sys2Proof.Machine

/-- A completion that answers a next state ended by `finish` or by `raise`. -/
theorem complete_next {r : CmdEnd} {t : State} (h : complete r = .next t) :
    (∃ s, r = .finish s ∧ t = completeOk s) ∨ (∃ e s, r = .raise e s ∧ t = completeError e s) := by
  cases r with
  | finish s => exact .inl ⟨s, rfl, by simpa [complete] using h.symm⟩
  | raise e s => exact .inr ⟨e, s, rfl, by simpa [complete] using h.symm⟩
  | fault f => simp [complete] at h

theorem onRaise_finish {f : State → State} {r : CmdEnd} {s : State} : onRaise f r = .finish s ↔ r = .finish s := by
  cases r <;> simp [onRaise]

theorem onRaise_raise {f : State → State} {r : CmdEnd} {e : CmdError} {s : State} :
    onRaise f r = .raise e s ↔ ∃ s', r = .raise e s' ∧ s = f s' := by
  cases r with
  | finish => simp [onRaise]
  | fault => simp [onRaise]
  | raise e' s' =>
    simp only [onRaise, CmdEnd.raise.injEq]
    constructor
    · rintro ⟨rfl, rfl⟩; exact ⟨s', ⟨rfl, rfl⟩, rfl⟩
    · rintro ⟨_, ⟨rfl, rfl⟩, rfl⟩; exact ⟨rfl, rfl⟩

/-- The codes reported are 1 to 10 (60_exceptions.md R281). -/
theorem code_range (e : CmdError) : 1 ≤ e.code.toNat ∧ e.code.toNat ≤ 10 := by
  cases e <;> simp [CmdError.code]

/-- What FREQ can answer. -/
theorem freqCmd_cases (s : State) :
    (s.params.symDepth < s.regs.symLen ∧ freqCmd s = .raise (.badLength s.regs.symLen) s) ∨
    (¬ s.params.symDepth < s.regs.symLen ∧
      ((∃ f, readRange .sym s.mems.sym 0 s.regs.symLen.toNat = .error f ∧ freqCmd s = .fault f) ∨
        (∃ xs, readRange .sym s.mems.sym 0 s.regs.symLen.toNat = .ok xs ∧ freqCmd s = .finish (freqBody xs s)))) := by
  unfold freqCmd
  split
  · exact .inl ⟨‹_›, rfl⟩
  · refine .inr ⟨‹_›, ?_⟩
    split
    · exact .inl ⟨_, ‹_›, rfl⟩
    · exact .inr ⟨_, ‹_›, rfl⟩

/-- What BUILD_BODY can answer. -/
theorem buildBody_ok {n : Nat} {s t : State} (h : buildBody n s = .ok t) :
    ∃ syms counts, readRange .esym s.mems.esym 0 n = .ok syms ∧ readRange .ecnt s.mems.ecnt 0 n = .ok counts ∧
      t = buildTree (syms.zip counts) s := by
  unfold buildBody at h
  split at h
  · cases h
  · split at h
    · cases h
    · exact ⟨_, _, ‹_›, ‹_›, by cases h; rfl⟩

/-- What BUILD can answer with a next state: a length error, the first bad entry, or the tree. -/
theorem buildCmd_cases (s : State) :
    (∃ f, buildCmd s = .fault f) ∨
    (nMax s.params < s.regs.nEntries.toNat ∧ buildCmd s = .raise (.badLength s.regs.nEntries) s) ∨
    (s.regs.nEntries.toNat ≤ nMax s.params ∧
      ((∃ e, checkEntries s.mems s.regs.nEntries.toNat 0 [] 0 = .ok (some e) ∧ buildCmd s = .raise e s) ∨
        (∃ t, checkEntries s.mems s.regs.nEntries.toNat 0 [] 0 = .ok none ∧
          buildBody s.regs.nEntries.toNat s = .ok t ∧ buildCmd s = .finish t))) := by
  unfold buildCmd
  split
  · exact .inr (.inl ⟨‹_›, rfl⟩)
  · rename_i hn
    split
    · exact .inl ⟨_, rfl⟩
    · rename_i e he
      exact .inr (.inr ⟨by omega, .inl ⟨e, he, rfl⟩⟩)
    · rename_i he
      split
      · exact .inl ⟨_, rfl⟩
      · rename_i t ht
        exact .inr (.inr ⟨by omega, .inr ⟨t, he, ht, rfl⟩⟩)

/-- What GENTAB_BODY can answer. -/
theorem gentabBody_ok {s t : State} (h : gentabBody s = .ok t) :
    ∃ codes, treeCodes s.params s.mems s.regs.root = .ok codes ∧ t = { s with mems := writeTable s.params s.mems codes } := by
  unfold gentabBody at h
  split at h
  · cases h
  · exact ⟨_, ‹_›, by cases h; rfl⟩

/-- What GENTAB can answer. -/
theorem gentabCmd_cases (s : State) :
    (∃ f, gentabCmd s = .fault f) ∨
    (∃ p, wfTree s.params s.mems s.regs.root = .ok (some p) ∧ gentabCmd s = .raise (.treeInvalid p) s) ∨
    (∃ t, wfTree s.params s.mems s.regs.root = .ok none ∧ gentabBody s = .ok t ∧ gentabCmd s = .finish t) := by
  unfold gentabCmd
  split
  · exact .inl ⟨_, rfl⟩
  · exact .inr (.inl ⟨_, ‹_›, rfl⟩)
  · split
    · exact .inl ⟨_, rfl⟩
    · exact .inr (.inr ⟨_, ‹_›, ‹_›, rfl⟩)

/-- What the emission of ENCODE can answer. -/
theorem emitBits_cases (xs : List Sym) (s : State) :
    (∃ f, emitBits xs s = .fault f) ∨
    (∃ ts, emitLoop s.params s.mems xs 0 0 = .ok (ts, none) ∧
      emitBits xs s = .finish { s with
        mems := { s.mems with bit := s.mems.bit.writeList 0 ts }
        regs := { s.regs with bitLen := BitVec.ofNat 32 ts.length } }) ∨
    (∃ ts e, emitLoop s.params s.mems xs 0 0 = .ok (ts, some e) ∧
      emitBits xs s = .raise e { s with mems := { s.mems with bit := s.mems.bit.writeList 0 ts } }) := by
  unfold emitBits
  split
  · exact .inl ⟨_, rfl⟩
  · rename_i ts e h
    cases e with
    | none => exact .inr (.inl ⟨ts, h, rfl⟩)
    | some e => exact .inr (.inr ⟨ts, e, h, rfl⟩)

/-- What ENCODE's pseudocode can answer: a fault, a length error, or the emission on the state FREQ_BODY, BUILD_BODY and GENTAB_BODY leave. -/
theorem encodeSteps_cases (s : State) :
    (∃ f, encodeSteps s = .fault f) ∨
    (s.params.symDepth < s.regs.symLen ∧ encodeSteps s = .raise (.badLength s.regs.symLen) s) ∨
    (¬ s.params.symDepth < s.regs.symLen ∧ ∃ xs s2 s3,
      readRange .sym s.mems.sym 0 s.regs.symLen.toNat = .ok xs ∧
      buildBody (freqBody xs s).regs.nEntries.toNat (freqBody xs s) = .ok s2 ∧ gentabBody s2 = .ok s3 ∧
      encodeSteps s = emitBits xs s3) := by
  unfold encodeSteps
  split
  · exact .inr (.inl ⟨‹_›, rfl⟩)
  · rename_i hl
    split
    · exact .inl ⟨_, rfl⟩
    · rename_i xs hx
      simp only
      split
      · exact .inl ⟨_, rfl⟩
      · rename_i s2 h2
        split
        · exact .inl ⟨_, rfl⟩
        · rename_i s3 h3
          exact .inr (.inr ⟨hl, xs, s2, s3, hx, h2, h3, rfl⟩)

/-- What the walk of DECODE can answer. -/
theorem decodeWalk_cases (s : State) :
    (∃ f, decodeWalk s = .fault f) ∨
    (∃ xs, decodeLoop s.params s.mems s.regs.root s.regs.bitLen.toNat 0 s.regs.root 0 = .ok (xs, none) ∧
      decodeWalk s = .finish { s with
        mems := { s.mems with out := s.mems.out.writeList 0 xs }
        regs := { s.regs with outLen := BitVec.ofNat 32 xs.length } }) ∨
    (∃ xs e, decodeLoop s.params s.mems s.regs.root s.regs.bitLen.toNat 0 s.regs.root 0 = .ok (xs, some e) ∧
      decodeWalk s = .raise e { s with mems := { s.mems with out := s.mems.out.writeList 0 xs } }) := by
  unfold decodeWalk
  split
  · exact .inl ⟨_, rfl⟩
  · rename_i xs e h
    cases e with
    | none => exact .inr (.inl ⟨xs, h, rfl⟩)
    | some e => exact .inr (.inr ⟨xs, e, h, rfl⟩)

/-- What DECODE's pseudocode can answer. -/
theorem decodeSteps_cases (s : State) :
    (∃ f, decodeSteps s = .fault f) ∨
    (s.regs.root = NIL ∧ decodeSteps s = .finish { s with regs := { s.regs with outLen := 0 } }) ∨
    (s.regs.root ≠ NIL ∧ s.params.bitDepth < s.regs.bitLen ∧ decodeSteps s = .raise (.badLength s.regs.bitLen) s) ∨
    (s.regs.root ≠ NIL ∧ ¬ s.params.bitDepth < s.regs.bitLen ∧
      ((∃ p, wfTree s.params s.mems s.regs.root = .ok (some p) ∧ decodeSteps s = .raise (.treeInvalid p) s) ∨
        (wfTree s.params s.mems s.regs.root = .ok none ∧ decodeSteps s = decodeWalk s))) := by
  unfold decodeSteps
  split
  · exact .inr (.inl ⟨‹_›, rfl⟩)
  · rename_i hr
    split
    · exact .inr (.inr (.inl ⟨hr, ‹_›, rfl⟩))
    · rename_i hb
      split
      · exact .inl ⟨_, rfl⟩
      · exact .inr (.inr (.inr ⟨hr, hb, .inl ⟨_, ‹_›, rfl⟩⟩))
      · exact .inr (.inr (.inr ⟨hr, hb, .inr ⟨‹_›, rfl⟩⟩))

/-- What RD can answer: the value in `rdata`, a draw, or the access port's read; nothing else of HUFF changes but ACC_INDEX and ACC_ERR (20_memory.md R74). -/
theorem execRd_cases (a : BitVec 8) (s : State) :
    (regAt a = none ∧ execRd a s = .next { s with rdata := 0 }) ∨
    (∃ r, regAt a = some r ∧
      ((s.busy = true ∧ unspecifiedWhileRunning r = true ∧ execRd a s = .next (drawRead s)) ∨
        (s.busy = false ∧ r = .accData ∧ execRd a s = portRead s) ∨
        (r ≠ .accData ∧ (s.busy = true → unspecifiedWhileRunning r = false) ∧
          execRd a s = .next { s with rdata := readReg s r }))) := by
  unfold execRd
  split
  · exact .inl ⟨‹_›, rfl⟩
  · rename_i r hr
    refine .inr ⟨r, hr, ?_⟩
    split
    · rename_i h
      obtain ⟨hb, hu⟩ := Bool.and_eq_true_iff.mp h
      exact .inl ⟨hb, hu, rfl⟩
    · rename_i h
      split
      · rename_i hp
        subst hp
        refine .inr (.inl ⟨?_, rfl, rfl⟩)
        cases hb : s.busy <;> simp_all [unspecifiedWhileRunning]
      · refine .inr (.inr ⟨‹_›, fun hb => ?_, rfl⟩)
        simpa [hb] using h

/-- What WR can answer. -/
theorem execWr_cases (a : BitVec 8) (d : Word) (s : State) :
    (regAt a = none ∧ execWr a d s = .next s) ∨
    (∃ r, regAt a = some r ∧
      ((s.busy = true ∧ droppedWhileRunning r = true ∧ execWr a d s = .next (rejectWrite s)) ∨
        ((s.busy = true → droppedWhileRunning r = false) ∧ execWr a d s = .next (writeReg r d s)))) := by
  unfold execWr
  split
  · exact .inl ⟨‹_›, rfl⟩
  · rename_i r hr
    refine .inr ⟨r, hr, ?_⟩
    cases hb : s.busy <;> cases hd : droppedWhileRunning r <;> simp

/-- What the access port's read can answer. -/
theorem portRead_cases (s : State) :
    (portTarget s = none ∧ portRead s = .next (autoIncrement { portError s with rdata := 0 })) ∨
    (∃ v i, portTarget s = some (v, i) ∧
      ((∃ f, viewRead s.mems v i = .error f ∧ portRead s = .fault f) ∨
        (∃ d, viewRead s.mems v i = .ok d ∧ portRead s = .next (autoIncrement { s with rdata := d })))) := by
  unfold portRead
  split
  · exact .inl ⟨‹_›, rfl⟩
  · rename_i v i h
    refine .inr ⟨v, i, h, ?_⟩
    split
    · exact .inl ⟨_, ‹_›, rfl⟩
    · exact .inr ⟨_, ‹_›, rfl⟩

/-- What the access port's write can do. -/
theorem portWrite_cases (d : Word) (s : State) :
    ((portTarget s = none ∨ ∃ v i, portTarget s = some (v, i) ∧ hostWritable v = false) ∧
      portWrite d s = autoIncrement (portError s)) ∨
    (∃ v i, portTarget s = some (v, i) ∧ hostWritable v = true ∧
      portWrite d s = autoIncrement { s with mems := viewWrite s.params s.mems v i d }) := by
  unfold portWrite
  split
  · exact .inl ⟨.inl ‹_›, rfl⟩
  · rename_i v i h
    split
    · exact .inr ⟨v, i, h, ‹_›, rfl⟩
    · rename_i hw; exact .inl ⟨.inr ⟨v, i, h, by simpa using hw⟩, rfl⟩

/-- The selected cell is in range (20_memory.md R77). -/
theorem portTarget_some {s : State} {v : View} {i : Nat} :
    portTarget s = some (v, i) ↔
      viewAt s.regs.accMem = some v ∧ i = s.regs.accIndex.toNat ∧ i < viewDepth s.params v := by
  unfold portTarget
  split
  · simp_all
  · rename_i w hw
    by_cases hlt : s.regs.accIndex.toNat < viewDepth s.params w
    · rw [if_pos hlt]
      constructor
      · intro h; cases h; exact ⟨hw, rfl, hlt⟩
      · rintro ⟨h1, rfl, -⟩; rw [hw] at h1; cases h1; rfl
    · rw [if_neg hlt]
      constructor
      · intro h; cases h
      · rintro ⟨h1, rfl, h3⟩; rw [hw] at h1; cases h1; exact absurd h3 hlt

end Sys2Proof.Machine
end

