-- ==== Sys2Proof/Laws/Words.lean ====
section
/-! SUPPORT. Bit-field facts of the words HUFF packs and unpacks. -/

namespace Sys2Proof.Machine

theorem pairWord_low (hi lo : BitVec 16) : (pairWord hi lo).extractLsb' 0 16 = lo := by
  apply BitVec.eq_of_getLsbD_eq
  intro i h
  rw [BitVec.getLsbD_extractLsb']
  show (decide (i < 16) && BitVec.getLsbD (w := 16 + 16) (hi ++ lo) (0 + i)) = _
  rw [BitVec.getLsbD_append]
  simp [h]

theorem pairWord_high (hi lo : BitVec 16) : (pairWord hi lo).extractLsb' 16 16 = hi := by
  apply BitVec.eq_of_getLsbD_eq
  intro i h
  rw [BitVec.getLsbD_extractLsb']
  show (decide (i < 16) && BitVec.getLsbD (w := 16 + 16) (hi ++ lo) (16 + i)) = _
  rw [BitVec.getLsbD_append]
  simp [h]

theorem pairWord_extract (d : Word) : pairWord (d.extractLsb' 16 16) (d.extractLsb' 0 16) = d := by
  apply BitVec.eq_of_getLsbD_eq
  intro i h
  show BitVec.getLsbD (w := 16 + 16) (d.extractLsb' 16 16 ++ d.extractLsb' 0 16) i = _
  rw [BitVec.getLsbD_append]
  split
  · simp_all
  · rw [BitVec.getLsbD_extractLsb']
    simp only [show i - 16 < 16 by omega, decide_true, Bool.true_and]
    congr 1
    omega

/-- RSV and OP are the two parts of a CMD word (30_encoding.md R100). -/
theorem rsvField_append (a : BitVec 28) (b : BitVec 4) : rsvField (a ++ b) = a := by
  apply BitVec.eq_of_getLsbD_eq
  intro i h
  rw [rsvField, BitVec.getLsbD_extractLsb']
  show (decide (i < 28) && BitVec.getLsbD (w := 28 + 4) (a ++ b) (4 + i)) = _
  rw [BitVec.getLsbD_append]
  simp [h]

theorem opField_append (a : BitVec 28) (b : BitVec 4) : opField (a ++ b) = b := by
  apply BitVec.eq_of_getLsbD_eq
  intro i h
  rw [opField, BitVec.getLsbD_extractLsb']
  show (decide (i < 4) && BitVec.getLsbD (w := 28 + 4) (a ++ b) (0 + i)) = _
  rw [BitVec.getLsbD_append]
  simp [h]

theorem rsv_append_op (w : Word) : (rsvField w ++ opField w : Word) = w := by
  apply BitVec.eq_of_getLsbD_eq
  intro i h
  show BitVec.getLsbD (w := 28 + 4) (rsvField w ++ opField w) i = _
  rw [BitVec.getLsbD_append]
  split
  · simp_all [opField]
  · rw [rsvField, BitVec.getLsbD_extractLsb']
    simp only [show i - 4 < 28 by omega, decide_true, Bool.true_and]
    congr 1
    omega

/-- The symbol a data word stores is its low SYM_W bits (20_memory.md R78). -/
theorem symOf_toNat (p : Params) (d : Word) : (symOf p d).toNat = d.toNat % 2 ^ p.symW.toNat := by
  simp only [symOf, BitVec.toNat_ofNat]
  apply Nat.mod_eq_of_lt
  have h1 : d.toNat % 2 ^ p.symW.toNat < 2 ^ p.symW.toNat := Nat.mod_lt _ (by positivity)
  have h2 : 2 ^ p.symW.toNat ≤ 2 ^ 15 := Nat.pow_le_pow_right (by norm_num) (by have := p.symW.isLt; omega)
  omega

theorem symOf_lt (p : Params) (d : Word) : (symOf p d).toNat < nsym p := by
  rw [symOf_toNat]
  exact Nat.mod_lt _ (by positivity)

theorem nsym_le (p : Params) : nsym p ≤ 2 ^ 15 := by
  unfold nsym
  exact Nat.pow_le_pow_right (by norm_num) (by have := p.symW.isLt; omega)

theorem nsym_pos (p : Params) : 0 < nsym p := by simp [nsym]

/-- Every real node index is below NIL (00_scope.md R7). -/
theorem nodeDepth_le (p : Params) : nodeDepth p ≤ 65535 := by
  have := nsym_le p
  simp only [nodeDepth, nMax]
  omega

end Sys2Proof.Machine
end

