-- ==== Sys2Proof/Laws/Tree.lean ====
section
/-! SUPPORT. Node memory read as a tree: the tree check and the two traversals, each said once over an inductive tree. -/

namespace Sys2Proof.Machine

/-- A strict binary tree over node indices, leaves labelled with symbols. -/
inductive BTree where
  | leaf (p : NodeIx) (x : Sym)
  | node (p : NodeIx) (l r : BTree)

/-- The index of the root. -/
def BTree.top : BTree → NodeIx
  | .leaf p _ => p
  | .node p _ _ => p

@[simp] theorem BTree.top_leaf (p : NodeIx) (x : Sym) : (BTree.leaf p x).top = p := rfl
@[simp] theorem BTree.top_node (p : NodeIx) (l r : BTree) : (BTree.node p l r).top = p := rfl

/-- The node indices, in preorder. -/
def BTree.nodes : BTree → List NodeIx
  | .leaf p _ => [p]
  | .node p l r => p :: (l.nodes ++ r.nodes)

/-- The leaves' symbols, left to right. -/
def BTree.syms : BTree → List Sym
  | .leaf _ x => [x]
  | .node _ l r => l.syms ++ r.syms

/-- The leaves with their paths, left to right. -/
def BTree.codes : BTree → List (List CodeBit × Sym)
  | .leaf _ x => [([], x)]
  | .node _ l r => l.codes.map (fun e => (0 :: e.1, e.2)) ++ r.codes.map (fun e => (1 :: e.1, e.2))

/-- The subtree a path leads to. -/
def BTree.sub : BTree → List CodeBit → Option BTree
  | t, [] => some t
  | .leaf _ _, _ :: _ => none
  | .node _ l r, b :: bs => (if b = 0 then l else r).sub bs

/-- Node memory holds the tree, inside NODE. -/
def BTree.Matches (m : Mems) (depth : Nat) : BTree → Prop
  | .leaf p x => p.toNat < depth ∧ m.nodeLr.read p.toNat = some ⟨NIL, NIL⟩ ∧ m.nodeSym.read p.toNat = some ⟨x, true⟩
  | .node p l r =>
    p.toNat < depth ∧ m.nodeLr.read p.toNat = some ⟨l.top, r.top⟩ ∧ l.top ≠ NIL ∧ r.top ≠ NIL ∧
      (∃ x, m.nodeSym.read p.toNat = some ⟨x, false⟩) ∧ l.Matches m depth ∧ r.Matches m depth

theorem BTree.nodes_pos (t : BTree) : 0 < t.nodes.length := by cases t <;> simp [BTree.nodes]

theorem BTree.top_mem_nodes (t : BTree) : t.top ∈ t.nodes := by cases t <;> simp [BTree.nodes, BTree.top]

theorem BTree.nodes_inside {m : Mems} {d : Nat} : (t : BTree) → t.Matches m d → ∀ q ∈ t.nodes, q.toNat < d
  | .leaf p x, h, q, hq => by
    simp only [BTree.nodes, List.mem_singleton] at hq
    exact hq ▸ h.1
  | .node p l r, h, q, hq => by
    obtain ⟨hp, -, -, -, -, hl, hr⟩ := h
    simp only [BTree.nodes, List.mem_cons, List.mem_append] at hq
    rcases hq with rfl | hq | hq
    · exact hp
    · exact l.nodes_inside hl q hq
    · exact r.nodes_inside hr q hq

theorem BTree.top_ne_nil {p : Params} {m : Mems} {t : BTree} (h : t.Matches m (nodeDepth p)) : t.top ≠ NIL := by
  intro e
  have h1 := t.nodes_inside h t.top t.top_mem_nodes
  have h2 := nodeDepth_le p
  rw [e] at h1
  simp at h1
  omega

/-- A list of distinct indices inside NODE is no longer than NODE. -/
theorem length_le_of_nodup {l : List NodeIx} {d : Nat} (hn : l.Nodup) (hd : ∀ q ∈ l, q.toNat < d) : l.length ≤ d := by
  have h1 : (l.map BitVec.toNat).Nodup := hn.map (fun a b h => BitVec.eq_of_toNat_eq h)
  have h2 : (l.map BitVec.toNat) ⊆ List.range d := by
    intro q hq
    obtain ⟨a, ha, rfl⟩ := List.mem_map.mp hq
    exact List.mem_range.mpr (hd a ha)
  simpa using (h1.subperm h2).length_le

/-- One pass of the tree check that goes on. -/
theorem wfLoop_ok_pass {m : Mems} {d fuel : Nat} {vis : List NodeIx} {ss : List Sym} {p : NodeIx} {stack : List NodeIx}
    (h : wfLoop m d fuel vis ss (p :: stack) = .ok none) :
    ∃ n lr ns, fuel = n + 1 ∧ p.toNat < d ∧ p ∉ vis ∧ m.nodeLr.read p.toNat = some lr ∧ m.nodeSym.read p.toNat = some ns ∧
      ((ns.symv = true ∧ lr = ⟨NIL, NIL⟩ ∧ ns.sym ∉ ss ∧ wfLoop m d n (p :: vis) (ns.sym :: ss) stack = .ok none) ∨
        (ns.symv = false ∧ lr.left ≠ NIL ∧ lr.right ≠ NIL ∧
          wfLoop m d n (p :: vis) ss (lr.left :: lr.right :: stack) = .ok none)) := by
  cases fuel with
  | zero => simp [wfLoop] at h
  | succ n =>
    unfold wfLoop at h
    split at h
    · simp at h
    · rename_i hd
      split at h
      · simp at h
      · rename_i hv
        split at h
        · simp at h
        · rename_i lr hlr
          split at h
          · simp at h
          · rename_i ns hns
            refine ⟨n, lr, ns, rfl, by omega, by simpa using hv, readCell_ok.mp hlr, readCell_ok.mp hns, ?_⟩
            obtain ⟨a, b⟩ := lr
            obtain ⟨x, v⟩ := ns
            split at h
            · simp at h
            · rename_i h1
              split at h
              · simp at h
              · rename_i h2
                simp only at h h1 h2 ⊢
                cases v with
                | true =>
                  split at h
                  · split at h
                    · simp at h
                    · rename_i hs
                      refine .inl ⟨rfl, ?_, by simpa using hs, h⟩
                      simp_all
                  · simp_all
                | false =>
                  split at h
                  · simp_all
                  · refine .inr ⟨rfl, ?_, ?_, h⟩ <;> simp_all

/-- The tree check, said over trees (43_code_table.md R201, R202): a check that passes with `p` on top of the stack has met a tree at `p`, all new, and goes on with the rest. -/
theorem wfLoop_tree {m : Mems} {d : Nat} :
    ∀ (fuel : Nat) (vis : List NodeIx) (ss : List Sym) (p : NodeIx) (stack : List NodeIx),
      wfLoop m d fuel vis ss (p :: stack) = .ok none →
      ∃ t : BTree, t.top = p ∧ t.Matches m d ∧ t.nodes.length ≤ fuel ∧ t.nodes.Nodup ∧ (∀ q ∈ t.nodes, q ∉ vis) ∧
        t.syms.Nodup ∧ (∀ x ∈ t.syms, x ∉ ss) ∧
        ∃ vis' ss', (∀ q, q ∈ vis' ↔ q ∈ t.nodes ∨ q ∈ vis) ∧ (∀ x, x ∈ ss' ↔ x ∈ t.syms ∨ x ∈ ss) ∧
          wfLoop m d (fuel - t.nodes.length) vis' ss' stack = .ok none := by
  intro fuel
  induction fuel using Nat.strong_induction_on with
  | _ fuel ih =>
    intro vis ss p stack h
    obtain ⟨n, lr, ns, rfl, hp, hv, hlr, hns, hcase⟩ := wfLoop_ok_pass h
    obtain ⟨a, b⟩ := lr
    obtain ⟨x, v⟩ := ns
    rcases hcase with ⟨hsv, heq, hs, hrest⟩ | ⟨hsv, ha, hb, hrest⟩
    · simp only at hsv
      subst hsv
      cases heq
      refine ⟨.leaf p x, rfl, ⟨hp, hlr, hns⟩, by simp [BTree.nodes], by simp [BTree.nodes], by simpa [BTree.nodes] using hv,
        by simp [BTree.syms], by simpa [BTree.syms] using hs, p :: vis, x :: ss, by simp [BTree.nodes], by simp [BTree.syms], ?_⟩
      simpa [BTree.nodes] using hrest
    · simp only at hsv ha hb
      subst hsv
      obtain ⟨l, hl1, hl2, hl3, hl4, hl5, hl6, hl7, vis1, ss1, hv1, hs1, hrest1⟩ := ih n (by omega) _ _ _ _ hrest
      obtain ⟨r, hr1, hr2, hr3, hr4, hr5, hr6, hr7, vis2, ss2, hv2, hs2, hrest2⟩ :=
        ih (n - l.nodes.length) (by omega) _ _ _ _ hrest1
      refine ⟨.node p l r, rfl, ⟨hp, by rw [hl1, hr1]; exact hlr, by rw [hl1]; exact ha, by rw [hr1]; exact hb, ⟨x, hns⟩, hl2, hr2⟩, ?_, ?_, ?_, ?_, ?_,
        vis2, ss2, ?_, ?_, ?_⟩
      · simp only [BTree.nodes, List.length_cons, List.length_append]; omega
      · simp only [BTree.nodes, List.nodup_cons, List.mem_append, not_or]
        refine ⟨⟨fun hq => hl5 p hq (by simp), fun hq => hr5 p hq ((hv1 p).mpr (.inr (by simp)))⟩, ?_⟩
        refine List.nodup_append.mpr ⟨hl4, hr4, fun q hq q' hq' e => ?_⟩
        subst e
        exact hr5 q hq' ((hv1 q).mpr (.inl hq))
      · intro q hq
        simp only [BTree.nodes, List.mem_cons, List.mem_append] at hq
        rcases hq with rfl | hq | hq
        · exact hv
        · exact fun hc => hl5 q hq (List.mem_cons_of_mem _ hc)
        · exact fun hc => hr5 q hq ((hv1 q).mpr (.inr (List.mem_cons_of_mem _ hc)))
      · simp only [BTree.syms]
        refine List.nodup_append.mpr ⟨hl6, hr6, fun y hy y' hy' e => ?_⟩
        subst e
        exact hr7 y hy' ((hs1 y).mpr (.inl hy))
      · intro y hy
        simp only [BTree.syms, List.mem_append] at hy
        rcases hy with hy | hy
        · exact hl7 y hy
        · exact fun hc => hr7 y hy ((hs1 y).mpr (.inr hc))
      · intro q
        rw [hv2, hv1]
        simp only [BTree.nodes, List.mem_cons, List.mem_append]
        tauto
      · intro y
        rw [hs2, hs1]
        simp only [BTree.syms, List.mem_append]
        tauto
      · simp only [BTree.nodes, List.length_cons, List.length_append]
        rwa [show n + 1 - (l.nodes.length + r.nodes.length + 1) = n - l.nodes.length - r.nodes.length by omega]

/-- The converse: a tree in memory, all new, is passed over. -/
theorem wfLoop_of_tree {m : Mems} {d : Nat} :
    ∀ (t : BTree) (fuel : Nat) (vis : List NodeIx) (ss : List Sym) (stack : List NodeIx), t.Matches m d →
      t.nodes.length ≤ fuel → t.nodes.Nodup → (∀ q ∈ t.nodes, q ∉ vis) → t.syms.Nodup → (∀ x ∈ t.syms, x ∉ ss) →
      ∃ vis' ss', (∀ q, q ∈ vis' ↔ q ∈ t.nodes ∨ q ∈ vis) ∧ (∀ x, x ∈ ss' ↔ x ∈ t.syms ∨ x ∈ ss) ∧
        wfLoop m d fuel vis ss (t.top :: stack) = wfLoop m d (fuel - t.nodes.length) vis' ss' stack := by
  intro t
  induction t with
  | leaf p x =>
    rintro fuel vis ss stack ⟨hp, hlr, hns⟩ hf - hv - hs
    simp only [BTree.nodes, List.length_singleton, List.mem_singleton, forall_eq, BTree.syms] at hf hv hs
    obtain ⟨n, rfl⟩ : ∃ n, fuel = n + 1 := ⟨fuel - 1, by omega⟩
    refine ⟨p :: vis, x :: ss, by simp [BTree.nodes], by simp [BTree.syms], ?_⟩
    rw [BTree.top, wfLoop, if_neg (by omega), if_neg (by simpa using hv), readCell_ok.mpr hlr, readCell_ok.mpr hns]
    simp [hs, BTree.nodes]
  | node p l r ihl ihr =>
    rintro fuel vis ss stack ⟨hp, hlr, hl, hr, ⟨x, hns⟩, hml, hmr⟩ hf hn hv hsn hs
    simp only [BTree.nodes, List.length_cons, List.length_append, List.nodup_cons, List.mem_append, not_or,
      List.nodup_append, List.mem_cons, BTree.syms] at hf hn hv hsn hs
    obtain ⟨⟨hpl, hpr⟩, hln, hrn, hlr'⟩ := hn
    obtain ⟨n, rfl⟩ : ∃ n, fuel = n + 1 := ⟨fuel - 1, by omega⟩
    obtain ⟨v1, s1, hv1, hs1, e1⟩ := ihl n (p :: vis) ss (r.top :: stack) hml (by omega) hln
      (fun q hq => by
        simp only [List.mem_cons, not_or]
        exact ⟨fun e => hpl (e ▸ hq), hv q (.inr (.inl hq))⟩)
      hsn.1 (fun y hy => hs y (.inl hy))
    obtain ⟨v2, s2, hv2, hs2, e2⟩ := ihr (n - l.nodes.length) v1 s1 stack hmr (by omega) hrn
      (fun q hq => by
        rw [hv1]
        simp only [List.mem_cons, not_or]
        exact ⟨fun hc => hlr' q hc q hq rfl, fun e => hpr (e ▸ hq), hv q (.inr (.inr hq))⟩)
      hsn.2.1 (fun y hy => by
        rw [hs1]
        exact fun hc => hc.elim (fun hc => hsn.2.2 y hc y hy rfl) (hs y (.inr hy)))
    refine ⟨v2, s2, fun q => ?_, fun y => ?_, ?_⟩
    · rw [hv2, hv1]; simp only [BTree.nodes, List.mem_cons, List.mem_append]; tauto
    · rw [hs2, hs1]; simp only [BTree.syms, List.mem_append]; tauto
    · rw [BTree.top, wfLoop, if_neg (by omega), if_neg (by simpa using hv p (.inl rfl)), readCell_ok.mpr hlr, readCell_ok.mpr hns]
      simp only [bne_iff_ne, ne_eq, beq_eq_false_iff_ne.mpr hl, beq_eq_false_iff_ne.mpr hr, not_true_eq_false, if_false,
        Bool.false_eq_true]
      rw [e1, e2]
      simp only [BTree.nodes, List.length_cons, List.length_append]
      rw [show n + 1 - (l.nodes.length + r.nodes.length + 1) = n - l.nodes.length - r.nodes.length by omega]

/-- WF_TREE passes exactly when node memory holds a tree at the root whose nodes are distinct and whose leaves' symbols are distinct. -/
theorem wfTree_ok_iff_tree {p : Params} {m : Mems} {r : NodeIx} (hr : r ≠ NIL) :
    wfTree p m r = .ok none ↔ ∃ t : BTree, t.top = r ∧ t.Matches m (nodeDepth p) ∧ t.nodes.Nodup ∧ t.syms.Nodup := by
  unfold wfTree
  rw [if_neg hr]
  constructor
  · intro h
    obtain ⟨t, h1, h2, -, h3, -, h4, -⟩ := wfLoop_tree _ _ _ _ _ h
    exact ⟨t, h1, h2, h3, h4⟩
  · rintro ⟨t, rfl, h2, h3, h4⟩
    obtain ⟨v, s, -, -, e⟩ := wfLoop_of_tree t (nodeDepth p) [] [] [] h2 (length_le_of_nodup h3 (t.nodes_inside h2)) h3 (by simp)
      h4 (by simp)
    rw [e]
    cases (nodeDepth p - t.nodes.length) <;> rfl

/-- Following a path in memory is following it in the tree. -/
theorem walkPath_tree {m : Mems} {d : Nat} :
    ∀ (path : List CodeBit) (t : BTree), t.Matches m d → walkPath m t.top path = (t.sub path).map BTree.top := by
  intro path
  induction path with
  | nil => intro t _; simp [walkPath, BTree.sub]
  | cons b bs ih =>
    intro t h
    cases t with
    | leaf p x =>
      obtain ⟨-, hlr, hns⟩ := h
      simp [walkPath, BTree.sub, BTree.top, hlr, hns]
    | node p l r =>
      obtain ⟨-, hlr, -, -, ⟨x, hns⟩, hl, hr⟩ := h
      simp only [walkPath, BTree.sub, BTree.top_node, hlr, hns]
      by_cases hb : b = 0
      · simp only [if_pos hb, Bool.false_eq_true, if_false]
        exact ih l hl
      · simp only [if_neg hb, Bool.false_eq_true, if_false]
        exact ih r hr

/-- A subtree is in memory where the tree is. -/
theorem BTree.sub_matches {m : Mems} {d : Nat} :
    ∀ (path : List CodeBit) (t u : BTree), t.Matches m d → t.sub path = some u → u.Matches m d := by
  intro path
  induction path with
  | nil => intro t u h e; simp only [BTree.sub, Option.some.injEq] at e; exact e ▸ h
  | cons b bs ih =>
    intro t u h e
    cases t with
    | leaf p x => simp [BTree.sub] at e
    | node p l r =>
      obtain ⟨-, -, -, -, -, hl, hr⟩ := h
      simp only [BTree.sub] at e
      split at e
      · exact ih l u hl e
      · exact ih r u hr e

/-- The leaves a tree lists are the ends of its paths. -/
theorem BTree.mem_codes : ∀ (t : BTree) (path : List CodeBit) (x : Sym),
    (path, x) ∈ t.codes ↔ ∃ p, t.sub path = some (.leaf p x)
  | .leaf p y, path, x => by
    cases path <;> simp [BTree.codes, BTree.sub, eq_comm]
  | .node p l r, path, x => by
    cases path with
    | nil => simp [BTree.codes, BTree.sub]
    | cons b bs =>
      simp only [BTree.codes, List.mem_append, List.mem_map, Prod.mk.injEq, List.cons.injEq, Prod.exists, BTree.sub]
      by_cases hb : b = 0
      · subst hb
        rw [if_pos rfl, ← l.mem_codes bs x]
        constructor
        · rintro (⟨a, y, h, ⟨-, rfl⟩, rfl⟩ | ⟨a, y, h, ⟨h0, -⟩, -⟩)
          · exact h
          · simp at h0
        · exact fun h => .inl ⟨bs, x, h, ⟨rfl, rfl⟩, rfl⟩
      · have hb1 : b = 1 := by revert hb; revert b; decide
        subst hb1
        rw [if_neg hb, ← r.mem_codes bs x]
        constructor
        · rintro (⟨a, y, h, ⟨h0, -⟩, -⟩ | ⟨a, y, h, ⟨-, rfl⟩, rfl⟩)
          · simp at h0
          · exact h
        · exact fun h => .inr ⟨bs, x, h, ⟨rfl, rfl⟩, rfl⟩

/-- A code path in memory is a leaf the tree lists. -/
theorem codePath_tree {m : Mems} {d : Nat} {t : BTree} (h : t.Matches m d) (path : List CodeBit) (x : Sym) :
    CodePath m t.top path x ↔ (path, x) ∈ t.codes := by
  rw [t.mem_codes]
  unfold CodePath
  rw [walkPath_tree path t h]
  constructor
  · rintro ⟨p, hp, hx⟩
    obtain ⟨u, hu, rfl⟩ := Option.map_eq_some_iff.mp hp
    have hm := BTree.sub_matches path t u h hu
    cases u with
    | leaf q y =>
      obtain ⟨-, -, hy⟩ := hm
      rw [BTree.top] at hx
      rw [hx] at hy
      cases hy
      exact ⟨q, hu⟩
    | node q l r =>
      obtain ⟨-, -, -, -, ⟨z, hz⟩, -, -⟩ := hm
      rw [BTree.top] at hx
      rw [hx] at hz
      cases hz
  · rintro ⟨p, hp⟩
    exact ⟨p, by rw [hp]; rfl, (BTree.sub_matches path t _ h hp).2.2⟩

theorem BTree.codes_syms (t : BTree) : t.codes.map (·.2) = t.syms := by
  induction t with
  | leaf => rfl
  | node p l r hl hr => simp [BTree.codes, BTree.syms, ← hl, ← hr, Function.comp_def]

/-- GENTAB's traversal, said over trees (43_code_table.md R203): the codes of the tree on top of the stack, then the rest. -/
theorem codePaths_tree {m : Mems} {d : Nat} :
    ∀ (t : BTree) (fuel : Nat) (pre : List CodeBit) (stack : List (NodeIx × List CodeBit)), t.Matches m d →
      t.nodes.length ≤ fuel →
      codePaths m fuel ((t.top, pre) :: stack) =
        match codePaths m (fuel - t.nodes.length) stack with
        | .error f => .error f
        | .ok rest => .ok (t.codes.map (fun e => (e.2, pre ++ e.1)) ++ rest) := by
  intro t
  induction t with
  | leaf p x =>
    rintro fuel pre stack ⟨-, -, hns⟩ hf
    simp only [BTree.nodes, List.length_singleton] at hf
    obtain ⟨n, rfl⟩ : ∃ n, fuel = n + 1 := ⟨fuel - 1, by omega⟩
    simp only [BTree.top_leaf, codePaths, readCell_ok.mpr hns, if_true, BTree.nodes, List.length_singleton, Nat.add_sub_cancel,
      BTree.codes, List.map_cons, List.map_nil, List.append_nil, List.singleton_append] <;> rfl
  | node p l r ihl ihr =>
    rintro fuel pre stack ⟨-, hlr, -, -, ⟨x, hns⟩, hl, hr⟩ hf
    simp only [BTree.nodes, List.length_cons, List.length_append] at hf
    obtain ⟨n, rfl⟩ : ∃ n, fuel = n + 1 := ⟨fuel - 1, by omega⟩
    simp only [BTree.top_node, codePaths, readCell_ok.mpr hns, readCell_ok.mpr hlr, Bool.false_eq_true, if_false]
    rw [ihl n _ _ hl (by omega), ihr _ _ _ hr (by omega)]
    simp only [BTree.nodes, List.length_cons, List.length_append]
    rw [show n + 1 - (l.nodes.length + r.nodes.length + 1) = n - l.nodes.length - r.nodes.length by omega]
    cases codePaths m (n - l.nodes.length - r.nodes.length) stack with
    | error f => rfl
    | ok rest => simp [BTree.codes, Function.comp_def]

theorem codePaths_nil (m : Mems) (fuel : Nat) : codePaths m fuel [] = .ok [] := by cases fuel <;> rfl

/-- The codes of the table: the leaves with their paths, "0" for a leaf root (43_code_table.md R203, R204). -/
def BTree.tableCodes : BTree → List (Sym × List CodeBit)
  | .leaf _ x => [(x, [0])]
  | t@(.node _ _ _) => t.codes.map fun e => (e.2, e.1)

@[simp] theorem BTree.tableCodes_leaf (p : NodeIx) (x : Sym) : (BTree.leaf p x).tableCodes = [(x, [0])] := rfl
theorem BTree.tableCodes_node (p : NodeIx) (l r : BTree) :
    (BTree.node p l r).tableCodes = (BTree.node p l r).codes.map fun e => (e.2, e.1) := rfl

theorem BTree.tableCodes_syms (t : BTree) : t.tableCodes.map (·.1) = t.syms := by
  cases t with
  | leaf => rfl
  | node p l r => rw [BTree.tableCodes_node, ← BTree.codes_syms]; simp [Function.comp_def]

/-- The codes GENTAB_BODY writes for a tree in memory: the leaves with their paths, the code "0" for a leaf root (43_code_table.md R204). -/
theorem treeCodes_tree {p : Params} {m : Mems} {t : BTree} (h : t.Matches m (nodeDepth p)) (hn : t.nodes.Nodup) :
    treeCodes p m t.top = .ok t.tableCodes := by
  have hne := BTree.top_ne_nil h
  have hlen := length_le_of_nodup hn (t.nodes_inside h)
  unfold treeCodes
  rw [if_neg hne]
  cases t with
  | leaf q x =>
    obtain ⟨-, -, hns⟩ := h
    simp [BTree.top, readCell_ok.mpr hns]
  | node q l r =>
    have h' := h
    obtain ⟨-, -, -, -, ⟨x, hns⟩, -, -⟩ := h'
    simp only [BTree.top_node, readCell_ok.mpr hns, Bool.false_eq_true, if_false]
    have := codePaths_tree (.node q l r) (nodeDepth p) [] [] h hlen
    simp only [BTree.top_node] at this
    rw [this, codePaths_nil, BTree.tableCodes_node]
    simp

end Sys2Proof.Machine
end

