-- ==== Sys2Proof/Laws/Forest.lean ====
section
/-! SUPPORT. The greedy merge, said over trees: it joins the trees of the working set into one. -/

namespace Sys2Proof.Machine

/-- Node memory holds the internal nodes `out` from index `next` on. -/
def HoldsMerges (m : Mems) (next : Nat) (out : List Node) : Prop :=
  ∀ i, (h : i < out.length) → m.nodeLr.read (next + i) = some ⟨out[i].left, out[i].right⟩ ∧
    m.nodeSym.read (next + i) = some ⟨0, false⟩

/-- The trees of a working set are in memory, each at its key's index. -/
def HoldsForest (m : Mems) (d : Nat) (F : List (Key × BTree)) : Prop :=
  ∀ e ∈ F, e.2.top = BitVec.ofNat 16 e.1.2 ∧ e.2.Matches m d

/-- A rearrangement of a mapped list comes from one of the list. -/
theorem perm_of_map_perm {α β : Type} {f : α → β} : ∀ {l : List β} {F : List α}, (F.map f).Perm l →
    ∃ F', F.Perm F' ∧ F'.map f = l
  | [], F, h => ⟨[], by simpa using h, rfl⟩
  | x :: l, F, h => by
    obtain ⟨y, hy, rfl⟩ := List.mem_map.mp (h.mem_iff.mpr (List.mem_cons_self ..))
    obtain ⟨s, t, rfl⟩ := List.append_of_mem hy
    have h1 : ((s ++ t).map f).Perm l :=
      (List.perm_cons (f y)).mp (((List.perm_middle (a := y) (l₁ := s) (l₂ := t)).symm.map f).trans h)
    obtain ⟨F', h2, rfl⟩ := perm_of_map_perm h1
    exact ⟨y :: F', List.perm_middle.trans (h2.cons y), rfl⟩

/-- The merge joins the trees of its working set into one tree over the same leaves, whose root is the last node created (42_tree_build.md R184). -/
theorem mergeLoop_forest {m : Mems} {p : Params} :
    ∀ (n : Nat) (w : List Key) (next : Nat) (F : List (Key × BTree)), w.length = n + 1 → (w.map (·.2)).Nodup →
      (∀ c ∈ w, c.2 < next) → next + n ≤ nodeDepth p → w.Perm (F.map (·.1)) → HoldsForest m (nodeDepth p) F →
      HoldsMerges m next (mergeLoop n w next) →
      ∃ t : BTree, (∀ c, n = 0 → c ∈ w → t.top = BitVec.ofNat 16 c.2) ∧ (n ≠ 0 → t.top = BitVec.ofNat 16 (next + n - 1)) ∧
        t.Matches m (nodeDepth p) ∧
        t.nodes.Perm (F.flatMap (·.2.nodes) ++ (List.range' next n).map (BitVec.ofNat 16)) ∧
        t.syms.Perm (F.flatMap (·.2.syms))
  | 0, w, next, F, hl, _, _, _, hF, hf, _ => by
    have hlF := hF.length_eq
    rw [hl, List.length_map] at hlF
    obtain ⟨e, rfl⟩ := List.length_eq_one_iff.mp hlF.symm
    obtain ⟨h1, h2⟩ := hf e (by simp)
    refine ⟨e.2, fun c _ hc => ?_, fun h => absurd rfl h, h2, by simp, by simp⟩
    have := hF.mem_iff.mp hc
    simp only [List.map_cons, List.map_nil, List.mem_singleton] at this
    rw [this]
    exact h1
  | n + 1, w, next, F, hl, hn, hw, hd, hF, hf, hm => by
    obtain ⟨a, b, rest, hp, -, -, e⟩ := mergeLoop_pass n w next hl hn
    have hlen := hp.length_eq
    have hnr := ((hp.map (·.2)).nodup_iff).mp hn
    have hwr : ∀ c ∈ rest, c.2 < next := fun c hc => hw c (hp.mem_iff.mpr (by simp [hc]))
    simp only [List.map_cons, List.nodup_cons, List.mem_cons, not_or] at hnr
    have hn' : (((a.1 + b.1, next) :: rest).map (·.2)).Nodup := by
      simp only [List.map_cons, List.nodup_cons]
      refine ⟨fun h => ?_, hnr.2.2⟩
      obtain ⟨c, hc, hce⟩ := List.mem_map.mp h
      have := hwr c hc
      omega
    have hw' : ∀ c ∈ (a.1 + b.1, next) :: rest, c.2 < next + 1 := by
      intro c hc
      rcases List.mem_cons.mp hc with rfl | hc
      · simp
      · have := hwr c hc; omega
    -- the trees of a and b
    obtain ⟨F1, hF1, hF1e⟩ := perm_of_map_perm (hF.symm.trans hp)
    match F1, hF1e with
    | (ka, ta) :: (kb, tb) :: R, hF1e =>
      simp only [List.map_cons, List.cons.injEq] at hF1e
      obtain ⟨rfl, rfl, hR⟩ := hF1e
      obtain ⟨hat, ham⟩ := hf (ka, ta) (hF1.mem_iff.mpr (by simp))
      obtain ⟨hbt, hbm⟩ := hf (kb, tb) (hF1.mem_iff.mpr (by simp))
      rw [e] at hm
      obtain ⟨hlr, hns⟩ := hm 0 (by simp)
      have hdl := nodeDepth_le p
      have hlr' : m.nodeLr.read (BitVec.ofNat 16 next).toNat = some ⟨ta.top, tb.top⟩ := by
        rw [toNat_ofNat_ix (by omega), hat, hbt]
        simpa [mergedNode] using hlr
      have hns' : m.nodeSym.read (BitVec.ofNat 16 next).toNat = some ⟨0, false⟩ := by
        rw [toNat_ofNat_ix (by omega)]
        simpa using hns
      have hnew : (BTree.node (BitVec.ofNat 16 next) ta tb).Matches m (nodeDepth p) :=
        ⟨by rw [toNat_ofNat_ix (by omega)]; omega, hlr', BTree.top_ne_nil ham, BTree.top_ne_nil hbm, ⟨_, hns'⟩, ham, hbm⟩
      obtain ⟨t, h1, h2, h3, h4, h5⟩ :=
        mergeLoop_forest (p := p) n ((ka.1 + kb.1, next) :: rest) (next + 1)
          (((ka.1 + kb.1, next), .node (BitVec.ofNat 16 next) ta tb) :: R) (by simp at hlen ⊢; omega) hn' hw' (by omega)
          (by simp [hR])
          (by
            intro x hx
            rcases List.mem_cons.mp hx with rfl | hx
            · exact ⟨rfl, hnew⟩
            · exact hf x (hF1.mem_iff.mpr (by simp [hx])))
          (by
            intro i hi
            have := hm (i + 1) (by simpa using hi)
            simp only [List.getElem_cons_succ] at this
            rwa [show next + (i + 1) = next + 1 + i by omega] at this)
      refine ⟨t, fun c h _ => absurd h (by omega), fun _ => ?_, h3, ?_, ?_⟩
      · cases n with
        | zero => rw [h1 _ rfl (List.mem_cons_self ..)]; simp
        | succ k => rw [h2 (by omega), show next + 1 + (k + 1) - 1 = next + (k + 1 + 1) - 1 by omega]
      · refine h4.trans ?_
        have hperm : (F.flatMap (·.2.nodes)).Perm (ta.nodes ++ (tb.nodes ++ R.flatMap (·.2.nodes))) :=
          (hF1.flatMap_right _).trans (by simp)
        rw [List.range'_succ]
        simp only [List.flatMap_cons, BTree.nodes, List.map_cons]
        refine List.Perm.trans ?_ ((hperm.append_right _).symm)
        refine List.Perm.trans ?_ (List.perm_middle (a := BitVec.ofNat 16 next)
          (l₁ := ta.nodes ++ (tb.nodes ++ R.flatMap (·.2.nodes)))
          (l₂ := (List.range' (next + 1) n).map (BitVec.ofNat 16))).symm
        simp
      · refine h5.trans ?_
        refine List.Perm.trans ?_ ((hF1.flatMap_right _).symm)
        simp [BTree.syms]

end Sys2Proof.Machine
end

