-- ==== Sys2Proof/Laws/Build.lean ====
section
/-! SUPPORT. What BUILD_BODY leaves in NODE, and the tree it is. -/

namespace Sys2Proof.Machine

/-- The three memories of NODE are canonical. -/
def NodeWf (m : Mems) : Prop := m.nodeLr.wf = true ∧ m.nodeWt.wf = true ∧ m.nodeSym.wf = true

/-- BUILD_BODY on a written table reads the table. -/
theorem buildBody_of_entries {s : State} {es : List (Sym × Word)} (hm : HoldsEntries s.mems es) :
    buildBody es.length s = .ok (buildTree es s) := by
  have h1 : readRange .esym s.mems.esym 0 es.length = .ok (es.map (·.1)) :=
    readRange_ok.mpr ⟨by simp, fun k hk => by simpa using (hm k (by simpa using hk)).1⟩
  have h2 : readRange .ecnt s.mems.ecnt 0 es.length = .ok (es.map (·.2)) :=
    readRange_ok.mpr ⟨by simp, fun k hk => by simpa using (hm k (by simpa using hk)).2⟩
  unfold buildBody
  rw [h1, h2]
  simp only
  rw [show (es.map (·.1)).zip (es.map (·.2)) = es from by rw [List.zip_map']; simp]

theorem startSet_facts (es : List (Sym × Word)) :
    (((es.map (·.2)).zipIdx).map (·.2)).Nodup ∧ (∀ c ∈ (es.map (·.2)).zipIdx, c.2 < es.length) ∧
      totalWeight (es.map (·.2)).zipIdx = totalCount es := by
  refine ⟨?_, fun c hc => ?_, ?_⟩
  · rw [List.zipIdx_map_snd]
    exact List.nodup_range'
  · have := List.snd_lt_of_mem_zipIdx hc
    simpa using this
  · have : ((es.map (·.2)).zipIdx).map (fun c => c.1.toNat) = (es.map (·.2)).map BitVec.toNat := by
      rw [← List.zipIdx_map_fst 0 (es.map (·.2)), List.map_map]
      simp [Function.comp_def]
    rw [totalWeight, this, totalCount, List.map_map]
    rfl

theorem mem_startSet {es : List (Sym × Word)} {c : Key} :
    c ∈ (es.map (·.2)).zipIdx ↔ ∃ h : c.2 < es.length, es[c.2].2 = c.1 := by
  obtain ⟨a, i⟩ := c
  rw [List.mem_zipIdx_iff_getElem?]
  simp only [List.getElem?_map, Option.map_eq_some_iff]
  constructor
  · rintro ⟨e, he, rfl⟩
    obtain ⟨h, rfl⟩ := List.getElem?_eq_some_iff.mp he
    exact ⟨h, rfl⟩
  · rintro ⟨h, e⟩
    exact ⟨_, List.getElem?_eq_getElem h, e⟩

theorem buildNodes_length {es : List (Sym × Word)} (h : es ≠ []) : (buildNodes es).length = 2 * es.length - 1 := by
  have hpos : 0 < es.length := List.length_pos_iff.mpr h
  obtain ⟨h1, h2, -⟩ := startSet_facts es
  rw [buildNodes, List.length_append, List.length_map, mergeLoop_length _ _ _ (by simp; omega) h1 h2]
  omega

theorem buildNodes_leaf (es : List (Sym × Word)) (k : Nat) (h : k < es.length) (h' : k < (buildNodes es).length) :
    (buildNodes es)[k] = leafNode es[k] := by
  simp only [buildNodes]
  rw [List.getElem_append_left (by simpa using h)]
  simp

theorem buildNodes_merge (es : List (Sym × Word)) (j : Nat)
    (h : j < (mergeLoop (es.length - 1) (es.map (·.2)).zipIdx es.length).length) (h' : es.length + j < (buildNodes es).length) :
    (buildNodes es)[es.length + j] = (mergeLoop (es.length - 1) (es.map (·.2)).zipIdx es.length)[j] := by
  simp only [buildNodes]
  rw [List.getElem_append_right (by simp)]
  simp

/-- The nodes BUILD_BODY writes, read back; the nodes above keep their contents (42_tree_build.md R180). -/
theorem writeNodes_read {m : Mems} (h : NodeWf m) (ns : List Node) :
    (∀ i, (hi : i < ns.length) → (writeNodes ns m).nodeLr.read i = some ⟨ns[i].left, ns[i].right⟩ ∧
      (writeNodes ns m).nodeWt.read i = some ns[i].weight ∧ (writeNodes ns m).nodeSym.read i = some ⟨ns[i].sym, ns[i].symv⟩) ∧
    ∀ i, ns.length ≤ i → (writeNodes ns m).nodeLr.read i = m.nodeLr.read i ∧
      (writeNodes ns m).nodeWt.read i = m.nodeWt.read i ∧ (writeNodes ns m).nodeSym.read i = m.nodeSym.read i := by
  obtain ⟨h1, h2, h3⟩ := h
  refine ⟨fun i hi => ⟨?_, ?_, ?_⟩, fun i hi => ⟨?_, ?_, ?_⟩⟩
  · have := read_writeList_in m.nodeLr 0 (ns.map fun x => (⟨x.left, x.right⟩ : NodeLr)) h1 i (by simpa using hi)
    rw [Nat.zero_add, List.getElem_map] at this
    exact this
  · have := read_writeList_in m.nodeWt 0 (ns.map (·.weight)) h2 i (by simpa using hi)
    rw [Nat.zero_add, List.getElem_map] at this
    exact this
  · have := read_writeList_in m.nodeSym 0 (ns.map fun x => (⟨x.sym, x.symv⟩ : NodeSym)) h3 i (by simpa using hi)
    rw [Nat.zero_add, List.getElem_map] at this
    exact this
  · exact read_writeList_above _ _ h1 (by simpa using hi)
  · exact read_writeList_above _ _ h2 (by simpa using hi)
  · exact read_writeList_above _ _ h3 (by simpa using hi)

theorem mergeLoop_blank : ∀ (n : Nat) (w : List Key) (next : Nat), ∀ x ∈ mergeLoop n w next, x.sym = 0 ∧ x.symv = false := by
  intro n
  induction n with
  | zero => intro w next; simp [mergeLoop]
  | succ n ih =>
    intro w next
    unfold mergeLoop
    split
    · simp
    · split
      rename_i a w1 _
      cases w1 with
      | nil => simp
      | cons q qs =>
        simp only [List.mem_cons]
        rintro x (rfl | h)
        · exact ⟨rfl, rfl⟩
        · exact ih _ _ _ h

/-- The tree BUILD_BODY leaves (42_tree_build.md R184): rooted at the last node, over exactly the nodes written, its leaves the entries. -/
theorem built_tree {p : Params} {m : Mems} {es : List (Sym × Word)} (hw : NodeWf m) (he : es ≠ []) (hl : es.length ≤ nMax p) :
    ∃ t : BTree, t.top = BitVec.ofNat 16 (2 * es.length - 2) ∧ t.Matches (writeNodes (buildNodes es) m) (nodeDepth p) ∧
      t.nodes.Perm ((List.range (2 * es.length - 1)).map (BitVec.ofNat 16)) ∧ t.syms.Perm (es.map (·.1)) := by
  have hpos : 0 < es.length := List.length_pos_iff.mpr he
  have hlen := buildNodes_length he
  obtain ⟨h1, h2, -⟩ := startSet_facts es
  obtain ⟨hr, -⟩ := writeNodes_read hw (buildNodes es)
  have hdl := nodeDepth_le p
  have hdd : 2 * es.length - 1 ≤ nodeDepth p := by simp only [nodeDepth]; omega
  -- the leaves as a forest
  let F : List (Key × BTree) := es.zipIdx.map fun e => ((e.1.2, e.2), .leaf (BitVec.ofNat 16 e.2) e.1.1)
  have hFw : (es.map (·.2)).zipIdx = F.map (·.1) := by
    simp only [F, List.map_map, List.zipIdx_map]
    rfl
  have hFf : HoldsForest (writeNodes (buildNodes es) m) (nodeDepth p) F := by
    intro x hx
    obtain ⟨⟨e, i⟩, hi, rfl⟩ := List.mem_map.mp hx
    obtain ⟨hi1, hie⟩ : ∃ h : i < es.length, es[i] = e := List.getElem?_eq_some_iff.mp (List.mem_zipIdx_iff_getElem?.mp hi)
    subst hie
    obtain ⟨a, -, c⟩ := hr i (by omega)
    rw [buildNodes_leaf es i hi1] at a c
    refine ⟨rfl, ?_⟩
    refine ⟨?_, ?_, ?_⟩ <;> rw [toNat_ofNat_ix (by omega)]
    · omega
    · simpa [leafNode] using a
    · simpa [leafNode] using c
  have hm : HoldsMerges (writeNodes (buildNodes es) m) es.length (mergeLoop (es.length - 1) (es.map (·.2)).zipIdx es.length) := by
    intro i hi
    have hi' : es.length + i < (buildNodes es).length := by
      simp only [buildNodes, List.length_append, List.length_map]; omega
    obtain ⟨a, -, c⟩ := hr (es.length + i) hi'
    rw [buildNodes_merge es i hi] at a c
    obtain ⟨b1, b2⟩ := mergeLoop_blank _ _ _ _ (List.getElem_mem hi)
    rw [b1, b2] at c
    exact ⟨a, c⟩
  obtain ⟨t, t1, t2, t3, t4, t5⟩ :=
    mergeLoop_forest (p := p) (es.length - 1) _ es.length F (by simp; omega) h1 h2 (by omega) (by rw [hFw]) hFf hm
  refine ⟨t, ?_, t3, ?_, ?_⟩
  · by_cases h1' : es.length = 1
    · have := t1 (es[0].2, 0) (by omega) (mem_startSet.mpr ⟨by simp only; omega, rfl⟩)
      rw [this, h1']
    · rw [t2 (by omega)]
      congr 1
      omega
  · refine t4.trans ?_
    have e1 : F.flatMap (·.2.nodes) = (List.range es.length).map (BitVec.ofNat 16) := by
      simp only [F, List.flatMap_map, BTree.nodes]
      rw [← List.map_eq_flatMap (f := fun a : (Sym × Word) × Nat => BitVec.ofNat 16 a.2), List.range_eq_range',
        ← List.zipIdx_map_snd 0 es, List.map_map]
      rfl
    rw [e1, List.range_eq_range', List.range_eq_range', ← List.map_append]
    rw [show List.range' 0 (2 * es.length - 1) = List.range' 0 es.length ++ List.range' es.length (es.length - 1) from ?_]
    rw [show 2 * es.length - 1 = es.length + (es.length - 1) by omega, ← List.range'_append_1, Nat.zero_add]
  · refine t5.trans ?_
    simp only [F, List.flatMap_map, BTree.syms]
    rw [← List.map_eq_flatMap (f := fun a : (Sym × Word) × Nat => a.1.1)]
    conv_rhs => rw [← List.zipIdx_map_fst 0 es, List.map_map]
    exact .refl _

end Sys2Proof.Machine
end

