-- ==== Sys2Proof/Laws/Emit.lean ====
section
/-! SUPPORT. The emission loop of ENCODE, said over codes. -/

namespace Sys2Proof.Machine

/-- The table holds the non-empty code `bs` for symbol `x`. -/
def HasCode (p : Params) (m : Mems) (x : Sym) (bs : List CodeBit) : Prop :=
  bs ≠ [] ∧ bs.length < 2 ^ 16 ∧ m.clen.read x.toNat = some (BitVec.ofNat 16 bs.length) ∧
    ∀ j, (h : j < bs.length) → m.cbits.read (x.toNat * nMax p + j) = some bs[j]

theorem hasCode_len {p : Params} {m : Mems} {x : Sym} {c : List CodeBit} (h : HasCode p m x c) :
    (BitVec.ofNat 16 c.length).toNat = c.length ∧ BitVec.ofNat 16 c.length ≠ 0 := by
  obtain ⟨h0, h1, -, -⟩ := h
  have e : (BitVec.ofNat 16 c.length).toNat = c.length := by rw [BitVec.toNat_ofNat, Nat.mod_eq_of_lt h1]
  refine ⟨e, fun hz => h0 (List.length_eq_zero_iff.mp ?_)⟩
  rw [← e, hz]
  rfl

/-- One pass of the emission on a symbol that has a code (44_encode.md R230 step 3). -/
theorem emitLoop_pass {p : Params} {m : Mems} {x : Sym} {c : List CodeBit} (h : HasCode p m x c) (xs : List Sym) (i pos : Nat) :
    emitLoop p m (x :: xs) i pos =
      if p.bitDepth.toNat < pos + c.length then .ok ([], some (.bitOverflow i))
      else match emitLoop p m xs (i + 1) (pos + c.length) with
        | .error f => .error f
        | .ok (ts, e) => .ok (c.map bitToken ++ ts, e) := by
  obtain ⟨e, hne⟩ := hasCode_len h
  obtain ⟨-, -, h2, h3⟩ := h
  have hr : readRange .cbits m.cbits (x.toNat * nMax p) c.length = .ok c := readRange_ok.mpr ⟨rfl, h3⟩
  simp only [emitLoop, readCell_ok.mpr h2, if_neg hne, e, hr] <;> rfl

/-- Emission of symbols whose codes fit: exactly their codes (44_encode.md R231). -/
theorem emitLoop_fits {p : Params} {m : Mems} (code : Sym → List CodeBit) :
    ∀ (xs : List Sym) (i pos : Nat), (∀ x ∈ xs, HasCode p m x (code x)) → pos + (xs.flatMap code).length ≤ p.bitDepth.toNat →
      emitLoop p m xs i pos = .ok ((xs.flatMap code).map bitToken, none)
  | [], _, _, _, _ => rfl
  | x :: xs, i, pos, h, hd => by
    simp only [List.flatMap_cons, List.length_append] at hd
    rw [emitLoop_pass (h x (by simp)), if_neg (by omega),
      emitLoop_fits code xs _ _ (fun y hy => h y (by simp [hy])) (by omega)]
    simp

/-- Emission up to the first code that does not fit (44_encode.md R230, R233). -/
theorem emitLoop_overflow {p : Params} {m : Mems} (code : Sym → List CodeBit) (x : Sym) (zs : List Sym)
    (hx : HasCode p m x (code x)) :
    ∀ (ys : List Sym) (i pos : Nat), (∀ y ∈ ys, HasCode p m y (code y)) →
      pos + (ys.flatMap code).length ≤ p.bitDepth.toNat →
      p.bitDepth.toNat < pos + (ys.flatMap code).length + (code x).length →
      emitLoop p m (ys ++ x :: zs) i pos = .ok ((ys.flatMap code).map bitToken, some (.bitOverflow (i + ys.length)))
  | [], i, pos, _, _, hd => by
    simp only [List.flatMap_nil, List.length_nil, Nat.add_zero] at hd
    rw [List.nil_append, emitLoop_pass hx, if_pos hd]
    rfl
  | y :: ys, i, pos, h, hd, hd' => by
    simp only [List.flatMap_cons, List.length_append] at hd hd'
    rw [List.cons_append, emitLoop_pass (h y (by simp)), if_neg (by omega),
      emitLoop_overflow code x zs hx ys _ _ (fun z hz => h z (by simp [hz])) (by omega) (by omega)]
    simp only [List.flatMap_cons, List.map_append, List.length_cons]
    rw [show i + 1 + ys.length = i + (ys.length + 1) by omega]

/-- Emission of symbols that all have codes answers one way or the other. -/
theorem emitLoop_total {p : Params} {m : Mems} (code : Sym → List CodeBit) :
    ∀ (xs : List Sym) (i pos : Nat), (∀ x ∈ xs, HasCode p m x (code x)) → ∃ ts e, emitLoop p m xs i pos = .ok (ts, e)
  | [], _, _, _ => ⟨_, _, rfl⟩
  | x :: xs, i, pos, h => by
    rw [emitLoop_pass (h x (by simp))]
    split
    · exact ⟨_, _, rfl⟩
    · obtain ⟨ts, e, he⟩ := emitLoop_total code xs (i + 1) (pos + (code x).length) fun y hy => h y (by simp [hy])
      rw [he]
      exact ⟨_, _, rfl⟩

end Sys2Proof.Machine
end

