-- ==== Sys2Proof/Laws/Frequency.lean ====
section
/-! SUPPORT. The frequency table as the list of distinct symbols with their counts. -/

namespace Sys2Proof.Machine

/-- Counting an occurrence of `x` in a table over distinct symbols: the entry of `x` goes up, or a new one stands at the end (41_frequency.md R160). -/
theorem countSym_map {x : Sym} (c : Sym → Nat) : ∀ {l : List Sym}, l.Nodup →
    countSym x (l.map fun y => (y, c y)) =
      if x ∈ l then l.map (fun y => (y, if y = x then c y + 1 else c y)) else l.map (fun y => (y, c y)) ++ [(x, 1)]
  | [], _ => rfl
  | y :: l, h => by
    obtain ⟨hy, hl⟩ := List.nodup_cons.mp h
    simp only [List.map_cons, countSym, countSym_map c hl, List.mem_cons]
    by_cases hxy : x = y
    · subst hxy
      have hmap : l.map (fun y => (y, c y)) = l.map (fun y => (y, if y = x then c y + 1 else c y)) :=
        List.map_congr_left fun z hz => by
          have hne : z ≠ x := fun e => hy (e ▸ hz)
          simp [hne]
      simp [hmap]
    · by_cases hx : x ∈ l <;> simp [hxy, hx, Ne.symm hxy]

theorem nodup_eraseDups (xs : List Sym) : xs.eraseDups.Nodup := by
  induction xs using List.reverseRecOn with
  | nil => simp
  | append_singleton xs x ih =>
    rw [List.eraseDups_append]
    by_cases hx : x ∈ xs <;> simp [List.removeAll, hx, List.eraseDups_cons, List.nodup_append, ih]
    intro y hy e
    exact hx (e ▸ hy)

/-- `freq_table` lists the distinct symbols in order of first appearance with their counts (41_frequency.md R161). -/
theorem freqTable_eq (xs : List Sym) : freqTable xs = xs.eraseDups.map fun x => (x, xs.count x) := by
  induction xs using List.reverseRecOn with
  | nil => rfl
  | append_singleton xs x ih =>
    have hnd : xs.eraseDups.Nodup := (nodup_eraseDups xs)
    have hstep : freqTable (xs ++ [x]) = countSym x (freqTable xs) := by simp [freqTable]
    rw [hstep, ih, countSym_map _ hnd, List.eraseDups_append]
    by_cases hx : x ∈ xs
    · rw [if_pos (by simpa using hx)]
      have : [x].removeAll xs = [] := by simp [List.removeAll, hx]
      rw [this, List.eraseDups_nil, List.append_nil]
      refine List.map_congr_left fun y _ => ?_
      by_cases hy : y = x
      · subst hy; simp
      · simp [hy, Ne.symm hy, List.count_append]
    · rw [if_neg (by simpa using hx)]
      have : [x].removeAll xs = [x] := by simp [List.removeAll, hx]
      rw [this, List.map_append]
      congr 1
      · refine List.map_congr_left fun y hy => ?_
        have hne : x ≠ y := fun e => hx (by rw [e]; exact List.mem_eraseDups.mp hy)
        simp [List.count_append, hne]
      · simp [List.eraseDups_cons, List.count_append, List.count_eq_zero_of_not_mem hx]

theorem eraseDups_length_le (xs : List Sym) {n : Nat} (h : ∀ x ∈ xs, x.toNat < n) : xs.eraseDups.length ≤ n := by
  have h1 : (xs.eraseDups.map BitVec.toNat).Nodup := (nodup_eraseDups xs).map (fun a b h => BitVec.eq_of_toNat_eq h)
  have h2 : (xs.eraseDups.map BitVec.toNat) ⊆ List.range n := by
    intro q hq
    obtain ⟨a, ha, rfl⟩ := List.mem_map.mp hq
    exact List.mem_range.mpr (h a (List.mem_eraseDups.mp ha))
  simpa using (h1.subperm h2).length_le

/-- The counts add up to the number of symbols (41_frequency.md R162). -/
theorem sum_count_eraseDups (xs : List Sym) : (xs.eraseDups.map fun x => xs.count x).sum = xs.length := by
  have h1 : xs.eraseDups.toFinset = xs.toFinset := by ext x; simp
  rw [← List.sum_toFinset _ (nodup_eraseDups xs), h1]
  simp

end Sys2Proof.Machine
end

