-- ==== Sys2Proof/Laws/GoodTree.lean ====
section
/-! SUPPORT. A well-formed tree, said by paths (Safety.GoodTree), is a tree in memory with distinct nodes and distinct symbols. -/

namespace Sys2Proof.Machine

theorem walkPath_append (m : Mems) (r : NodeIx) (a b : List CodeBit) :
    walkPath m r (a ++ b) = (walkPath m r a).bind fun q => walkPath m q b := by
  induction a generalizing r with
  | nil => rfl
  | cons x xs ih =>
    simp only [List.cons_append, walkPath]
    split
    · split
      · rfl
      · exact ih _
    · rfl

theorem BTree.sub_top_inj : ∀ (t : BTree) (a b : List CodeBit) (u v : BTree), t.nodes.Nodup → t.sub a = some u → t.sub b = some v → u.top = v.top → a = b := by
  intro t
  have mem : ∀ (t : BTree) (a : List CodeBit) (u : BTree), t.sub a = some u → u.top ∈ t.nodes := by
    intro t
    induction t with
    | leaf p x => intro a u h; cases a <;> simp [BTree.sub] at h; subst h; simp [BTree.nodes]
    | node p l r hl hr =>
      intro a u h
      cases a with
      | nil => simp [BTree.sub] at h; subst h; simp [BTree.nodes]
      | cons b bs =>
        simp only [BTree.sub] at h
        simp only [BTree.nodes, List.mem_cons, List.mem_append]
        split at h
        · exact .inr (.inl (hl _ _ h))
        · exact .inr (.inr (hr _ _ h))
  induction t with
  | leaf p x => 
    intro a b u v _ h1 h2 _
    cases a <;> cases b <;> simp [BTree.sub] at h1 h2 ⊢
  | node p l r hl hr =>
    intro a b u v hn h1 h2 he
    simp only [BTree.nodes, List.nodup_cons, List.mem_append, not_or, List.nodup_append] at hn
    obtain ⟨⟨hpl, hpr⟩, hln, hrn, hd⟩ := hn
    cases a with
    | nil =>
      cases b with
      | nil => rfl
      | cons b bs =>
        simp only [BTree.sub, Option.some.injEq] at h1 h2
        subst h1
        simp only [BTree.top_node] at he
        exfalso
        split at h2
        · exact hpl (he ▸ mem _ _ _ h2)
        · exact hpr (he ▸ mem _ _ _ h2)
    | cons a as =>
      cases b with
      | nil =>
        simp only [BTree.sub, Option.some.injEq] at h1 h2
        subst h2
        simp only [BTree.top_node] at he
        exfalso
        split at h1
        · exact hpl (he ▸ mem _ _ _ h1)
        · exact hpr (he ▸ mem _ _ _ h1)
      | cons b bs =>
        simp only [BTree.sub] at h1 h2
        have bit : ∀ c : CodeBit, c ≠ 0 → c = 1 := by decide
        split at h1 <;> split at h2 <;> rename_i c1 c2
        · rw [c1, c2, hl _ _ _ _ hln h1 h2 he]
        · exact absurd he (hd _ (mem _ _ _ h1) _ (mem _ _ _ h2))
        · exact absurd he.symm (hd _ (mem _ _ _ h2) _ (mem _ _ _ h1))
        · rw [bit _ c1, bit _ c2, hr _ _ _ _ hrn h1 h2 he]

theorem BTree.codes_sym_inj : ∀ (t : BTree) (a b : List CodeBit) (x : Sym), t.syms.Nodup → (a, x) ∈ t.codes → (b, x) ∈ t.codes → a = b := by
  intro t a b x h ha hb
  have : (t.codes.map (·.2)).Nodup := by rw [t.codes_syms]; exact h
  have := List.inj_on_of_nodup_map this ha hb rfl
  simpa using this

theorem goodTree_of_tree {p : Params} {m : Mems} {t : BTree} (h : t.Matches m (nodeDepth p)) (hn : t.nodes.Nodup) (hs : t.syms.Nodup) : GoodTree p m t.top := by
  constructor
  · rintro q ⟨a, ha⟩
    rw [walkPath_tree a t h] at ha
    obtain ⟨u, hu, rfl⟩ := Option.map_eq_some_iff.mp ha
    have := BTree.sub_matches a t u h hu
    exact u.nodes_inside this _ u.top_mem_nodes
  · rintro q ⟨a, ha⟩
    rw [walkPath_tree a t h] at ha
    obtain ⟨u, hu, rfl⟩ := Option.map_eq_some_iff.mp ha
    have := BTree.sub_matches a t u h hu
    cases u with
    | leaf p x => exact .inl ⟨this.2.1, x, this.2.2⟩
    | node p l r => exact .inr ⟨⟨_, _, this.2.1, this.2.2.1, this.2.2.2.1⟩, this.2.2.2.2.1⟩
  · intro a b q ha hb
    rw [walkPath_tree _ t h] at ha hb
    obtain ⟨u, hu, rfl⟩ := Option.map_eq_some_iff.mp ha
    obtain ⟨v, hv, he⟩ := Option.map_eq_some_iff.mp hb
    exact BTree.sub_top_inj t a b u v hn hu hv he.symm
  · intro a b x ha hb
    rw [codePath_tree h] at ha hb
    exact BTree.codes_sym_inj t a b x hs ha hb

theorem tree_of_goodTree {p : Params} {m : Mems} {r : NodeIx} (h : GoodTree p m r) :
   ∀ (n : Nat) (path : List CodeBit) (q : NodeIx), walkPath m r path = some q → nodeDepth p ≤ path.length + n →
     ∃ t : BTree, t.top = q ∧ t.Matches m (nodeDepth p) := by
  intro n
  induction n with
  | zero =>
    intro path q hq hd
    exfalso
    -- prefixes
    have pre : ∀ k, k ≤ path.length → ∃ q, walkPath m r (path.take k) = some q := by
      intro k hk
      have : path = path.take k ++ path.drop k := (List.take_append_drop k path).symm
      rw [this, walkPath_append] at hq
      cases hw : walkPath m r (path.take k) with
      | none => rw [hw] at hq; simp at hq
      | some x => exact ⟨x, rfl⟩
    choose! f hf using pre
    let l := (List.range (path.length + 1)).map f
    have hnd : l.Nodup := by
      refine List.Nodup.map_on ?_ List.nodup_range
      intro a ha b hb e
      simp only [List.mem_range] at ha hb
      have h1 := hf a (by omega); have h2 := hf b (by omega)
      rw [← e] at h2
      have := h.onePath _ _ _ h1 h2
      have := congrArg List.length this
      simp only [List.length_take] at this
      omega
    have := length_le_of_nodup (d := nodeDepth p) hnd (by
      intro q hq
      obtain ⟨k, hk, rfl⟩ := List.mem_map.mp hq
      exact h.inside _ ⟨_, hf k (by simp at hk; omega)⟩)
    simp [l] at this
    omega
  | succ n ih =>
    intro path q hq hd
    have hin := h.inside q ⟨path, hq⟩
    rcases h.shape q ⟨path, hq⟩ with ⟨h1, x, h2⟩ | ⟨⟨a, b, h1, ha, hb⟩, x, h2⟩
    · exact ⟨.leaf q x, rfl, hin, h1, h2⟩
    · have e0 : walkPath m r (path ++ [0]) = some a := by
        rw [walkPath_append, hq]; simp [walkPath, h1, h2]
      have e1 : walkPath m r (path ++ [1]) = some b := by
        rw [walkPath_append, hq]; simp [walkPath, h1, h2]
      obtain ⟨l, rfl, hl⟩ := ih _ _ e0 (by simp; omega)
      obtain ⟨r, rfl, hr⟩ := ih _ _ e1 (by simp; omega)
      exact ⟨.node q l r, rfl, hin, h1, ha, hb, ⟨x, h2⟩, hl, hr⟩

theorem BTree.mem_nodes_sub : ∀ (t : BTree) (q : NodeIx), q ∈ t.nodes → ∃ a u, t.sub a = some u ∧ u.top = q := by
  intro t
  induction t with
  | leaf p x => intro q h; simp [BTree.nodes] at h; subst h; exact ⟨[], _, rfl, rfl⟩
  | node p l r hl hr =>
    intro q h
    simp only [BTree.nodes, List.mem_cons, List.mem_append] at h
    rcases h with rfl | h | h
    · exact ⟨[], _, rfl, rfl⟩
    · obtain ⟨a, u, h1, h2⟩ := hl q h; exact ⟨0 :: a, u, by simpa [BTree.sub] using h1, h2⟩
    · obtain ⟨a, u, h1, h2⟩ := hr q h; exact ⟨1 :: a, u, by simpa [BTree.sub] using h1, h2⟩

theorem BTree.nodes_nodup_of_sub : ∀ (t : BTree), (∀ a b u v, t.sub a = some u → t.sub b = some v → u.top = v.top → a = b) → t.nodes.Nodup := by
  intro t
  induction t with
  | leaf p x => intro _; simp [BTree.nodes]
  | node p l r hl hr =>
    intro h
    simp only [BTree.nodes, List.nodup_cons, List.mem_append, not_or, List.nodup_append]
    refine ⟨⟨?_, ?_⟩, hl ?_, hr ?_, ?_⟩
    · intro hp
      obtain ⟨a, u, h1, h2⟩ := BTree.mem_nodes_sub l p hp
      have := h [] (0 :: a) (.node p l r) u rfl (by simpa [BTree.sub] using h1) h2.symm
      simp at this
    · intro hp
      obtain ⟨a, u, h1, h2⟩ := BTree.mem_nodes_sub r p hp
      have := h [] (1 :: a) (.node p l r) u rfl (by simpa [BTree.sub] using h1) h2.symm
      simp at this
    · intro a b u v h1 h2 he
      have := h (0 :: a) (0 :: b) u v (by simpa [BTree.sub] using h1) (by simpa [BTree.sub] using h2) he
      simpa using this
    · intro a b u v h1 h2 he
      have := h (1 :: a) (1 :: b) u v (by simpa [BTree.sub] using h1) (by simpa [BTree.sub] using h2) he
      simpa using this
    · intro q hq q' hq' e
      subst e
      obtain ⟨a, u, h1, h2⟩ := BTree.mem_nodes_sub l q hq
      obtain ⟨b, v, h3, h4⟩ := BTree.mem_nodes_sub r q hq'
      have := h (0 :: a) (1 :: b) u v (by simpa [BTree.sub] using h1) (by simpa [BTree.sub] using h3) (h2.trans h4.symm)
      simp at this

theorem BTree.codes_path_nodup : ∀ t : BTree, (t.codes.map (·.1)).Nodup := by
  intro t
  induction t with
  | leaf => simp [BTree.codes]
  | node p l r hl hr =>
    simp only [BTree.codes, List.map_append, List.map_map, Function.comp_def]
    refine List.nodup_append.mpr ⟨?_, ?_, ?_⟩
    · have := hl.map (f := fun e => (0 : CodeBit) :: e) (fun a b h => by simpa using h)
      simpa [Function.comp_def] using this
    · have := hr.map (f := fun e => (1 : CodeBit) :: e) (fun a b h => by simpa using h)
      simpa [Function.comp_def] using this
    · intro a ha b hb
      simp only [List.mem_map] at ha hb
      obtain ⟨x, _, rfl⟩ := ha; obtain ⟨y, _, rfl⟩ := hb
      simp

theorem goodTree_iff_tree {p : Params} {m : Mems} {r : NodeIx} :
   GoodTree p m r ↔ ∃ t : BTree, t.top = r ∧ t.Matches m (nodeDepth p) ∧ t.nodes.Nodup ∧ t.syms.Nodup := by
  constructor
  · intro h
    obtain ⟨t, rfl, hm⟩ := tree_of_goodTree h (nodeDepth p) [] r rfl (by simp)
    refine ⟨t, rfl, hm, BTree.nodes_nodup_of_sub t ?_, ?_⟩
    · intro a b u v ha hb he
      apply h.onePath a b u.top
      · rw [walkPath_tree a t hm, ha]; rfl
      · rw [walkPath_tree b t hm, hb, he]; rfl
    · rw [← t.codes_syms]
      refine List.Nodup.map_on ?_ (List.Nodup.of_map _ (BTree.codes_path_nodup t))
      rintro ⟨a, x⟩ ha ⟨b, y⟩ hb e
      simp only at e
      subst e
      rw [h.oneLeaf a b x ((codePath_tree hm a x).mpr ha) ((codePath_tree hm b x).mpr hb)]
  · rintro ⟨t, rfl, h1, h2, h3⟩
    exact goodTree_of_tree h1 h2 h3

theorem BTree.path_length_lt : ∀ (t : BTree) (path : List CodeBit) (u : BTree), t.sub path = some u → path.length + 1 ≤ t.syms.length := by
  intro t
  have pos : ∀ t : BTree, 0 < t.syms.length := by
    intro t; induction t <;> simp_all [BTree.syms]
  induction t with
  | leaf p x => intro path u h; cases path <;> simp [BTree.sub] at h ⊢; simp [BTree.syms]
  | node p l r hl hr =>
    intro path u h
    cases path with
    | nil => exact pos _
    | cons b bs =>
      simp only [BTree.sub] at h
      simp only [BTree.syms, List.length_append, List.length_cons]
      have := pos l; have := pos r
      split at h
      · have := hl _ _ h; omega
      · have := hr _ _ h; omega

theorem length_le_of_nodup_syms {l : List Sym} {n : Nat} (h : l.Nodup) (hd : ∀ x ∈ l, x.toNat < n) : l.length ≤ n := by
  have h1 : (l.map BitVec.toNat).Nodup := h.map (fun a b h => BitVec.eq_of_toNat_eq h)
  have h2 : (l.map BitVec.toNat) ⊆ List.range n := by
    intro q hq
    obtain ⟨a, ha, rfl⟩ := List.mem_map.mp hq
    exact List.mem_range.mpr (hd a ha)
  simpa using (h1.subperm h2).length_le

end Sys2Proof.Machine
end

