-- ==== Sys2Proof/Laws/Invariant.lean ====
section
/-! SUPPORT. The invariant's condition on one memory: what it says of a read, and that writes in range of values that fit keep it. -/

namespace Sys2Proof.Machine

variable {α : Type} [DecidableEq α]

theorem memOk_iff {m : Mem α} {depth : Nat} {fits : α → Bool} :
    memOk m depth fits = true ↔ m.wf = true ∧ m.blank = none ∧ ∀ c ∈ m.cells, c.1 < depth ∧ fits c.2 = true := by
  unfold memOk
  simp only [Bool.and_eq_true, decide_eq_true_eq, List.all_eq_true]
  tauto

omit [DecidableEq α] in
theorem mem_of_findCell {i : Nat} {v : α} : ∀ {l : List (Nat × α)}, findCell l i = some v → (i, v) ∈ l
  | [], h => by simp [findCell] at h
  | c :: rest, h => by
    simp only [findCell] at h
    split at h
    · rename_i hi
      cases h
      subst hi
      simp
    · split at h
      · cases h
      · exact List.mem_cons_of_mem _ (mem_of_findCell h)

/-- A cell that holds a value lies in the memory, and the value fits. -/
theorem read_memOk {m : Mem α} {depth : Nat} {fits : α → Bool} (h : memOk m depth fits = true) {i : Nat} {v : α}
    (hr : m.read i = some v) : i < depth ∧ fits v = true := by
  obtain ⟨-, hb, hc⟩ := memOk_iff.mp h
  rw [Mem.read, hb, Option.or_none] at hr
  exact hc _ (mem_of_findCell hr)

theorem memOk_write {m : Mem α} {depth : Nat} {fits : α → Bool} (h : memOk m depth fits = true) {i : Nat} {v : α}
    (hi : i < depth) (hv : fits v = true) : memOk (m.write i v) depth fits = true := by
  rw [memOk_iff] at h ⊢
  refine ⟨write_wf _ _ _ h.1, by rw [write_blank]; exact h.2.1, fun c hc => ?_⟩
  rcases mem_write hc with rfl | hc
  · exact ⟨hi, hv⟩
  · exact h.2.2 c hc

theorem memOk_writeList {m : Mem α} {depth : Nat} {fits : α → Bool} (h : memOk m depth fits = true) {i : Nat} {xs : List α}
    (hi : i + xs.length ≤ depth) (hv : ∀ x ∈ xs, fits x = true) : memOk (m.writeList i xs) depth fits = true := by
  rw [memOk_iff] at h ⊢
  refine ⟨writeList_wf _ _ _ h.1, by rw [writeList_blank]; exact h.2.1, fun c hc => ?_⟩
  rcases mem_writeList hc with ⟨h1, h2, h3⟩ | hc
  · exact ⟨by omega, hv _ h3⟩
  · exact h.2.2 c hc

/-- Every memory of the reset state is canonical. -/
theorem reset_wf (p : Params) :
    (State.resetOf p).mems.sym.wf = true ∧ (State.resetOf p).mems.bit.wf = true ∧ (State.resetOf p).mems.out.wf = true ∧
      (State.resetOf p).mems.esym.wf = true ∧ (State.resetOf p).mems.ecnt.wf = true ∧ (State.resetOf p).mems.nodeLr.wf = true ∧
      (State.resetOf p).mems.nodeWt.wf = true ∧ (State.resetOf p).mems.nodeSym.wf = true ∧
      (State.resetOf p).mems.clen.wf = true ∧ (State.resetOf p).mems.cbits.wf = true :=
  ⟨rfl, rfl, rfl, rfl, rfl, rfl, rfl, rfl, rfl, rfl⟩

/-- A host write keeps every memory canonical. -/
theorem viewWrite_wf (p : Params) (m : Mems) (v : View) (i : Nat) (d : Word)
    (h : m.sym.wf = true ∧ m.bit.wf = true ∧ m.esym.wf = true ∧ m.ecnt.wf = true ∧ m.nodeLr.wf = true ∧ m.nodeWt.wf = true ∧
      m.nodeSym.wf = true) :
    let t := viewWrite p m v i d
    t.sym.wf = true ∧ t.bit.wf = true ∧ t.esym.wf = true ∧ t.ecnt.wf = true ∧ t.nodeLr.wf = true ∧ t.nodeWt.wf = true ∧
      t.nodeSym.wf = true := by
  obtain ⟨h1, h2, h3, h4, h5, h6, h7⟩ := h
  cases v <;> simp only [viewWrite] <;> refine ⟨?_, ?_, ?_, ?_, ?_, ?_, ?_⟩ <;> first | assumption | exact write_wf _ _ _ ‹_›

end Sys2Proof.Machine
end

