-- ==== Sys2Proof/Laws/Table.lean ====
section
/-! SUPPORT. The code table GENTAB_BODY leaves, cell by cell. -/

namespace Sys2Proof.Machine

/-- Both memories of the table are canonical. -/
def TableWf (m : Mems) : Prop := m.clen.wf = true ∧ m.cbits.wf = true

theorem writeCode_wf {p : Params} {m : Mems} (e : Sym × List CodeBit) (h : TableWf m) : TableWf (writeCode p m e) :=
  ⟨write_wf _ _ _ h.1, writeList_wf _ _ _ h.2⟩

/-- One code written: CLEN of its symbol is its length, every other CLEN is as before. -/
theorem writeCode_clen {p : Params} {m : Mems} (e : Sym × List CodeBit) (h : TableWf m) (i : Nat) :
    (writeCode p m e).clen.read i = if i = e.1.toNat then some (BitVec.ofNat 16 e.2.length) else m.clen.read i := by
  split
  · rename_i hi; subst hi; exact read_write_same _ _ _ h.1
  · exact read_write_other _ _ h.1 ‹_›

/-- One code written: the CBITS cells of a symbol change only for the code's own symbol, and there only below its length. -/
theorem writeCode_cbits {p : Params} {m : Mems} (e : Sym × List CodeBit) (h : TableWf m) (hl : e.2.length ≤ nMax p) (x : Sym)
    (j : Nat) (hj : j < nMax p) :
    (writeCode p m e).cbits.read (x.toNat * nMax p + j) =
      if x = e.1 then (if h : j < e.2.length then some e.2[j] else m.cbits.read (x.toNat * nMax p + j))
      else m.cbits.read (x.toNat * nMax p + j) := by
  split
  · rename_i hx
    subst hx
    split
    · exact read_writeList_in _ _ _ h.2 j ‹_›
    · exact read_writeList_above _ _ h.2 (by omega)
  · rename_i hx
    have hne : x.toNat ≠ e.1.toNat := fun he => hx (BitVec.eq_of_toNat_eq he)
    rcases Nat.lt_or_ge x.toNat e.1.toNat with hlt | hge
    · refine read_writeList_below _ _ h.2 ?_
      have : (x.toNat + 1) * nMax p ≤ e.1.toNat * nMax p := Nat.mul_le_mul_right _ hlt
      rw [Nat.succ_mul] at this
      omega
    · refine read_writeList_above _ _ h.2 ?_
      have : (e.1.toNat + 1) * nMax p ≤ x.toNat * nMax p := Nat.mul_le_mul_right _ (by omega)
      rw [Nat.succ_mul] at this
      omega

/-- What a list of codes of distinct symbols leaves in a table. -/
theorem foldl_writeCode {p : Params} :
    ∀ (codes : List (Sym × List CodeBit)) (m : Mems), TableWf m → (codes.map (·.1)).Nodup →
      (∀ e ∈ codes, e.2.length ≤ nMax p) →
      TableWf (codes.foldl (writeCode p) m) ∧
      (∀ e ∈ codes, (codes.foldl (writeCode p) m).clen.read e.1.toNat = some (BitVec.ofNat 16 e.2.length) ∧
        ∀ j, j < nMax p → (codes.foldl (writeCode p) m).cbits.read (e.1.toNat * nMax p + j) =
          if h : j < e.2.length then some e.2[j] else m.cbits.read (e.1.toNat * nMax p + j)) ∧
      (∀ x : Sym, x ∉ codes.map (·.1) → (codes.foldl (writeCode p) m).clen.read x.toNat = m.clen.read x.toNat ∧
        ∀ j, j < nMax p → (codes.foldl (writeCode p) m).cbits.read (x.toNat * nMax p + j) = m.cbits.read (x.toNat * nMax p + j)) := by
  intro codes
  induction codes with
  | nil => intro m h _ _; exact ⟨h, by simp, by simp⟩
  | cons c rest ih =>
    intro m h hn hl
    simp only [List.map_cons, List.nodup_cons] at hn
    have hlc : c.2.length ≤ nMax p := hl c (by simp)
    obtain ⟨hw, hin, hout⟩ := ih (writeCode p m c) (writeCode_wf c h) hn.2 (fun e he => hl e (List.mem_cons_of_mem _ he))
    simp only [List.foldl_cons]
    refine ⟨hw, ?_, ?_⟩
    · intro e he
      rcases List.mem_cons.mp he with rfl | he
      · obtain ⟨h1, h2⟩ := hout e.1 hn.1
        refine ⟨by rw [h1, writeCode_clen _ h, if_pos rfl], fun j hj => ?_⟩
        rw [h2 j hj, writeCode_cbits _ h hlc _ _ hj, if_pos rfl]
      · have hne : e.1 ≠ c.1 := fun hc => hn.1 (hc ▸ List.mem_map_of_mem he)
        obtain ⟨h1, h2⟩ := hin e he
        refine ⟨h1, fun j hj => ?_⟩
        rw [h2 j hj, writeCode_cbits _ h hlc _ _ hj, if_neg hne]
    · intro x hx
      simp only [List.map_cons, List.mem_cons, not_or] at hx
      obtain ⟨h1, h2⟩ := hout x hx.2
      refine ⟨?_, fun j hj => ?_⟩
      · rw [h1, writeCode_clen _ h, if_neg (fun he => hx.1 (BitVec.eq_of_toNat_eq he))]
      · rw [h2 j hj, writeCode_cbits _ h hlc _ _ hj, if_neg hx.1]

/-- The table GENTAB_BODY leaves (43_code_table.md R203, R205): each listed symbol has its code, zero beyond its length; every other symbol has none. -/
theorem writeTable_spec {p : Params} {m : Mems} {codes : List (Sym × List CodeBit)} (hn : (codes.map (·.1)).Nodup)
    (hl : ∀ e ∈ codes, e.2.length ≤ nMax p) :
    TableWf (writeTable p m codes) ∧
    (∀ e ∈ codes, (writeTable p m codes).clen.read e.1.toNat = some (BitVec.ofNat 16 e.2.length) ∧
      ∀ j, j < nMax p → (writeTable p m codes).cbits.read (e.1.toNat * nMax p + j) = some (e.2.getD j 0)) ∧
    (∀ x : Sym, x ∉ codes.map (·.1) → (writeTable p m codes).clen.read x.toNat = some 0 ∧
      ∀ j, j < nMax p → (writeTable p m codes).cbits.read (x.toNat * nMax p + j) = some 0) := by
  obtain ⟨h1, h2, h3⟩ := foldl_writeCode (p := p) codes { m with clen := .fill 0, cbits := .fill 0 } ⟨rfl, rfl⟩ hn hl
  refine ⟨h1, fun e he => ⟨(h2 e he).1, fun j hj => ?_⟩, fun x hx => ⟨(h3 x hx).1, (h3 x hx).2⟩⟩
  refine ((h2 e he).2 j hj).trans ?_
  split
  · simp [List.getD_eq_getElem?_getD, ‹j < e.2.length›]
  · rename_i hlt
    simp [List.getD_eq_getElem?_getD, List.getElem?_eq_none (Nat.not_lt.mp hlt)]

theorem foldl_writeCode_frame (p : Params) (codes : List (Sym × List CodeBit)) (m : Mems) :
    codes.foldl (writeCode p) m =
      { m with clen := (codes.foldl (writeCode p) m).clen, cbits := (codes.foldl (writeCode p) m).cbits } := by
  induction codes generalizing m with
  | nil => rfl
  | cons c rest ih => rw [List.foldl_cons, ih]; rfl

/-- Writing the table changes CLEN and CBITS only. -/
theorem writeTable_frame (p : Params) (m : Mems) (codes : List (Sym × List CodeBit)) :
    writeTable p m codes = { m with clen := (writeTable p m codes).clen, cbits := (writeTable p m codes).cbits } := by
  unfold writeTable
  rw [foldl_writeCode_frame]

end Sys2Proof.Machine
end

