-- ==== Sys2Proof/Laws/Outcomes.lean ====
section
/-! SUPPORT. For each command everything it can answer with a next state, with the states written out. -/

namespace Sys2Proof.Machine

/-- Everything FREQ can answer with a next state (41_frequency.md R160): the table of the symbols read, or an error with nothing else changed. -/
theorem execFreq_next {s t : State} (h : exec .freq s = .next t) : (∃ xs, readRange .sym s.mems.sym 0 s.regs.symLen.toNat = .ok xs ∧ s.regs.symLen ≤ s.params.symDepth ∧ t = completeOk (freqBody xs s)) ∨ ∃ e, t = completeError e s := by
  rcases complete_next h with ⟨u, hu, rfl⟩ | ⟨e, u, hu, rfl⟩ <;> rcases freqCmd_cases s with ⟨_, hf⟩ | ⟨hl, ⟨f, _, hf⟩ | ⟨xs, hx, hf⟩⟩ <;> rw [hf] at hu <;> cases hu
  · exact .inl ⟨xs, hx, by simpa using hl, rfl⟩
  · exact .inr ⟨_, rfl⟩

/-- Everything BUILD can answer with a next state (42_tree_build.md R180): the tree of a table that passed the checks, or an error with nothing else changed. -/
theorem execBuild_next {s t : State} (h : exec .build s = .next t) : (∃ u, buildBody s.regs.nEntries.toNat s = .ok u ∧ checkEntries s.mems s.regs.nEntries.toNat 0 [] 0 = .ok none ∧ s.regs.nEntries.toNat ≤ nMax s.params ∧ t = completeOk u) ∨ ∃ e, t = completeError e s := by
  rcases complete_next h with ⟨u, hu, rfl⟩ | ⟨e, u, hu, rfl⟩ <;> rcases buildCmd_cases s with ⟨f, hf⟩ | ⟨_, hf⟩ | ⟨hl, ⟨e, _, hf⟩ | ⟨u, hc, hb, hf⟩⟩ <;> rw [hf] at hu <;> cases hu
  · exact .inl ⟨_, hb, hc, hl, rfl⟩
  · exact .inr ⟨_, rfl⟩
  · exact .inr ⟨_, rfl⟩

/-- Everything GENTAB can answer with a next state (43_code_table.md R203): the table of a tree that passed WF_TREE, or an error with nothing else changed. -/
theorem execGentab_next {s t : State} (h : exec .gentab s = .next t) : (∃ codes, treeCodes s.params s.mems s.regs.root = .ok codes ∧ wfTree s.params s.mems s.regs.root = .ok none ∧ t = completeOk { s with mems := writeTable s.params s.mems codes }) ∨ ∃ e, t = completeError e s := by
  rcases complete_next h with ⟨u, hu, rfl⟩ | ⟨e, u, hu, rfl⟩ <;> rcases gentabCmd_cases s with ⟨f, hf⟩ | ⟨p, _, hf⟩ | ⟨v, hw, hb, hf⟩ <;> rw [hf] at hu <;> cases hu
  · obtain ⟨codes, hc, rfl⟩ := gentabBody_ok hb
    exact .inl ⟨codes, hc, hw, rfl⟩
  · exact .inr ⟨_, rfl⟩

/-- BUILD_BODY writes NODE and TREE only (42_tree_build.md R180). -/
theorem buildTree_frame (es s) : buildTree es s = { s with
   mems := { s.mems with nodeLr := (buildTree es s).mems.nodeLr, nodeWt := (buildTree es s).mems.nodeWt, nodeSym := (buildTree es s).mems.nodeSym }
   regs := { s.regs with root := (buildTree es s).regs.root, nNodes := (buildTree es s).regs.nNodes } } := by
  unfold buildTree; split <;> rfl

/-- Everything ENCODE can answer with a next state (44_encode.md R230, 60_exceptions.md R283): a length error, or the three bodies one after the other and then the emission, ended by `finish` or by `raise`. -/
theorem execEncode_next {s t : State} (h : exec .encode s = .next t) :
  (∃ e, t = completeError e { s with regs := { s.regs with bitLen := 0 } }) ∨
  (∃ xs codes es ts a b s3, readRange .sym s.mems.sym 0 s.regs.symLen.toNat = .ok xs ∧ s.regs.symLen ≤ s.params.symDepth ∧
     readRange .esym (freqBody xs s).mems.esym 0 (freqBody xs s).regs.nEntries.toNat = .ok a ∧ readRange .ecnt (freqBody xs s).mems.ecnt 0 (freqBody xs s).regs.nEntries.toNat = .ok b ∧ es = a.zip b ∧
     treeCodes (buildTree es (freqBody xs s)).params (buildTree es (freqBody xs s)).mems (buildTree es (freqBody xs s)).regs.root = .ok codes ∧
     s3 = { buildTree es (freqBody xs s) with mems := writeTable (buildTree es (freqBody xs s)).params (buildTree es (freqBody xs s)).mems codes } ∧
     ((emitLoop s3.params s3.mems xs 0 0 = .ok (ts, none) ∧ t = completeOk { s3 with
        mems := { s3.mems with bit := s3.mems.bit.writeList 0 ts }
        regs := { s3.regs with bitLen := BitVec.ofNat 32 ts.length } }) ∨
     (∃ e, emitLoop s3.params s3.mems xs 0 0 = .ok (ts, some e) ∧ t = completeError e { s3 with
        mems := { s3.mems with bit := s3.mems.bit.writeList 0 ts }
        regs := { s3.regs with bitLen := 0 } }))) := by
  rcases complete_next h with ⟨u, hu, rfl⟩ | ⟨e, u, hu, rfl⟩
  · rw [encodeCmd, onRaise_finish] at hu
    rcases encodeSteps_cases s with ⟨f, hf⟩ | ⟨_, hf⟩ | ⟨hl, xs, s2, s3, hx, hb, hg, hf⟩ <;> rw [hf] at hu
    · cases hu
    · cases hu
    · obtain ⟨a, b, ha, hb', rfl⟩ := buildBody_ok hb
      obtain ⟨codes, hc, rfl⟩ := gentabBody_ok hg
      rcases emitBits_cases xs _ with ⟨f, he⟩ | ⟨ts, hts, he⟩ | ⟨ts, e, hts, he⟩ <;> rw [he] at hu <;> cases hu
      exact .inr ⟨xs, codes, _, ts, a, b, _, hx, by simpa using hl, ha, hb', rfl, hc, rfl, .inl ⟨hts, rfl⟩⟩
  · rw [encodeCmd, onRaise_raise] at hu
    obtain ⟨u', hu, rfl⟩ := hu
    rcases encodeSteps_cases s with ⟨f, hf⟩ | ⟨_, hf⟩ | ⟨hl, xs, s2, s3, hx, hb, hg, hf⟩ <;> rw [hf] at hu
    · cases hu
    · cases hu; exact .inl ⟨_, rfl⟩
    · obtain ⟨a, b, ha, hb', rfl⟩ := buildBody_ok hb
      obtain ⟨codes, hc, rfl⟩ := gentabBody_ok hg
      rcases emitBits_cases xs _ with ⟨f, he⟩ | ⟨ts, hts, he⟩ | ⟨ts, e, hts, he⟩ <;> rw [he] at hu <;> cases hu
      exact .inr ⟨xs, codes, _, ts, a, b, _, hx, by simpa using hl, ha, hb', rfl, hc, rfl, .inr ⟨_, hts, rfl⟩⟩

/-- Everything DECODE can answer with a next state (45_decode.md R250, 60_exceptions.md R283): the absent tree, an error before the walk, or the walk, ended by `finish` or by `raise`. -/
theorem execDecode_next {s t : State} (h : exec .decode s = .next t) :
  (s.regs.root = NIL ∧ t = completeOk { s with regs := { s.regs with outLen := 0 } }) ∨
  (∃ e, t = completeError e { s with regs := { s.regs with outLen := 0 } }) ∨
  (s.regs.root ≠ NIL ∧ s.regs.bitLen ≤ s.params.bitDepth ∧ wfTree s.params s.mems s.regs.root = .ok none ∧ ∃ xs,
    (decodeLoop s.params s.mems s.regs.root s.regs.bitLen.toNat 0 s.regs.root 0 = .ok (xs, none) ∧ t = completeOk { s with
        mems := { s.mems with out := s.mems.out.writeList 0 xs }
        regs := { s.regs with outLen := BitVec.ofNat 32 xs.length } }) ∨
    ∃ e, decodeLoop s.params s.mems s.regs.root s.regs.bitLen.toNat 0 s.regs.root 0 = .ok (xs, some e) ∧ t = completeError e { s with
        mems := { s.mems with out := s.mems.out.writeList 0 xs }
        regs := { s.regs with outLen := 0 } }) := by
  rcases complete_next h with ⟨u, hu, rfl⟩ | ⟨e, u, hu, rfl⟩
  · rw [decodeCommand, onRaise_finish] at hu
    rcases decodeSteps_cases s with ⟨f, hf⟩ | ⟨hr, hf⟩ | ⟨_, _, hf⟩ | ⟨hr, hb, ⟨p, _, hf⟩ | ⟨hw, hf⟩⟩ <;> rw [hf] at hu
    · cases hu
    · cases hu; exact .inl ⟨hr, rfl⟩
    · cases hu
    · cases hu
    · rcases decodeWalk_cases s with ⟨f, he⟩ | ⟨ts, hts, he⟩ | ⟨ts, e, hts, he⟩ <;> rw [he] at hu <;> cases hu
      exact .inr (.inr ⟨hr, by simpa using hb, hw, ts, .inl ⟨hts, rfl⟩⟩)
  · rw [decodeCommand, onRaise_raise] at hu
    obtain ⟨u', hu, rfl⟩ := hu
    rcases decodeSteps_cases s with ⟨f, hf⟩ | ⟨hr, hf⟩ | ⟨_, _, hf⟩ | ⟨hr, hb, ⟨p, _, hf⟩ | ⟨hw, hf⟩⟩ <;> rw [hf] at hu
    · cases hu
    · cases hu
    · cases hu; exact .inr (.inl ⟨_, rfl⟩)
    · cases hu; exact .inr (.inl ⟨_, rfl⟩)
    · rcases decodeWalk_cases s with ⟨f, he⟩ | ⟨ts, hts, he⟩ | ⟨ts, e, hts, he⟩ <;> rw [he] at hu <;> cases hu
      exact .inr (.inr ⟨hr, by simpa using hb, hw, ts, .inr ⟨_, hts, rfl⟩⟩)

end Sys2Proof.Machine
end

