-- ==== Sys2Proof/Laws/PerInstr.lean ====
section
/-! SUPPORT. One lemma per constructor: the word of a command has the bits its row of the opcode table fixes. -/

namespace Sys2Proof.Laws.TableRow

/-- The encoding of a well-formed command shows its row's match under its row's mask (spec/opcode_table.json). -/
def Statement (i : Instr) : Prop :=
  i.wellFormed = true → ∀ w fixed mask : Word, encode i = .cmd w → tableRow i = some (fixed, mask) → w &&& mask = fixed

theorem of_word {i : Instr} {w fixed mask : Word} (he : encode i = .cmd w) (hr : tableRow i = some (fixed, mask))
    (h : w &&& mask = fixed) : Statement i := by
  intro _ w' fixed' mask' he' hr'
  rw [he] at he'
  rw [hr] at hr'
  cases he'
  cases hr'
  exact h

theorem nop : Statement .nop := of_word rfl rfl (by decide)
theorem freq : Statement .freq := of_word rfl rfl (by decide)
theorem build : Statement .build := of_word rfl rfl (by decide)
theorem gentab : Statement .gentab := of_word rfl rfl (by decide)
theorem encode : Statement .encode := of_word rfl rfl (by decide)
theorem decode : Statement .decode := of_word rfl rfl (by decide)
theorem illegalOp6 : ∀ lo, Statement (.illegalOp6 lo) := fun lo => of_word rfl rfl (by revert lo; decide)
theorem illegalOp8 : ∀ lo, Statement (.illegalOp8 lo) := fun lo => of_word rfl rfl (by revert lo; decide)
theorem illegalRsv : ∀ rsv op, Statement (.illegalRsv rsv op) := fun _ _ => of_word rfl rfl BitVec.and_zero
theorem rd : ∀ offset, Statement (.rd offset) := fun _ _ _ _ _ he _ => by cases he
theorem wr : ∀ offset data, Statement (.wr offset data) := fun _ _ _ _ _ _ he _ => by cases he

end Sys2Proof.Laws.TableRow
end

