-- ==== Sys2Proof/Laws/Step.lean ====
section
/-! SUPPORT. What a step can be. -/

namespace Sys2Proof.Machine

/-- A read of STATUS by the bus: the word, and nothing else changes (40_command_control.md R134, R137). -/
theorem execRd_status (s : State) : exec (.rd 0x18) s = .next { s with rdata := statusWord s } := by
  show execRd 0x18 s = _
  unfold execRd
  rw [show regAt 0x18 = some .status by decide]
  simp [unspecifiedWhileRunning, readReg]

/-- What a step of a WAIT does (30_encoding.md R106): the last read while IDLE, a read that returns BUSY = 1, or the completion waited for. -/
theorem step_wait {s : State} {n : Nat} {rest : List Input} (h : s.pending = .wait n :: rest) :
    (s.core = .idle → step s = exec (.rd 0x18) { s with pending := rest }) ∧
    (∀ w k, s.core = .running w → n = k + 1 → step s = exec (.rd 0x18) { s with pending := .wait k :: rest }) ∧
    (∀ w, s.core = .running w → n = 0 → step s = exec (decodeCmd w) s) := by
  refine ⟨fun hc => ?_, fun w k hc hn => ?_, fun w hc hn => ?_⟩
  · simp [step, nextStep, waitStep, h, hc, rdReg, regOffset, decode, decodeAccess]
  · subst hn
    simp [step, nextStep, waitStep, h, hc, rdReg, regOffset, decode, decodeAccess]
  · subst hn
    simp [step, nextStep, waitStep, coreTurn, h, hc, decode]

/-- Everything a step that answers a next state can be: nothing (IDLE), the completion of the command in flight, a host access, reset, or a step of a WAIT. -/
theorem step_next {s t : State} (h : step s = .next t) :
    (s.core = .idle ∧ s.pending = [] ∧ t = s) ∨
    (∃ rest, s.core = .idle ∧ s.pending = .coreTurn :: rest ∧ t = { s with pending := rest }) ∨
    (∃ w, s.core = .running w ∧ s.pending = [] ∧ exec (decodeCmd w) s = .next t) ∨
    (∃ w rest, s.core = .running w ∧ s.pending = .coreTurn :: rest ∧ exec (decodeCmd w) { s with pending := rest } = .next t) ∨
    (∃ a rest, s.pending = .access (.read .word a) :: rest ∧ execRd a { s with pending := rest } = .next t) ∨
    (∃ a d rest, s.pending = .access (.write .word a d) :: rest ∧ execWr a d { s with pending := rest } = .next t) ∨
    (∃ rest, s.pending = .reset :: rest ∧ t = applyReset { s with pending := rest }) ∨
    (∃ w rest, s.core = .running w ∧ s.pending = .wait 0 :: rest ∧ exec (decodeCmd w) s = .next t) ∨
    (∃ n rest rest', s.pending = .wait n :: rest ∧ t = { s with pending := rest', rdata := statusWord s }) := by
  cases hp : s.pending with
  | nil =>
    cases hc : s.core with
    | idle => exact .inl ⟨rfl, rfl, by simpa [step, nextStep, coreTurn, hp, hc] using h.symm⟩
    | running w => exact .inr (.inr (.inl ⟨w, rfl, rfl, by simpa [step, nextStep, coreTurn, decode, hp, hc] using h⟩))
  | cons x rest =>
    cases x with
    | coreTurn =>
      cases hc : s.core with
      | idle => exact .inr (.inl ⟨rest, rfl, rfl, by simpa [step, nextStep, coreTurn, hp, hc] using h.symm⟩)
      | running w =>
        exact .inr (.inr (.inr (.inl ⟨w, rest, rfl, rfl, by simpa [step, nextStep, coreTurn, decode, hp, hc] using h⟩)))
    | reset =>
      refine .inr (.inr (.inr (.inr (.inr (.inr (.inl ⟨rest, rfl, ?_⟩))))))
      simpa [step, nextStep, hp] using h.symm
    | wait n =>
      obtain ⟨h1, h2, h3⟩ := step_wait hp
      cases hc : s.core with
      | idle =>
        rw [h1 hc, execRd_status] at h
        exact .inr (.inr (.inr (.inr (.inr (.inr (.inr (.inr ⟨n, rest, rest, rfl, by cases h; rw [← hc]; rfl⟩)))))))
      | running w =>
        cases n with
        | zero => exact .inr (.inr (.inr (.inr (.inr (.inr (.inr (.inl ⟨w, rest, rfl, rfl, by rw [← h3 w hc rfl]; exact h⟩)))))))
        | succ k =>
          rw [h2 w k hc rfl, execRd_status] at h
          exact .inr (.inr (.inr (.inr (.inr (.inr (.inr (.inr ⟨k + 1, rest, .wait k :: rest, rfl, by cases h; rw [← hc]; rfl⟩)))))))
    | access a =>
      cases a with
      | read sz off =>
        cases sz with
        | byte => simp [step, nextStep, hp, decode, decodeAccess] at h
        | half => simp [step, nextStep, hp, decode, decodeAccess] at h
        | word =>
          refine .inr (.inr (.inr (.inr (.inl ⟨off, rest, rfl, ?_⟩))))
          simpa [step, nextStep, hp, decode, decodeAccess, exec] using h
      | write sz off d =>
        cases sz with
        | byte => simp [step, nextStep, hp, decode, decodeAccess] at h
        | half => simp [step, nextStep, hp, decode, decodeAccess] at h
        | word =>
          refine .inr (.inr (.inr (.inr (.inr (.inl ⟨off, d, rest, rfl, ?_⟩)))))
          simpa [step, nextStep, hp, decode, decodeAccess, exec] using h

end Sys2Proof.Machine
end

