-- ==== Sys2Proof/Laws/TreeCheck.lean ====
section
/-! SUPPORT. Which node WF_TREE names: the first one its checks fail at, in preorder, left before right. -/

namespace Sys2Proof.Machine

/-! ### The order of paths -/

theorem path_nil_lt (b : CodeBit) (bs : List CodeBit) : ([] : List CodeBit) < b :: bs := List.nil_lt_cons _ _

theorem path_cons_lt {a b : CodeBit} {as bs : List CodeBit} : a :: as < b :: bs ↔ a < b ∨ a = b ∧ as < bs :=
  List.cons_lt_cons_iff

theorem bit_lt_irrefl : ∀ x : CodeBit, ¬ x < x := by decide

theorem bit_lt_asymm : ∀ x y : CodeBit, x < y → ¬ y < x := by decide

theorem path_lt_irrefl : ∀ a : List CodeBit, ¬ a < a
  | [] => List.not_lt_nil _
  | x :: xs => fun h => by
    rcases path_cons_lt.mp h with h | ⟨-, h⟩
    · exact bit_lt_irrefl x h
    · exact path_lt_irrefl xs h

theorem path_lt_asymm : ∀ a b : List CodeBit, a < b → ¬ b < a
  | [], _, _ => List.not_lt_nil _
  | _ :: _, [], h => absurd h (List.not_lt_nil _)
  | x :: xs, y :: ys, h => fun h' => by
    rcases path_cons_lt.mp h with h | ⟨e, h⟩ <;> rcases path_cons_lt.mp h' with h' | ⟨e', h'⟩
    · exact bit_lt_asymm x y h h'
    · exact bit_lt_irrefl x (e' ▸ h)
    · exact bit_lt_irrefl y (e ▸ h')
    · exact path_lt_asymm xs ys h h'

theorem path_lt_total : ∀ a b : List CodeBit, a < b ∨ a = b ∨ b < a
  | [], [] => .inr (.inl rfl)
  | [], _ :: _ => .inl (path_nil_lt _ _)
  | _ :: _, [] => .inr (.inr (path_nil_lt _ _))
  | x :: xs, y :: ys => by
    have bits : ∀ x y : CodeBit, x < y ∨ x = y ∨ y < x := by decide
    rcases bits x y with h | h | h
    · exact .inl (path_cons_lt.mpr (.inl h))
    · rcases path_lt_total xs ys with g | g | g
      · exact .inl (path_cons_lt.mpr (.inr ⟨h, g⟩))
      · exact .inr (.inl (by rw [h, g]))
      · exact .inr (.inr (path_cons_lt.mpr (.inr ⟨h.symm, g⟩)))
    · exact .inr (.inr (path_cons_lt.mpr (.inl h)))

theorem path_append_lt (a : List CodeBit) {b c : List CodeBit} : a ++ b < a ++ c ↔ b < c := by
  induction a with
  | nil => rfl
  | cons x xs ih =>
    rw [List.cons_append, List.cons_append, path_cons_lt, ih]
    exact ⟨fun h => h.elim (fun h => absurd h (bit_lt_irrefl x)) (·.2), fun h => .inr ⟨rfl, h⟩⟩

/-- A path comes before its extensions. -/
theorem path_not_lt_prefix {a b : List CodeBit} (h : a <+: b) : ¬ b < a := by
  obtain ⟨c, rfl⟩ := h
  intro hc
  rw [show a = a ++ [] by simp, List.append_assoc, path_append_lt] at hc
  exact List.not_lt_nil _ hc

/-- Two paths that no path extends both, the first one first: everything below the first comes before everything below the second. -/
def Before (a b : List CodeBit) : Prop := ∀ x y, a ++ x < b ++ y

theorem Before.lt {a b : List CodeBit} (h : Before a b) : a < b := by simpa using h [] []

theorem Before.child {a b : List CodeBit} (h : Before a b) (c : CodeBit) : Before (a ++ [c]) b := fun x y => by
  rw [List.append_assoc]; exact h _ _

theorem before_children (a : List CodeBit) : Before (a ++ [0]) (a ++ [1]) := fun x y => by
  rw [List.append_assoc, List.append_assoc, path_append_lt]
  exact path_cons_lt.mpr (.inl (by decide))

/-- There is only one first failing node. -/
theorem firstBadNode_unique {p : Params} {m : Mems} {r q q' : NodeIx} {a b : List CodeBit} (h : FirstBadNode p m r a q)
    (h' : FirstBadNode p m r b q') : q = q' := by
  rcases path_lt_total a b with hl | rfl | hl
  · exact absurd h.1 (h'.2 a q hl)
  · have := h.1.1.symm.trans h'.1.1
    simpa using this
  · exact absurd h'.1 (h.2 b q' hl)

/-! ### The loop -/

/-- What the loop of WF_TREE has done when paths `done` have been examined and `todo` are on the stack. -/
structure Examined (p : Params) (m : Mems) (r : NodeIx) (vis : List NodeIx) (ss : List Sym) (done : List (List CodeBit))
    (todo : List (List CodeBit × NodeIx)) : Prop where
  walks : ∀ e ∈ todo, walkPath m r e.1 = some e.2
  sorted : todo.Pairwise fun e f => Before e.1 f.1
  cover : ∀ b q, walkPath m r b = some q → b ∈ done ∨ ∃ e ∈ todo, e.1 <+: b
  earlier : ∀ b ∈ done, ∀ e ∈ todo, b < e.1
  visited : ∀ q, q ∈ vis ↔ ∃ b ∈ done, walkPath m r b = some q
  symbols : ∀ x, x ∈ ss ↔ ∃ b ∈ done, CodePath m r b x
  good : ∀ b ∈ done, ∀ c, ¬ BadNode p m r b c
  distinct : vis.Nodup
  inside : ∀ q ∈ vis, q.toNat < nodeDepth p

/-- The paths before the one on top of the stack are the examined ones. -/
theorem Examined.lt_top {p : Params} {m : Mems} {r q c : NodeIx} {vis : List NodeIx} {ss : List Sym} {done : List (List CodeBit)}
    {a b : List CodeBit} {todo : List (List CodeBit × NodeIx)} (h : Examined p m r vis ss done ((a, q) :: todo)) (hb : b < a)
    (hw : walkPath m r b = some c) : b ∈ done := by
  rcases h.cover b c hw with hd | ⟨e, he, y, rfl⟩
  · exact hd
  · rcases List.mem_cons.mp he with rfl | he
    · exact absurd hb (path_not_lt_prefix ⟨y, rfl⟩)
    · have := (List.pairwise_cons.mp h.sorted).1 e he [] y
      rw [List.append_nil] at this
      exact absurd hb (path_lt_asymm _ _ this)

/-- A failing node on top of the stack is the first one. -/
theorem Examined.first {p : Params} {m : Mems} {r q : NodeIx} {vis : List NodeIx} {ss : List Sym} {done : List (List CodeBit)}
    {a : List CodeBit} {todo : List (List CodeBit × NodeIx)} (h : Examined p m r vis ss done ((a, q) :: todo))
    (hb : BadNode p m r a q) : FirstBadNode p m r a q :=
  ⟨hb, fun b c hlt hbad => h.good b (h.lt_top hlt hbad.1) c hbad⟩

/-- A walk goes on from an internal node to its children. -/
theorem walkPath_child {m : Mems} {r q : NodeIx} {a : List CodeBit} {lr : NodeLr} {ns : NodeSym} (hw : walkPath m r a = some q)
    (hlr : m.nodeLr.read q.toNat = some lr) (hns : m.nodeSym.read q.toNat = some ns) (hv : ns.symv = false) (b : CodeBit)
    (bs : List CodeBit) :
    walkPath m r (a ++ b :: bs) = walkPath m (if b = 0 then lr.left else lr.right) bs := by
  rw [walkPath_append, hw]
  simp [walkPath, hlr, hns, hv]

/-- A walk ends at a leaf. -/
theorem walkPath_leaf {m : Mems} {r q : NodeIx} {a : List CodeBit} {ns : NodeSym} (hw : walkPath m r a = some q)
    (hns : m.nodeSym.read q.toNat = some ns) (hv : ns.symv = true) (b : CodeBit) (bs : List CodeBit) :
    walkPath m r (a ++ b :: bs) = none := by
  rw [walkPath_append, hw]
  simp only [Option.bind_some, walkPath, hns]
  split <;> simp_all

/-- WF_TREE's two shape checks (43_code_table.md R201) tell the leaves and internal nodes of 10_state.md R40 from every other cell. -/
theorem shape_checks {m : Mems} {q l r : NodeIx} {x : Sym} {v : Bool} (hlr : m.nodeLr.read q.toNat = some ⟨l, r⟩)
    (hns : m.nodeSym.read q.toNat = some ⟨x, v⟩) :
    (((l == NIL) != (r == NIL)) = true → ¬ (IsLeaf m q ∨ IsInternal m q)) ∧
    ((v != (l == NIL)) = true → ¬ (IsLeaf m q ∨ IsInternal m q)) ∧
    (¬ ((l == NIL) != (r == NIL)) = true → ¬ (v != (l == NIL)) = true → v = true → IsLeaf m q) ∧
    (¬ ((l == NIL) != (r == NIL)) = true → ¬ (v != (l == NIL)) = true → v = false → IsInternal m q) := by
  simp only [IsLeaf, IsInternal, hlr, hns]
  by_cases hl : l = NIL <;> by_cases hr : r = NIL <;> cases v <;> simp_all

/-- The loop of WF_TREE on a written tree (43_code_table.md R201): what it fails at is the first failing node. -/
theorem wfLoop_first {p : Params} {m : Mems} {r : NodeIx} (hw : TreeWritten p m r) :
    ∀ (fuel : Nat) (vis : List NodeIx) (ss : List Sym) (done : List (List CodeBit)) (todo : List (List CodeBit × NodeIx)),
      Examined p m r vis ss done todo → fuel + vis.length = nodeDepth p →
      ∃ res, wfLoop m (nodeDepth p) fuel vis ss (todo.map (·.2)) = .ok res ∧ ∀ q, res = some q → ∃ path, FirstBadNode p m r path q := by
  intro fuel
  induction fuel with
  | zero =>
    intro vis ss done todo h hf
    cases todo with
    | nil => exact ⟨none, by simp [wfLoop], by simp⟩
    | cons e todo =>
      obtain ⟨a, q⟩ := e
      have hq := h.walks (a, q) (by simp)
      refine ⟨some q, by simp [wfLoop], ?_⟩
      rintro _ ⟨⟩
      refine ⟨a, h.first ⟨hq, ?_⟩⟩
      by_cases hd : nodeDepth p ≤ q.toNat
      · exact .inl hd
      · right; left
        have hv : q ∈ vis := by
          by_contra hv
          have := length_le_of_nodup (List.nodup_cons.mpr ⟨hv, h.distinct⟩) (d := nodeDepth p) (by
            intro c hc
            rcases List.mem_cons.mp hc with rfl | hc
            · omega
            · exact h.inside c hc)
          simp at this
          omega
        obtain ⟨b, hb, hwb⟩ := (h.visited q).mp hv
        exact ⟨b, h.earlier b hb (a, q) (by simp), hwb⟩
  | succ n ih =>
    intro vis ss done todo h hf
    cases todo with
    | nil => exact ⟨none, by simp [wfLoop], by simp⟩
    | cons e todo =>
      obtain ⟨a, q⟩ := e
      have hq : walkPath m r a = some q := h.walks (a, q) (by simp)
      have hlt : ∀ b ∈ done, b < a := fun b hb => h.earlier b hb (a, q) (by simp)
      have fin : BadNode p m r a q → ∃ res, (.ok (some q) : Except Fault (Option NodeIx)) = .ok res ∧
          ∀ q', res = some q' → ∃ path, FirstBadNode p m r path q' :=
        fun hb => ⟨_, rfl, by rintro _ ⟨⟩; exact ⟨a, h.first hb⟩⟩
      simp only [List.map_cons, wfLoop]
      split
      · rename_i hd; exact fin ⟨hq, .inl hd⟩
      rename_i hd
      split
      · rename_i hv
        obtain ⟨b, hb, hwb⟩ := (h.visited q).mp (by simpa using hv)
        exact fin ⟨hq, .inr (.inl ⟨b, hlt b hb, hwb⟩)⟩
      rename_i hv
      have hv' : q ∉ vis := by simpa using hv
      have hnv : ∀ b, b < a → walkPath m r b ≠ some q := fun b hb hwb =>
        hv' ((h.visited q).mpr ⟨b, h.lt_top hb hwb, hwb⟩)
      obtain ⟨h1, h2⟩ := hw q ⟨a, hq⟩ (by omega)
      obtain ⟨lr, hlr⟩ := Option.isSome_iff_exists.mp h1
      obtain ⟨ns, hns⟩ := Option.isSome_iff_exists.mp h2
      rw [readCell_ok.mpr hlr, readCell_ok.mpr hns]
      simp only
      have step : ∀ (ss' : List Sym) (todo' : List (List CodeBit × NodeIx)), ¬ BadNode p m r a q →
          (∀ e ∈ todo', walkPath m r e.1 = some e.2 ∧ a < e.1) → (∀ e ∈ todo', ∀ f ∈ todo, Before e.1 f.1) →
          todo'.Pairwise (fun e f => Before e.1 f.1) →
          (∀ b bs c, walkPath m r (a ++ b :: bs) = some c → ∃ e ∈ todo', e.1 <+: a ++ b :: bs) →
          (∀ x, x ∈ ss' ↔ x ∈ ss ∨ CodePath m r a x) →
          ∃ res, wfLoop m (nodeDepth p) n (q :: vis) ss' (todo'.map (·.2) ++ todo.map (·.2)) = .ok res ∧
            ∀ q', res = some q' → ∃ path, FirstBadNode p m r path q' := by
        intro ss' todo' hgood hwk hbt hpw hcov hsym
        rw [← List.map_append]
        have hs := List.pairwise_cons.mp h.sorted
        refine ih _ _ (a :: done) _ ⟨?_, ?_, ?_, ?_, ?_, ?_, ?_, ?_, ?_⟩ (by simp; omega)
        · intro e he
          rcases List.mem_append.mp he with he | he
          · exact (hwk e he).1
          · exact h.walks e (by simp [he])
        · exact List.pairwise_append.mpr ⟨hpw, hs.2, hbt⟩
        · intro b c hb
          rcases h.cover b c hb with hd | ⟨e, he, hpre⟩
          · exact .inl (by simp [hd])
          · rcases List.mem_cons.mp he with rfl | he
            · obtain ⟨y, rfl⟩ := hpre
              cases y with
              | nil => exact .inl (by simp)
              | cons y ys =>
                obtain ⟨e, he, hp⟩ := hcov y ys c hb
                exact .inr ⟨e, by simp [he], hp⟩
            · exact .inr ⟨e, by simp [he], hpre⟩
        · intro b hb e he
          rcases List.mem_cons.mp hb with rfl | hb <;> rcases List.mem_append.mp he with he | he
          · exact (hwk e he).2
          · exact (hs.1 e he).lt
          · rcases path_lt_total b e.1 with hl | he' | hl
            · exact hl
            · exact absurd (hlt b hb) (he' ▸ path_lt_asymm _ _ (hwk e he).2)
            · exact absurd (hlt b hb) (path_lt_asymm _ _ (List.lt_trans (hwk e he).2 hl))
          · exact h.earlier b hb e (by simp [he])
        · intro c
          simp only [List.mem_cons, exists_eq_or_imp, h.visited, hq, Option.some.injEq]
          tauto
        · intro x
          rw [hsym, h.symbols]
          simp only [List.mem_cons, exists_eq_or_imp]
          exact or_comm
        · intro b hb c
          rcases List.mem_cons.mp hb with rfl | hb
          · intro hbad
            have := hbad.1.symm.trans hq
            simp only [Option.some.injEq] at this
            exact hgood (this ▸ hbad)
          · exact h.good b hb c
        · exact List.nodup_cons.mpr ⟨hv', h.distinct⟩
        · intro c hc
          rcases List.mem_cons.mp hc with rfl | hc
          · omega
          · exact h.inside c hc
      obtain ⟨l, rt⟩ := lr
      obtain ⟨x, v⟩ := ns
      obtain ⟨bad1, bad2, ok1, ok2⟩ := shape_checks hlr hns
      split
      · rename_i hsh; exact fin ⟨hq, .inr (.inr (.inl (bad1 hsh)))⟩
      rename_i hsh1
      split
      · rename_i hsh; exact fin ⟨hq, .inr (.inr (.inl (bad2 hsh)))⟩
      rename_i hsh2
      cases v with
      | true =>
        simp only [if_true]
        have hcp : ∀ y, CodePath m r a y ↔ y = x := by
          intro y
          constructor
          · rintro ⟨c, hc, hy⟩
            rw [hq] at hc; cases hc
            rw [hns] at hy; cases hy; rfl
          · rintro rfl; exact ⟨q, hq, hns⟩
        have hleaf : IsLeaf m q := ok1 hsh1 hsh2 rfl
        split
        · rename_i hs
          obtain ⟨b, hb, hbx⟩ := (h.symbols x).mp (by simpa using hs)
          exact fin ⟨hq, .inr (.inr (.inr ⟨b, x, hlt b hb, hbx, (hcp x).mpr rfl⟩))⟩
        · rename_i hs
          refine step (x :: ss) [] ?_ (by simp) (by simp) .nil ?_ ?_
          · rintro ⟨-, hb | ⟨b, hb, hwb⟩ | hb | ⟨b, y, hb, hby, hy⟩⟩
            · exact hd hb
            · exact hnv b hb hwb
            · exact hb (.inl hleaf)
            · rw [(hcp y).mp hy] at hby
              have hwb := hby
              obtain ⟨c, hc, -⟩ := hwb
              exact absurd ((h.symbols x).mpr ⟨b, h.lt_top hb hc, hby⟩) (by simpa using hs)
          · intro b bs c hc
            rw [walkPath_leaf hq hns rfl] at hc
            cases hc
          · intro y
            rw [hcp]
            simp [or_comm]
      | false =>
        simp only [Bool.false_eq_true, if_false]
        have hcp : ∀ y, ¬ CodePath m r a y := by
          rintro y ⟨c, hc, hy⟩
          rw [hq] at hc; cases hc
          rw [hns] at hy; cases hy
        have hint : IsInternal m q := ok2 hsh1 hsh2 rfl
        have hc0 := walkPath_child hq hlr hns rfl 0 []
        have hc1 := walkPath_child hq hlr hns rfl 1 []
        have hs := List.pairwise_cons.mp h.sorted
        have hnil : ∀ c : CodeBit, a < a ++ [c] := fun c => by
          have := (path_append_lt a (b := []) (c := [c])).mpr (path_nil_lt _ _)
          rwa [List.append_nil] at this
        refine step ss [(a ++ [0], l), (a ++ [1], rt)] ?_ ?_ ?_ ?_ ?_ ?_
        · rintro ⟨-, hb | ⟨b, hb, hwb⟩ | hb | ⟨b, y, hb, hby, hy⟩⟩
          · exact hd hb
          · exact hnv b hb hwb
          · exact hb (.inr hint)
          · exact hcp y hy
        · intro e he
          simp only [List.mem_cons, List.not_mem_nil, or_false] at he
          rcases he with rfl | rfl
          · exact ⟨by rw [hc0]; rfl, hnil 0⟩
          · exact ⟨by rw [hc1]; rfl, hnil 1⟩
        · intro e he f hf
          simp only [List.mem_cons, List.not_mem_nil, or_false] at he
          rcases he with rfl | rfl <;> exact (hs.1 f hf).child _
        · simpa using before_children a
        · intro b bs c hc
          have bit : ∀ b : CodeBit, b = 0 ∨ b = 1 := by decide
          rcases bit b with rfl | rfl
          · exact ⟨(a ++ [0], l), by simp, bs, by simp⟩
          · exact ⟨(a ++ [1], rt), by simp, bs, by simp⟩
        · intro y
          simp [hcp]

/-- WF_TREE on a written tree (43_code_table.md R201): it answers, and what it fails at is the first failing node in preorder. -/
theorem wfTree_first {p : Params} {m : Mems} {r : NodeIx} (hr : r ≠ NIL) (hw : TreeWritten p m r) :
    ∃ res, wfTree p m r = .ok res ∧ ∀ q, res = some q → ∃ path, FirstBadNode p m r path q := by
  unfold wfTree
  rw [if_neg hr]
  refine wfLoop_first hw (nodeDepth p) [] [] [] [([], r)] ⟨?_, ?_, ?_, ?_, ?_, ?_, ?_, ?_, ?_⟩ (by simp)
  · simp [walkPath]
  · simp
  · intro b q _; exact .inr ⟨([], r), by simp, by simp⟩
  all_goals simp

end Sys2Proof.Machine
end

