-- ==== Sys2Proof/Laws/Walk.lean ====
section
/-! SUPPORT. The token loop of DECODE, said over trees. -/

namespace Sys2Proof.Machine

/-- BIT holds the bits `bs` as tokens from index `k` on. -/
def HoldsBits (m : Mems) (k : Nat) (bs : List CodeBit) : Prop :=
  ∀ j, (h : j < bs.length) → m.bit.read (k + j) = some (bs[j].setWidth 2)

theorem holdsBits_cons {m : Mems} {k : Nat} {b : CodeBit} {bs : List CodeBit} :
    HoldsBits m k (b :: bs) ↔ m.bit.read k = some (b.setWidth 2) ∧ HoldsBits m (k + 1) bs := by
  constructor
  · intro h
    refine ⟨h 0 (by simp), fun j hj => ?_⟩
    have := h (j + 1) (by simpa using hj)
    rwa [show k + (j + 1) = k + 1 + j by omega] at this
  · rintro ⟨h0, h⟩ j hj
    cases j with
    | zero => simpa using h0
    | succ j =>
      have := h j (by simpa using hj)
      rw [show k + (j + 1) = k + 1 + j by omega]
      exact this

theorem holdsBits_append {m : Mems} {k : Nat} {as bs : List CodeBit} :
    HoldsBits m k (as ++ bs) ↔ HoldsBits m k as ∧ HoldsBits m (k + as.length) bs := by
  induction as generalizing k with
  | nil => simp [HoldsBits]
  | cons a as ih =>
    rw [List.cons_append, holdsBits_cons, holdsBits_cons, ih, List.length_cons, show k + 1 + as.length = k + (as.length + 1) by omega]
    tauto

theorem codeBit_token (b : CodeBit) : invalidToken (b.setWidth 2) = false ∧ ((b.setWidth 2 : Token) = 0 ↔ b = 0) := by
  revert b; decide

/-- A valid token moves the cursor from an internal node to the child it names; at a leaf the symbol is due and the cursor is back at the root (45_decode.md R250, R251). -/
theorem decodeToken_node {m : Mems} {d : Nat} {r q : NodeIx} {l rt : BTree} {x : Sym} (hroot : m.nodeSym.read r.toNat = some ⟨x, false⟩)
    (h : (BTree.node q l rt).Matches m d) (b : CodeBit) (k : Nat) :
    decodeToken m r (b.setWidth 2) k q =
      match (if b = 0 then l else rt) with
      | .leaf _ y => .ok (.ok (some y, r))
      | .node q' _ _ => .ok (.ok (none, q')) := by
  obtain ⟨hv, h0⟩ := codeBit_token b
  obtain ⟨-, hlr, -, -, -, hl, hr⟩ := h
  unfold decodeToken
  rw [if_neg (by simp [hv]), readCell_ok.mpr hroot, readCell_ok.mpr hlr]
  simp only [Bool.false_eq_true, if_false, h0]
  have key : ∀ u : BTree, u.Matches m d → (match readCell .nodeSym m.nodeSym u.top.toNat with
      | .error f => .error f
      | .ok ns => .ok (.ok (if ns.symv = true then (some ns.sym, r) else (none, u.top)))) =
      (match u with
        | .leaf _ y => .ok (.ok (some y, r))
        | .node q' _ _ => .ok (.ok (none, q')) : Except Fault (Except CmdError (Option Sym × NodeIx))) := by
    intro u hu
    cases u with
    | leaf q' y =>
      obtain ⟨-, -, hns⟩ := hu
      simp [BTree.top, readCell_ok.mpr hns]
    | node q' l' r' =>
      obtain ⟨-, -, -, -, ⟨z, hns⟩, -, -⟩ := hu
      simp [BTree.top, readCell_ok.mpr hns]
  have hb : (if b = 0 then l.top else rt.top) = (if b = 0 then l else rt).top := by split <;> rfl
  rw [hb]
  exact key _ (by split <;> assumption)

/-- The loop over the bits of a path that ends at an internal node: only the cursor moves. -/
theorem decodeLoop_inside {p : Params} {m : Mems} {d : Nat} {r : NodeIx} {x : Sym} (hroot : m.nodeSym.read r.toNat = some ⟨x, false⟩) :
    ∀ (bs : List CodeBit) (u : BTree) (q : NodeIx) (l rt : BTree) (n k o : Nat), u.Matches m d → u.sub bs = some (.node q l rt) →
      HoldsBits m k bs → decodeLoop p m r (n + bs.length) k u.top o = decodeLoop p m r n (k + bs.length) q o
  | [], u, q, l, rt, n, k, o, _, hs, _ => by
    simp only [BTree.sub, Option.some.injEq] at hs
    subst hs
    rfl
  | b :: bs, .leaf _ _, _, _, _, _, _, _, _, hs, _ => by simp [BTree.sub] at hs
  | b :: bs, .node q0 l0 r0, q, l, rt, n, k, o, hu, hs, hb => by
    obtain ⟨hb0, hb1⟩ := holdsBits_cons.mp hb
    have htok := decodeToken_node hroot hu b k
    obtain ⟨-, -, -, -, -, hl, hr⟩ := hu
    simp only [BTree.sub] at hs
    have hc : (if b = 0 then l0 else r0).Matches m d := by split <;> assumption
    rw [List.length_cons, show n + (bs.length + 1) = (n + bs.length) + 1 by omega, decodeLoop, readCell_ok.mpr hb0]
    simp only [BTree.top_node, htok]
    cases hchild : (if b = 0 then l0 else r0) with
    | leaf q' y =>
      rw [hchild] at hs
      cases bs <;> simp [BTree.sub] at hs
    | node q' l' r' =>
      rw [hchild] at hs hc
      simp only
      have := decodeLoop_inside (p := p) hroot bs _ q l rt n (k + 1) o hc hs hb1
      rw [BTree.top_node] at this
      rw [this, show k + 1 + bs.length = k + (bs.length + 1) by omega]

/-- The loop over the bits of a code: its symbol is due at the last bit, the cursor back at the root (45_decode.md R251). -/
theorem decodeLoop_code {p : Params} {m : Mems} {d : Nat} {r : NodeIx} {x : Sym} (hroot : m.nodeSym.read r.toNat = some ⟨x, false⟩) :
    ∀ (bs : List CodeBit) (u : BTree) (q : NodeIx) (y : Sym) (n k o : Nat), u.Matches m d → bs ≠ [] → u.sub bs = some (.leaf q y) →
      HoldsBits m k bs →
      decodeLoop p m r (n + bs.length) k u.top o =
        if o = p.outDepth.toNat then .ok ([], some (.outOverflow (k + bs.length - 1)))
        else match decodeLoop p m r n (k + bs.length) r (o + 1) with
          | .error f => .error f
          | .ok (xs, e) => .ok (y :: xs, e)
  | [], _, _, _, _, _, _, _, h, _, _ => absurd rfl h
  | b :: bs, .leaf _ _, _, _, _, _, _, _, _, hs, _ => by simp [BTree.sub] at hs
  | b :: bs, .node q0 l0 r0, q, y, n, k, o, hu, _, hs, hb => by
    obtain ⟨hb0, hb1⟩ := holdsBits_cons.mp hb
    have htok := decodeToken_node hroot hu b k
    obtain ⟨-, -, -, -, -, hl, hr⟩ := hu
    simp only [BTree.sub] at hs
    have hc : (if b = 0 then l0 else r0).Matches m d := by split <;> assumption
    rw [List.length_cons, show n + (bs.length + 1) = (n + bs.length) + 1 by omega, decodeLoop, readCell_ok.mpr hb0]
    simp only [BTree.top_node, htok]
    cases hchild : (if b = 0 then l0 else r0) with
    | leaf q' y' =>
      rw [hchild] at hs
      cases bs with
      | nil =>
        simp only [BTree.sub, Option.some.injEq, BTree.leaf.injEq] at hs
        obtain ⟨rfl, rfl⟩ := hs
        rfl
      | cons c cs => simp [BTree.sub] at hs
    | node q' l' r' =>
      rw [hchild] at hs hc
      cases bs with
      | nil => simp [BTree.sub] at hs
      | cons c cs =>
        have := decodeLoop_code (p := p) hroot (c :: cs) _ q y n (k + 1) o hc (by simp) hs hb1
        rw [BTree.top_node] at this
        simp only [this]
        rw [show k + 1 + (c :: cs).length = k + ((c :: cs).length + 1) by omega]

/-- The loop over codes that fit in OUT: their symbols, and on from the root (45_decode.md R250). -/
theorem decodeLoop_codes {p : Params} {m : Mems} {d : Nat} {t : BTree} {x : Sym} (ht : t.Matches m d)
    (hroot : m.nodeSym.read t.top.toNat = some ⟨x, false⟩) :
    ∀ (l : List (List CodeBit × Sym)) (n k o : Nat), (∀ e ∈ l, e ∈ t.codes) → HoldsBits m k (l.flatMap (·.1)) →
      o + l.length ≤ p.outDepth.toNat →
      decodeLoop p m t.top (n + (l.flatMap (·.1)).length) k t.top o =
        match decodeLoop p m t.top n (k + (l.flatMap (·.1)).length) t.top (o + l.length) with
        | .error f => .error f
        | .ok (xs, e) => .ok (l.map (·.2) ++ xs, e)
  | [], n, k, o, _, _, _ => by
    simp only [List.flatMap_nil, List.length_nil, Nat.add_zero, List.map_nil, List.nil_append]
    cases decodeLoop p m t.top n k t.top o <;> rfl
  | (bs, y) :: l, n, k, o, hl, hb, ho => by
    obtain ⟨q, hq⟩ := (t.mem_codes bs y).mp (hl _ (by simp))
    have hne : bs ≠ [] := by
      rintro rfl
      simp only [BTree.sub, Option.some.injEq] at hq
      subst hq
      obtain ⟨-, -, hy⟩ := ht
      rw [BTree.top_leaf, hy] at hroot
      cases hroot
    simp only [List.flatMap_cons, List.length_append, List.length_cons] at hb ho ⊢
    obtain ⟨hb1, hb2⟩ := holdsBits_append.mp hb
    rw [show n + (bs.length + (l.flatMap (·.1)).length) = (n + (l.flatMap (·.1)).length) + bs.length by omega,
      decodeLoop_code hroot bs t q y _ k o ht hne hq hb1, if_neg (by omega),
      decodeLoop_codes ht hroot l n (k + bs.length) (o + 1) (fun e he => hl e (by simp [he])) hb2 (by omega)]
    rw [show k + bs.length + (l.flatMap (·.1)).length = k + (bs.length + (l.flatMap (·.1)).length) by omega,
      show o + 1 + l.length = o + (l.length + 1) by omega]
    cases decodeLoop p m t.top n (k + (bs.length + (l.flatMap (·.1)).length)) t.top (o + (l.length + 1)) with
    | error f => rfl
    | ok v => rfl

/-- With a leaf root every `0` token is a code of the root's symbol (45_decode.md R252). -/
theorem decodeLoop_leaf {p : Params} {m : Mems} {r : NodeIx} {x : Sym} (hroot : m.nodeSym.read r.toNat = some ⟨x, true⟩) :
    ∀ (j n k o : Nat), (∀ i, i < j → m.bit.read (k + i) = some 0) → o + j ≤ p.outDepth.toNat →
      decodeLoop p m r (n + j) k r o =
        match decodeLoop p m r n (k + j) r (o + j) with
        | .error f => .error f
        | .ok (xs, e) => .ok (List.replicate j x ++ xs, e)
  | 0, n, k, o, _, _ => by
    simp only [Nat.add_zero, List.replicate_zero, List.nil_append]
    cases decodeLoop p m r n k r o <;> rfl
  | j + 1, n, k, o, hb, ho => by
    have h0 : m.bit.read k = some 0 := by simpa using hb 0 (by omega)
    rw [show n + (j + 1) = (n + j) + 1 by omega, decodeLoop, readCell_ok.mpr h0]
    simp only [decodeToken, readCell_ok.mpr hroot, invalidToken]
    simp only [show ((0 : Token) = 2) = False by simp, show ((0 : Token) = 3) = False by simp,
      show ((0 : Token) = 1) = False by simp, decide_false, Bool.or_false, Bool.false_eq_true, if_false, if_true]
    rw [if_neg (by omega), decodeLoop_leaf hroot j n (k + 1) (o + 1)
      (fun i hi => by have := hb (i + 1) (by omega); rwa [show k + (i + 1) = k + 1 + i by omega] at this) (by omega)]
    rw [show k + 1 + j = k + (j + 1) by omega, show o + 1 + j = o + (j + 1) by omega]
    cases decodeLoop p m r n (k + (j + 1)) r (o + (j + 1)) with
    | error f => rfl
    | ok v => rfl

end Sys2Proof.Machine
end

