-- ==== Sys2Proof/Tests/Slice0.lean ====
section
/-! SUPPORT. The model's own tests: expected results are the spec's worked examples and vectors (spec/95_test_vectors.md), or written out from its encodings. The second half gives every statement with hypotheses a state that meets them. -/

namespace Sys2Proof.Tests

open Sys2Proof Sys2Proof.Machine

/-! ### Helpers -/

/-- A step or an instruction answers a next state with a property. -/
def nextAnd (o : Host.Outcome State Fault Refusal) (f : State → Bool) : Bool :=
  match o with
  | .next t => f t
  | .fault _ => false
  | .refused _ => false

theorem nextAnd_iff {o : Host.Outcome State Fault Refusal} {f : State → Bool} :
    nextAnd o f = true ↔ ∃ t, o = .next t ∧ f t = true := by
  cases o <;> simp [nextAnd]

/-- A memory with cells 0, 1, … written. -/
def cells {α : Type} [DecidableEq α] (xs : List α) : Mem α := Mem.unspecified.writeList 0 xs

/-- The first cells of a memory hold these values. -/
def shows {α : Type} [DecidableEq α] (m : Mem α) (xs : List α) : Bool := (List.range xs.length).map m.read == xs.map some

/-- A narrow build: four symbols, seven nodes. -/
def tiny : Params := ⟨2, 4, 8, 4⟩

/-- The reset state of a build with an input in SYM. -/
def withInput (p : Params) (xs : List Sym) : State :=
  let s := State.resetOf p
  { s with mems := { s.mems with sym := cells xs }, regs := { s.regs with symLen := BitVec.ofNat 32 xs.length } }

/-- The reset state of a build with an entry table. -/
def withEntries (p : Params) (es : List (Sym × Word)) : State :=
  let s := State.resetOf p
  { s with
    mems := { s.mems with esym := cells (es.map (·.1)), ecnt := cells (es.map (·.2)) }
    regs := { s.regs with nEntries := BitVec.ofNat 32 es.length } }

/-- The reset state of a build with nodes, a root and tokens in BIT. -/
def withTree (p : Params) (ns : List (NodeLr × NodeSym)) (root : NodeIx) (bits : List Token) : State :=
  let s := State.resetOf p
  { s with
    mems := { s.mems with
      nodeLr := cells (ns.map (·.1))
      nodeWt := cells (ns.map fun _ => 0)
      nodeSym := cells (ns.map (·.2))
      bit := cells bits }
    regs := { s.regs with root := root, nNodes := BitVec.ofNat 16 ns.length, bitLen := BitVec.ofNat 32 bits.length } }

def leafOf (x : Sym) : NodeLr × NodeSym := (⟨NIL, NIL⟩, ⟨x, true⟩)
def innerOf (l r : NodeIx) : NodeLr × NodeSym := (⟨l, r⟩, ⟨0, false⟩)

/-- The tree of program P2: leaves 0, 1, 2, then 3 = (L1, R2) and 4 = (L0, R3). -/
def threeLeaves (x y z : Sym) : List (NodeLr × NodeSym) := [leafOf x, leafOf y, leafOf z, innerOf 1 2, innerOf 0 3]

/-! ### Well-formedness and encoding -/

theorem test_wellFormed_refuses_illegalRsv_zero : (Instr.illegalRsv 0 1).wellFormed = false := by decide
theorem test_wellFormed_accepts_illegalRsv : (Instr.illegalRsv 1 1).wellFormed = true := by decide

/-! Words written out as RSV (28 bits) and OP (4 bits), 30_encoding.md R100, R102, R103. -/
theorem test_decode_nop : decodeCmd 0b0000000000000000000000000000_0000 = .nop := by decide
theorem test_decode_freq : decodeCmd 0b0000000000000000000000000000_0001 = .freq := by decide
theorem test_decode_build : decodeCmd 0b0000000000000000000000000000_0010 = .build := by decide
theorem test_decode_gentab : decodeCmd 0b0000000000000000000000000000_0011 = .gentab := by decide
theorem test_decode_encode : decodeCmd 0b0000000000000000000000000000_0100 = .encode := by decide
theorem test_decode_decode : decodeCmd 0b0000000000000000000000000000_0101 = .decode := by decide
theorem test_decode_op6 : decodeCmd 0b0000000000000000000000000000_0110 = .illegalOp6 0 := by decide
theorem test_decode_op15 : decodeCmd 0b0000000000000000000000000000_1111 = .illegalOp8 7 := by decide
theorem test_decode_rsv : decodeCmd 0b1000000000000000000000000000_0100 = .illegalRsv 0x8000000 4 := by decide
theorem test_decode_rd : decode (.bus (.read .word 0x18)) = .ok (.rd 0x18) := by decide
theorem test_decode_wr : decode (.bus (.write .word 0x14 4)) = .ok (.wr 0x14 4) := by decide
theorem test_decode_half : decode (.bus (.read .half 0x18)) = .error .subWordAccess := by decide
theorem test_tableWord : decodeTableWord 32 4 = some .encode := by decide

/-- LOAD, CLRST and WAIT of 30_encoding.md R106. -/
theorem test_load_expands :
    expandLine (.load .sym 0 [0x42]) =
      [.access (.write .word 0x34 0x100), .access (.write .word 0x38 0), .access (.write .word 0x3C 0x42)] := by decide
theorem test_clrst_expands : expandLine .clrst = [.access (.write .word 0x18 0x1E)] := by decide

/-- WAIT of 30_encoding.md R106: a read that returns BUSY = 1 goes on waiting, one that returns BUSY = 0 is the last. -/
theorem test_wait_goes_on :
    nextAnd (step { acceptCommand 0 State.reset with pending := hostProgram [.wait 1, .rd (.reg .id)] })
      (fun t => t.rdata = 1 && t.pending = [.wait 0, .access (.read .word 0)]) = true := by decide
theorem test_wait_ends :
    nextAnd (step { State.reset with pending := hostProgram [.wait 1, .rd (.reg .id)] })
      (fun t => t.rdata = 0 && t.pending = [.access (.read .word 0)]) = true := by decide

/-! ### One instruction -/

/-- V-CTL-2. -/
theorem test_nop : nextAnd (exec .nop (acceptCommand 0 State.reset)) (fun t => statusWord t = 0x2) = true := by decide

/-- V-FREQ-5, SYM_W = 2. -/
theorem test_freq_order :
    nextAnd (exec .freq (withInput ⟨2, 8, 8, 4⟩ [3, 0, 3, 1, 3]))
      (fun t => t.regs.nEntries = 3 && shows t.mems.esym [3, 0, 1] && shows t.mems.ecnt [3, 1, 1]) = true := by decide

/-- V-FREQ-3. -/
theorem test_freq_badLength :
    nextAnd (exec .freq { State.reset with regs := { Regs.reset with symLen := 4097 } })
      (fun t => t.regs.errCode = 5 && t.regs.errInfo = 0x1001 && t.regs.nEntries = 0) = true := by decide

/-- V-BUILD-6: the entry order, not the symbol, breaks the tie. -/
theorem test_build_ties :
    nextAnd (exec .build (withEntries .default [(5, 3), (9, 3), (7, 3), (1, 3)]))
      (fun t => readReg t .tree = 0x00070006 && t.mems.nodeLr.read 4 = some ⟨0, 1⟩ && t.mems.nodeLr.read 6 = some ⟨4, 5⟩ &&
        t.mems.nodeWt.read 6 = some 12) = true := by decide

/-- V-BUILD-10. -/
theorem test_build_overflow :
    nextAnd (exec .build (withEntries .default [(0x41, 0xFFFFFFFF), (0x42, 1)]))
      (fun t => t.regs.errCode = 7 && t.regs.errInfo = 1 && t.regs.root = NIL) = true := by decide

/-- V-GEN-13. -/
theorem test_gentab_codes :
    nextAnd (exec .gentab (withTree .default (threeLeaves 0x78 0x79 0x7A) 4 []))
      (fun t => t.mems.clen.read 0x78 = some 1 && t.mems.clen.read 0x7A = some 2 && t.mems.clen.read 0 = some 0 &&
        t.mems.cbits.read 0x7900 = some 1 && t.mems.cbits.read 0x7901 = some 0) = true := by decide

/-- V-GEN-11: a shared child. -/
theorem test_gentab_sharedChild :
    nextAnd (exec .gentab (withTree .default [leafOf 0x41, innerOf 0 0] 1 []))
      (fun t => t.regs.errCode = 8 && t.regs.errInfo = 0) = true := by decide

/-- V-ENC-12, SYM_W = 1. -/
theorem test_encode_bits :
    nextAnd (exec .encode (withInput ⟨1, 4, 8, 4⟩ [1, 1, 0, 1]))
      (fun t => shows t.mems.bit [1, 1, 0, 1] && t.regs.bitLen = 4 && t.mems.nodeLr.read 2 = some ⟨1, 0⟩) = true := by decide

/-- V-ENC-11, BIT_DEPTH = 3. -/
theorem test_encode_overflow :
    nextAnd (exec .encode (withInput ⟨8, 4, 3, 4⟩ [0x41, 0x41, 0x41, 0x41]))
      (fun t => t.regs.errCode = 9 && t.regs.errInfo = 3 && shows t.mems.bit [0, 0, 0] && t.regs.bitLen = 0) = true := by decide

/-- V-DEC-16. -/
theorem test_decode_walk :
    nextAnd (exec .decode (withTree .default (threeLeaves 0x78 0x79 0x7A) 4 [1, 0, 0, 1, 1]))
      (fun t => t.regs.outLen = 3 && shows t.mems.out [0x79, 0x78, 0x7A]) = true := by decide

/-- V-DEC-7: a leaf root and a `1` token. -/
theorem test_decode_leafOne :
    nextAnd (exec .decode (withTree .default [leafOf 0x41] 0 [0, 1, 0]))
      (fun t => t.regs.errCode = 3 && t.regs.errInfo = 1 && shows t.mems.out [0x41] && t.regs.outLen = 0) = true := by decide

/-- V-CTL-1, V-CTL-3, V-CTL-4. -/
theorem test_illegalOp6 :
    nextAnd (exec (.illegalOp6 0) (acceptCommand 6 State.reset))
      (fun t => statusWord t = 0x00060406 && t.regs.errInfo = 6) = true := by decide
theorem test_illegalOp8 :
    nextAnd (exec (.illegalOp8 7) (acceptCommand 15 State.reset))
      (fun t => statusWord t = 0x000F0406 && t.regs.errInfo = 15) = true := by decide
theorem test_illegalRsv :
    nextAnd (exec (.illegalRsv 1 1) (acceptCommand 0x11 State.reset))
      (fun t => statusWord t = 0x00010406 && t.regs.errInfo = 0x11) = true := by decide

/-- V-ACC-3: a reserved memory. -/
theorem test_rd_reservedMem :
    nextAnd (exec (.rd 0x3C) { State.reset with regs := { Regs.reset with accMem := 12, autoInc := true, accIndex := 5 } })
      (fun t => t.rdata = 0 && t.regs.accErr && t.regs.accIndex = 6) = true := by decide

/-- V-ACC-12: the offset bits [1:0] are ignored. -/
theorem test_rd_tree : nextAnd (exec (.rd 0x33) State.reset) (fun t => t.rdata = 0x0000FFFF) = true := by decide

/-- V-ACC-8. -/
theorem test_wr_nodeSym :
    nextAnd (exec (.wr 0x3C 0x80000141) { State.reset with regs := { Regs.reset with accMem := 7, autoInc := true } })
      (fun t => t.mems.nodeSym.read 0 = some ⟨0x41, true⟩ && t.regs.accIndex = 1) = true := by decide

/-- V-CTL-7: a dropped write. -/
theorem test_wr_dropped :
    nextAnd (exec (.wr 0x20 5) (acceptCommand 1 (withInput .default [0x41, 0x42])))
      (fun t => statusWord t = 0x00010009 && t.regs.symLen = 2) = true := by decide

/-! ### States that meet the statements' hypotheses -/

/-- The invariant's conditions, as one test, for an IDLE state with OUT_LEN 0 and no error. -/
def restsWell (s : State) : Bool :=
  s.params.legal && memOk s.mems.sym s.params.symDepth.toNat (fun x => x.toNat < nsym s.params) &&
    memOk s.mems.bit s.params.bitDepth.toNat (fun t => t ≠ 3) &&
    memOk s.mems.out s.params.outDepth.toNat (fun x => x.toNat < nsym s.params) &&
    memOk s.mems.esym (nMax s.params) (fun x => x.toNat < nsym s.params) && memOk s.mems.ecnt (nMax s.params) (fun _ => true) &&
    memOk s.mems.nodeLr (nodeDepth s.params) (fun _ => true) && memOk s.mems.nodeWt (nodeDepth s.params) (fun _ => true) &&
    memOk s.mems.nodeSym (nodeDepth s.params) (fun n => n.sym.toNat < nsym s.params) && tableOk s.params s.mems &&
    s.regs.outLen = 0 && s.core = .idle && s.regs.errCode = 0 && !s.regs.err && s.regs.errInfo = 0

theorem inv_of_restsWell {s : State} (h : restsWell s = true) : Inv s := by
  simp only [restsWell, Bool.and_eq_true, decide_eq_true_eq, Bool.not_eq_true'] at h
  obtain ⟨⟨⟨⟨⟨⟨⟨⟨⟨⟨⟨⟨⟨⟨h1, h2⟩, h3⟩, h4⟩, h5⟩, h6⟩, h7⟩, h8⟩, h9⟩, h10⟩, h11⟩, h12⟩, h13⟩, h14⟩, h15⟩ := h
  exact ⟨h1, h2, h3, h4, h5, h6, h7, h8, h9, h10, by simp [h11], by simp [h11], by simp [h12], by simp [h13], by simp [h14],
    by simp [h15]⟩

theorem goodTree_of_check {p : Params} {m : Mems} {r : NodeIx} (hr : r ≠ NIL) (h : wfTree p m r = .ok none) : GoodTree p m r :=
  goodTree_iff_tree.mpr ((wfTree_ok_iff_tree hr).mp h)

theorem not_goodTree_of_check {p : Params} {m : Mems} {r q : NodeIx} (hr : r ≠ NIL) (h : wfTree p m r = .ok (some q)) :
    ¬ GoodTree p m r := by
  intro hg
  rw [(wfTree_ok_iff_tree hr).mpr (goodTree_iff_tree.mp hg)] at h
  cases h

theorem holds_of_shows {α : Type} [DecidableEq α] {m : Mem α} {xs : List α} (h : shows m xs = true) : Holds m 0 xs := by
  intro k hk
  have := congrArg (·[k]?) (beq_iff_eq.mp h)
  simpa [hk] using this

/-- A state on its way through a command. -/
def midway (w : Word) (inputs : List Input) : State := { acceptCommand w (State.resetOf tiny) with pending := inputs }

/-- An IDLE state with inputs to come and the W1C flags and both interrupt enables set. -/
def flagged (inputs : List Input) : State :=
  { State.resetOf tiny with
    regs := { Regs.reset with
      done := true, err := true, reject := true, accErr := true, errCode := 10, errInfo := 9, doneIe := true, errIe := true }
    pending := inputs }

/-- An IDLE state with the access port on cell `i` of memory view `v`, and these memories. -/
def atCell (v : BitVec 4) (i : Word) (m : Mems) : State :=
  { State.resetOf tiny with regs := { Regs.reset with accMem := v, accIndex := i, autoInc := true }, mems := m }

/-- Every memory of the narrow build with its last cell written. -/
def lastCells : Mems where
  sym := Mem.unspecified.write 3 3
  bit := Mem.unspecified.write 7 2
  out := Mem.unspecified.write 3 3
  esym := Mem.unspecified.write 3 3
  ecnt := Mem.unspecified.write 3 0xFFFFFFFF
  nodeLr := Mem.unspecified.write 6 ⟨5, NIL⟩
  nodeWt := Mem.unspecified.write 6 0xFFFFFFFF
  nodeSym := Mem.unspecified.write 6 ⟨3, true⟩
  clen := (Mem.fill 0).write 3 3
  cbits := (Mem.fill 0).write 15 1

theorem witness_DecodeInvertsEncode :
    (Instr.illegalRsv 1 0).wellFormed = true ∧ (Instr.illegalRsv 0xFFFFFFF 15).wellFormed = true ∧
      decode (.cmd 0x10) = .ok (.illegalRsv 1 0) ∧ decode (.bus (.write .word 0xFF 1)) = .ok (.wr 0xFF 1) := by decide

theorem witness_CommandSelectedByWholeWord : 6 ≤ (6 : Word).toNat ∧ 6 ≤ (0xFFFFFFFF : Word).toNat := by decide

theorem witness_SubWordAccessRefused :
    (flagged [.access (.read .byte 0)]).pending = .access (.read .byte 0) :: [] ∧
      (flagged [.access (.read .half 0xFE)]).pending = .access (.read .half 0xFE) :: [] ∧
      (flagged [.access (.write .byte 0xFF 1)]).pending = .access (.write .byte 0xFF 1) :: [] ∧
      (flagged [.access (.write .half 0x14 4)]).pending = .access (.write .half 0x14 4) :: [] := by decide

theorem witness_StepRunsDecodedInstruction :
    ((flagged [.access (.read .word 0x18)]).pending = .access (.read .word 0x18) :: [] ∧
        decode (.bus (.read .word 0x18)) = .ok (.rd 0x18)) ∧
      ((midway 4 [.coreTurn]).pending = .coreTurn :: [] ∧ (midway 4 [.coreTurn]).core = .running 4) ∧
      ((midway 4 []).pending = [] ∧ (midway 4 []).core = .running 4) ∧
      ((flagged [.coreTurn]).pending = .coreTurn :: [] ∧ (flagged [.coreTurn]).core = .idle) ∧
      ((flagged []).pending = [] ∧ (flagged []).core = .idle) ∧
      ((flagged [.wait 0]).pending = .wait 0 :: [] ∧ (flagged [.wait 0]).core = .idle) ∧
      ((midway 4 [.wait 1]).pending = .wait (0 + 1) :: [] ∧ (midway 4 [.wait 1]).core = .running 4) ∧
      (midway 4 [.wait 0]).pending = .wait 0 :: [] ∧ (midway 4 [.wait 0]).core = .running 4 := by decide

theorem witness_ResetAtAnyTime : (midway 4 [.reset, .coreTurn]).pending = .reset :: [.coreTurn] := by decide

theorem witness_UnmappedOffsets : 0x44 ≤ (0x44 : BitVec 8).toNat ∧ 0x44 ≤ (0xFF : BitVec 8).toNat := by decide

/-- Every register is reached at its offset, and with a[1:0] set. -/
theorem witness_offsets (r : Reg) : regAt (regOffset r) = some r ∧ regAt (regOffset r ||| 3) = some r := by
  cases r <;> decide

theorem witness_StatusReadLayout : regAt 0x18 = some .status ∧ regAt 0x1B = some .status := by decide

theorem witness_IdleReadsReturnRegisters (r : Reg) : (flagged []).core = .idle ∧ regAt (regOffset r) = some r :=
  ⟨rfl, (witness_offsets r).1⟩

theorem witness_WrittenRegistersReadBack (r : Reg) : (flagged []).core = .idle ∧ regAt (regOffset r ||| 3) = some r :=
  ⟨rfl, (witness_offsets r).2⟩

theorem witness_IdleWritesToReadOnlyIgnored (r : Reg) : regAt (regOffset r) = some r := (witness_offsets r).1

theorem witness_StatusWriteClearsNamedFlags : regAt 0x18 = some .status := by decide

theorem witness_WritesWhileRunning (r : Reg) :
    (midway 1 []).core = .running 1 ∧ regAt (regOffset r) = some r ∧ 0x44 ≤ (0x44 : BitVec 8).toNat :=
  ⟨rfl, (witness_offsets r).1, by decide⟩

theorem witness_ReadsWhileRunning (r : Reg) :
    (midway 1 []).core = .running 1 ∧ regAt (regOffset r) = some r ∧ 0x44 ≤ (0xFC : BitVec 8).toNat :=
  ⟨rfl, (witness_offsets r).1, by decide⟩

/-- Each view at its last cell. -/
theorem witness_PortReadReturnsCell :
    regAt 0x3C = some .accData ∧ (atCell 0 3 lastCells).core = .idle ∧
      (3 < tiny.symDepth.toNat ∧ lastCells.sym.read 3 = some 3) ∧ (7 < tiny.bitDepth.toNat ∧ lastCells.bit.read 7 = some 2) ∧
      (3 < tiny.outDepth.toNat ∧ lastCells.out.read 3 = some 3) ∧ (3 < nMax tiny ∧ lastCells.esym.read 3 = some 3) ∧
      (3 < nMax tiny ∧ lastCells.ecnt.read 3 = some 0xFFFFFFFF) ∧
      (6 < nodeDepth tiny ∧ lastCells.nodeLr.read 6 = some ⟨5, NIL⟩) ∧
      (6 < nodeDepth tiny ∧ lastCells.nodeWt.read 6 = some 0xFFFFFFFF) ∧
      (6 < nodeDepth tiny ∧ lastCells.nodeSym.read 6 = some ⟨3, true⟩) ∧ (3 < nsym tiny ∧ lastCells.clen.read 3 = some 3) ∧
      (15 < nsym tiny * nMax tiny ∧ lastCells.cbits.read 15 = some 1) ∧
      (∀ v i, (atCell v i lastCells).regs.accMem = v ∧ (atCell v i lastCells).regs.accIndex = i) :=
  ⟨by decide, by decide, by decide, by decide, by decide, by decide, by decide, by decide, by decide, by decide, by decide,
    by decide, fun _ _ => ⟨rfl, rfl⟩⟩

/-- Each writable view at its last cell, in a state that meets the invariant. -/
theorem witness_PortWriteStoresCell :
    ∀ c ∈ [(0, View.sym, 3), (1, .bit, 7), (3, .esym, 3), (4, .ecnt, 3), (5, .nodeLr, 6), (6, .nodeWt, 6), (7, .nodeSym, 6)],
      Inv (atCell c.1 c.2.2 lastCells) ∧ (atCell c.1 c.2.2 lastCells).core = .idle ∧ regAt 0x3C = some .accData ∧
        viewAt (atCell c.1 c.2.2 lastCells).regs.accMem = some c.2.1 ∧ c.2.1 ≠ .out ∧ c.2.1 ≠ .clen ∧ c.2.1 ≠ .cbits ∧
        (atCell c.1 c.2.2 lastCells).regs.accIndex.toNat < viewDepth tiny c.2.1 := by
  have h : ∀ c ∈ [(0, View.sym, 3), (1, .bit, 7), (3, .esym, 3), (4, .ecnt, 3), (5, .nodeLr, 6), (6, .nodeWt, 6), (7, .nodeSym, 6)],
      restsWell (atCell c.1 c.2.2 lastCells) = true ∧ viewAt c.1 = some c.2.1 ∧ c.2.1 ≠ .out ∧ c.2.1 ≠ .clen ∧ c.2.1 ≠ .cbits ∧
        (c.2.2 : Word).toNat < viewDepth tiny c.2.1 := by decide
  intro c hc
  obtain ⟨h1, h2⟩ := h c hc
  exact ⟨inv_of_restsWell h1, rfl, by decide, h2⟩

theorem witness_RefusedPortAccess :
    (atCell 0 0 lastCells).core = .idle ∧ regAt 0x3C = some .accData ∧ 10 ≤ (atCell 10 0 lastCells).regs.accMem.toNat ∧
      10 ≤ (atCell 15 0 lastCells).regs.accMem.toNat ∧
      (viewAt (atCell 1 8 lastCells).regs.accMem = some .bit ∧ viewDepth tiny .bit ≤ (atCell 1 8 lastCells).regs.accIndex.toNat) ∧
      (viewAt (atCell 9 16 lastCells).regs.accMem = some .cbits ∧
        viewDepth tiny .cbits ≤ (atCell 9 16 lastCells).regs.accIndex.toNat) ∧
      (atCell 2 0 lastCells).regs.accMem = 2 ∧ (atCell 8 0 lastCells).regs.accMem = 8 ∧ (atCell 9 0 lastCells).regs.accMem = 9 := by
  decide

/-- Each view at its last cell, in a build in which nothing has been written. -/
theorem witness_PortReadOfUnwrittenCellFaults_port :
    regAt 0x3C = some .accData ∧
      (∀ v i, (atCell v i Mems.reset).core = .idle ∧ (atCell v i Mems.reset).regs.accMem = v ∧
        (atCell v i Mems.reset).regs.accIndex = i) ∧
      (3 < tiny.symDepth.toNat ∧ Mems.reset.sym.read 3 = none) ∧ (7 < tiny.bitDepth.toNat ∧ Mems.reset.bit.read 7 = none) ∧
      (3 < tiny.outDepth.toNat ∧ Mems.reset.out.read 3 = none) ∧ (3 < nMax tiny ∧ Mems.reset.esym.read 3 = none) ∧
      (3 < nMax tiny ∧ Mems.reset.ecnt.read 3 = none) ∧ (6 < nodeDepth tiny ∧ Mems.reset.nodeLr.read 6 = none) ∧
      (6 < nodeDepth tiny ∧ Mems.reset.nodeWt.read 6 = none) ∧ (6 < nodeDepth tiny ∧ Mems.reset.nodeSym.read 6 = none) ∧
      (3 < nsym tiny ∧ Mems.reset.clen.read 3 = none) ∧ (15 < nsym tiny * nMax tiny ∧ Mems.reset.cbits.read 15 = none) :=
  ⟨by decide, fun _ _ => ⟨rfl, rfl, rfl⟩, by decide, by decide, by decide, by decide, by decide, by decide, by decide, by decide,
    by decide, by decide⟩

/-- An input whose first cell, and whose last cell, is unwritten; a table without its second count; roots at the last node; a tree whose only token is unwritten. -/
theorem witness_PortReadOfUnwrittenCellFaults_command :
    (let s := { withInput tiny [] with regs := { Regs.reset with symLen := 1 } };
      s.regs.symLen ≤ tiny.symDepth ∧ ([] : List Sym).length < s.regs.symLen.toNat ∧ Holds s.mems.sym 0 [] ∧ s.mems.sym.read 0 = none) ∧
      (let s := { withInput tiny [1, 2, 1] with regs := { Regs.reset with symLen := 4 } };
        s.regs.symLen ≤ tiny.symDepth ∧ 3 < s.regs.symLen.toNat ∧ Holds s.mems.sym 0 [1, 2, 1] ∧ s.mems.sym.read 3 = none) ∧
      (let s := { withEntries tiny [(1, 2)] with regs := { Regs.reset with nEntries := 2 } };
        s.regs.nEntries.toNat ≤ nMax tiny ∧ 1 < s.regs.nEntries.toNat ∧ Holds s.mems.esym 0 [1] ∧ Holds s.mems.ecnt 0 [2] ∧
          ValidEntries [(1, 2)] ∧ s.mems.ecnt.read 1 = none) ∧
      (let s := { withTree tiny [] 6 [] with regs := { Regs.reset with root := 6, bitLen := 8 } };
        s.regs.root.toNat < nodeDepth tiny ∧ s.mems.nodeLr.read 6 = none ∧ s.regs.bitLen ≤ tiny.bitDepth) ∧
      (let s := { withTree tiny [leafOf 3] 0 [] with regs := { Regs.reset with root := 0, bitLen := 1 } };
        s.regs.root ≠ 0xFFFF ∧ GoodTree tiny s.mems 0 ∧ s.regs.bitLen ≤ tiny.bitDepth ∧ s.regs.bitLen ≠ 0 ∧ s.mems.bit.read 0 = none) :=
  ⟨⟨by decide, by decide, holds_of_shows (by decide), by decide⟩, ⟨by decide, by decide, holds_of_shows (by decide), by decide⟩,
    ⟨by decide, by decide, holds_of_shows (by decide), holds_of_shows (by decide), ⟨by simp, by decide, by decide⟩, by decide⟩,
    by decide, by decide, goodTree_of_check (by decide) rfl, by decide, by decide, by decide⟩

theorem witness_AcceptanceOfCommand : (flagged []).core = .idle ∧ regAt 0x14 = some .cmd ∧ regAt 0x17 = some .cmd := by decide

/-- Every command completes on some state. -/
theorem witness_CompletionReport :
    ∀ i ∈ [Instr.nop, .freq, .build, .gentab, .encode, .decode, .illegalOp6 1, .illegalOp8 0, .illegalRsv 1 0],
      isCommand i = true ∧ ∃ t, exec i (State.resetOf tiny) = .next t := by
  have h : ∀ i ∈ [Instr.nop, .freq, .build, .gentab, .encode, .decode, .illegalOp6 1, .illegalOp8 0, .illegalRsv 1 0],
      isCommand i = true ∧ nextAnd (exec i (State.resetOf tiny)) (fun _ => true) = true := by decide
  intro i hi
  obtain ⟨h1, h2⟩ := h i hi
  obtain ⟨t, ht, -⟩ := nextAnd_iff.mp h2
  exact ⟨h1, t, ht⟩

/-- Each command changes its outputs on some state. -/
theorem witness_CommandsWriteOnlyTheirOutputs :
    (∃ t, exec .freq (withInput tiny [1, 2, 1]) = .next t ∧ decide (t.regs.nEntries = 2) = true) ∧
      (∃ t, exec .build (withEntries tiny [(1, 2), (2, 1)]) = .next t ∧ decide (t.regs.root = 2) = true) ∧
      (∃ t, exec .gentab (withTree tiny (threeLeaves 1 2 3) 4 []) = .next t ∧ decide (t.mems.clen.read 1 = some 1) = true) ∧
      (∃ t, exec .encode (withInput tiny [1, 2, 1]) = .next t ∧ decide (t.regs.bitLen = 3) = true) ∧
      (∃ t, exec .decode (withTree tiny (threeLeaves 1 2 3) 4 [0, 1, 1]) = .next t ∧ decide (t.regs.outLen = 2) = true) :=
  ⟨nextAnd_iff.mp (by decide), nextAnd_iff.mp (by decide), nextAnd_iff.mp (by decide), nextAnd_iff.mp (by decide),
    nextAnd_iff.mp (by decide)⟩

theorem witness_RunningCommandGetsToComplete :
    (midway 1 [.access (.read .word 0x18)]).core = .running 1 ∧
      ∀ x ∈ (midway 1 [.access (.read .word 0x18)]).pending, ∃ a i, x = .access a ∧ decode (.bus a) = .ok i := by
  refine ⟨rfl, fun x hx => ?_⟩
  simp only [midway, List.mem_singleton] at hx
  exact ⟨_, .rd 0x18, hx, rfl⟩

/-- A WAIT that reads BUSY = 1 once, and one that does not; the completion after it answers a next state. -/
theorem witness_RunningCommandGetsToComplete_wait :
    (midway 1 [.wait 1]).core = .running 1 ∧ (midway 1 [.wait 1]).pending = .wait 1 :: [] ∧
      (midway 1 [.wait 0]).pending = .wait 0 :: [] ∧ ∃ t, exec (decodeCmd 1) (midway 1 [.wait 0]) = .next t ∧ t.core = .idle := by
  obtain ⟨t, h, ht⟩ : ∃ t, exec (decodeCmd 1) (midway 1 [.wait 0]) = .next t ∧ decide (t.core = .idle) = true :=
    nextAnd_iff.mp (by decide)
  exact ⟨rfl, rfl, rfl, t, h, of_decide_eq_true ht⟩

theorem witness_RunningCommandIsIsolated :
    (midway 1 [.access (.write .word 0x20 5)]).core = .running 1 ∧
      (midway 1 [.access (.write .word 0x20 5)]).pending = .access (.write .word 0x20 5) :: [] ∧
      ∃ t, step (midway 1 [.access (.write .word 0x20 5)]) = .next t ∧ t.regs.reject = true :=
  ⟨rfl, rfl, nextAnd_iff.mp (by decide)⟩

/-- DONE and ERR set; REJECT and ACC_ERR set, the latter by a read and by a write. -/
theorem witness_StatusFieldsChangeOnlyWhereStated_set :
    ((midway 6 []).regs.done = false ∧ (midway 6 []).regs.err = false ∧
        ∃ t, step (midway 6 []) = .next t ∧ (t.regs.done && t.regs.err) = true) ∧
      ((midway 1 [.access (.write .word 0x20 1)]).regs.reject = false ∧
        ∃ t, step (midway 1 [.access (.write .word 0x20 1)]) = .next t ∧ t.regs.reject = true) ∧
      (∃ t, step { atCell 15 0 Mems.reset with pending := [.access (.read .word 0x3C)] } = .next t ∧ t.regs.accErr = true) ∧
      ∃ t, step { atCell 2 0 Mems.reset with pending := [.access (.write .word 0x3C 1)] } = .next t ∧ t.regs.accErr = true :=
  ⟨⟨rfl, rfl, nextAnd_iff.mp (by decide)⟩, ⟨rfl, nextAnd_iff.mp (by decide)⟩, nextAnd_iff.mp (by decide), nextAnd_iff.mp (by decide)⟩

/-- REJECT and ACC_ERR cleared by a STATUS write and by reset. -/
theorem witness_StatusFieldsChangeOnlyWhereStated_bus :
    (flagged []).regs.reject = true ∧ (flagged []).regs.accErr = true ∧
      (∃ t, step (flagged [.access (.write .word 0x18 0x18)]) = .next t ∧ (!t.regs.reject && !t.regs.accErr) = true) ∧
      ∃ t, step (flagged [.reset]) = .next t ∧ (!t.regs.reject && !t.regs.accErr) = true :=
  ⟨rfl, rfl, nextAnd_iff.mp (by decide), nextAnd_iff.mp (by decide)⟩

/-- Each flag cleared in each way the statement names, and each code changed. -/
theorem witness_StatusFieldsChangeOnlyWhereStated :
    (flagged []).regs.done = true ∧ (flagged []).regs.err = true ∧
      (∃ t, step (flagged [.access (.write .word 0x18 6)]) = .next t ∧ (!t.regs.done && !t.regs.err) = true) ∧
      (∃ t, step (flagged [.access (.write .word 0x14 0xF)]) = .next t ∧
        (!t.regs.done && !t.regs.err && t.regs.errCode == 0 && t.regs.lastCmd == 15) = true) ∧
      (∃ t, step (flagged [.reset]) = .next t ∧ (!t.regs.done && !t.regs.err && t.regs.errCode == 0) = true) ∧
      ∃ t, step (midway 6 []) = .next t ∧ (t.regs.errCode == 4) = true :=
  ⟨rfl, rfl, nextAnd_iff.mp (by decide), nextAnd_iff.mp (by decide), nextAnd_iff.mp (by decide), nextAnd_iff.mp (by decide)⟩

/-- irq rises and falls. -/
theorem witness_InterruptChangesOnlyWhereStated :
    (flagged []).irq = true ∧ (∃ t, step (flagged [.access (.write .word 0x18 6)]) = .next t ∧ (!t.irq) = true) ∧
      (∃ t, step (flagged [.access (.write .word 0x40 0)]) = .next t ∧ (!t.irq) = true) ∧
      ({ midway 0 [] with regs := { (midway 0 []).regs with doneIe := true } } : State).irq = false ∧
      ∃ t, step { midway 0 [] with regs := { (midway 0 []).regs with doneIe := true } } = .next t ∧ t.irq = true :=
  ⟨by decide, nextAnd_iff.mp (by decide), nextAnd_iff.mp (by decide), by decide, nextAnd_iff.mp (by decide)⟩

theorem witness_MemoriesChangeOnlyByTheirWriters :
    (∃ t, step { acceptCommand 4 (withInput tiny [1, 2, 1]) with pending := [.coreTurn] } = .next t ∧
        decide (t.mems.bit ≠ Mem.unspecified ∧ t.mems.esym ≠ Mem.unspecified ∧ t.mems.nodeLr ≠ Mem.unspecified ∧
          t.mems.clen ≠ Mem.unspecified) = true) ∧
      (∃ t, step (acceptCommand 5 (withTree tiny (threeLeaves 1 2 3) 4 [0])) = .next t ∧
        decide (t.mems.out ≠ Mem.unspecified ∧ t.regs.outLen ≠ 0) = true) ∧
      (∃ t, step { atCell 0 0 Mems.reset with pending := [.access (.write .word 0x3C 1)] } = .next t ∧
        decide (t.mems.sym ≠ Mem.unspecified) = true) ∧
      ∃ t, step { atCell 0 0 Mems.reset with pending := [.access (.write .word 0x20 1)] } = .next t ∧
        decide (t.regs.symLen ≠ 0) = true :=
  ⟨nextAnd_iff.mp (by decide), nextAnd_iff.mp (by decide), nextAnd_iff.mp (by decide), nextAnd_iff.mp (by decide)⟩

theorem witness_ParametersNeverChange : ∃ t, step (midway 4 [.reset]) = .next t ∧ decide (t.params = tiny) = true :=
  nextAnd_iff.mp (by decide)

/-- The widest and the narrowest legal build. -/
theorem witness_ResetMeetsInvariant :
    (⟨15, 0xFFFFFFFF, 0xFFFFFFFF, 0xFFFFFFFF⟩ : Params).legal = true ∧ (⟨1, 1, 1, 1⟩ : Params).legal = true := by decide

theorem witness_StepKeepsInvariant :
    Inv { withTree tiny (threeLeaves 1 2 3) 4 [0, 1, 1] with pending := [.access (.write .word 0x14 5), .coreTurn] } ∧
      ∃ t, step { withTree tiny (threeLeaves 1 2 3) 4 [0, 1, 1] with pending := [.access (.write .word 0x14 5), .coreTurn] } =
        .next t ∧ decide (t.core = .running 5) = true :=
  ⟨inv_of_restsWell (by decide), nextAnd_iff.mp (by decide)⟩

theorem witness_LengthBeyondCapacity :
    tiny.symDepth < (5 : Word) ∧ nMax tiny < (5 : Word).toNat ∧ (4 : NodeIx) ≠ 0xFFFF ∧ tiny.bitDepth < (9 : Word) := by decide

/-- What the statements about an input in SYM ask: the invariant, the length, the cells. -/
theorem witness_input :
    Inv (withInput tiny [1, 2, 1, 3]) ∧ (withInput tiny [1, 2, 1, 3]).regs.symLen ≤ tiny.symDepth ∧
      (withInput tiny [1, 2, 1, 3]).regs.symLen.toNat = [(1 : Sym), 2, 1, 3].length ∧
      Holds (withInput tiny [1, 2, 1, 3]).mems.sym 0 [1, 2, 1, 3] :=
  ⟨inv_of_restsWell (by decide), by decide, by decide, holds_of_shows (by decide)⟩

theorem witness_FreqCountsInOrderOfFirstAppearance : ∃ s xs, Inv s ∧ s.regs.symLen ≤ s.params.symDepth ∧
    s.regs.symLen.toNat = xs.length ∧ Holds s.mems.sym 0 xs := ⟨_, _, witness_input⟩

theorem witness_FreqTableBuildsWithoutError :
    Inv (withInput tiny [1, 2, 1, 3]) ∧ ∃ t, exec .freq (withInput tiny [1, 2, 1, 3]) = .next t ∧ decide (t.regs.errCode = 0) = true :=
  ⟨witness_input.1, nextAnd_iff.mp (by decide)⟩

theorem entriesAre_of {s : State} {es : List (Sym × Word)}
    (h : (s.regs.nEntries.toNat == es.length && shows s.mems.esym (es.map (·.1)) && shows s.mems.ecnt (es.map (·.2))) = true) :
    EntriesAre s es := by
  simp only [Bool.and_eq_true, beq_iff_eq] at h
  exact ⟨h.1.1, holds_of_shows h.1.2, holds_of_shows h.2⟩

/-- The first entry bad in each of the three ways, after one that is not. -/
theorem witness_BuildReportsFirstBadEntry :
    (EntriesAre (withEntries tiny [(1, 2), (2, 0)]) [(1, 2), (2, 0)] ∧ ([(1, 2), (2, 0)] : List (Sym × Word))[1].2 = 0) ∧
      (EntriesAre (withEntries tiny [(1, 2), (1, 1)]) [(1, 2), (1, 1)] ∧ ([(1, 2), (1, 1)] : List (Sym × Word))[0].1 = 1) ∧
      (EntriesAre (withEntries tiny [(1, 0xFFFFFFFF), (2, 1)]) [(1, 0xFFFFFFFF), (2, 1)] ∧
        2 ^ 32 ≤ totalCount [(1, 0xFFFFFFFF), (2, 1)] ∧ ¬ 2 ^ 32 ≤ totalCount ([(1, 0xFFFFFFFF), (2, 1)].take 1)) ∧
      2 ≤ nMax tiny :=
  ⟨⟨entriesAre_of (by decide), by decide⟩, ⟨entriesAre_of (by decide), by decide⟩, ⟨entriesAre_of (by decide), by decide⟩, by decide⟩

/-- A full table with the largest total. -/
theorem witness_BuildMergesLeastKeys :
    let es : List (Sym × Word) := [(3, 1), (0, 1), (1, 0xFFFFFFFC), (2, 1)]
    Inv (withEntries tiny es) ∧ EntriesAre (withEntries tiny es) es ∧ ValidEntries es ∧ es.length = 4 ∧ 1 ≤ 4 ∧ 4 ≤ nMax tiny :=
  ⟨inv_of_restsWell (by decide), entriesAre_of (by decide), ⟨by simp, by decide, by decide⟩, rfl, by decide, by decide⟩

theorem witness_BuildOfNoneAndOne :
    (withEntries tiny []).regs.nEntries = 0 ∧ Inv (withEntries tiny [(3, 0xFFFFFFFF)]) ∧
      EntriesAre (withEntries tiny [(3, 0xFFFFFFFF)]) [(3, 0xFFFFFFFF)] ∧ (0xFFFFFFFF : Word) ≠ 0 :=
  ⟨by decide, inv_of_restsWell (by decide), entriesAre_of (by decide), by decide⟩

theorem witness_BuiltTreeIsWellFormed :
    let es : List (Sym × Word) := [(3, 1), (0, 1), (1, 0xFFFFFFFC), (2, 1)]
    Inv (withEntries tiny es) ∧ EntriesAre (withEntries tiny es) es ∧ ValidEntries es ∧ es ≠ [] ∧ es.length ≤ nMax tiny ∧
      ∃ t, exec .build (withEntries tiny es) = .next t ∧ decide (t.regs.root = 6) = true :=
  ⟨inv_of_restsWell (by decide), entriesAre_of (by decide), ⟨by simp, by decide, by decide⟩, by decide, by decide,
    nextAnd_iff.mp (by decide)⟩

theorem witness_TreeCheckAcceptsExactlyGoodTrees : tiny.legal = true ∧ (4 : NodeIx) ≠ 0xFFFF := by decide

/-- The three-leaf tree in the narrow build, with tokens in BIT. -/
theorem threeLeaves_good (bits : List Token) (hl : bits.length ≤ 8) (hb : restsWell (withTree tiny (threeLeaves 1 2 3) 4 bits) = true) :
    Inv (withTree tiny (threeLeaves 1 2 3) 4 bits) ∧ (withTree tiny (threeLeaves 1 2 3) 4 bits).regs.root ≠ 0xFFFF ∧
      GoodTree tiny (withTree tiny (threeLeaves 1 2 3) 4 bits).mems 4 ∧
      IsInternal (withTree tiny (threeLeaves 1 2 3) 4 bits).mems 4 ∧
      (withTree tiny (threeLeaves 1 2 3) 4 bits).regs.bitLen ≤ tiny.bitDepth := by
  refine ⟨inv_of_restsWell hb, by simp [withTree], goodTree_of_check (by decide) rfl, ⟨⟨0, 3, rfl, by decide, by decide⟩, 0, rfl⟩, ?_⟩
  simp only [withTree, tiny, BitVec.le_def, BitVec.toNat_ofNat]
  exact Nat.le_trans (Nat.mod_le _ _) hl

theorem witness_TreePathsAreShort :
    Inv (withTree tiny (threeLeaves 1 2 3) 4 []) ∧ GoodTree tiny (withTree tiny (threeLeaves 1 2 3) 4 []).mems 4 ∧
      walkPath (withTree tiny (threeLeaves 1 2 3) 4 []).mems 4 [1, 1] = some 2 := by
  obtain ⟨h1, -, h2, -, -⟩ := threeLeaves_good [] (by decide) (by decide)
  exact ⟨h1, h2, rfl⟩

/-- An internal root, a leaf root, a code and a symbol without one. -/
theorem witness_GentabWritesTheCodes :
    (Inv (withTree tiny (threeLeaves 1 2 3) 4 []) ∧ GoodTree tiny (withTree tiny (threeLeaves 1 2 3) 4 []).mems 4 ∧
        IsInternal (withTree tiny (threeLeaves 1 2 3) 4 []).mems 4 ∧
        CodePath (withTree tiny (threeLeaves 1 2 3) 4 []).mems 4 [1, 1] 3) ∧
      (Inv (withTree tiny [leafOf 3] 0 []) ∧ GoodTree tiny (withTree tiny [leafOf 3] 0 []).mems 0 ∧
        (withTree tiny [leafOf 3] 0 []).mems.nodeSym.read 0 = some ⟨3, true⟩) := by
  obtain ⟨h1, -, h2, h3, -⟩ := threeLeaves_good [] (by decide) (by decide)
  exact ⟨⟨h1, h2, h3, 2, rfl, rfl⟩, inv_of_restsWell (by decide), goodTree_of_check (by decide) rfl, rfl⟩

/-- Symbol 0 of the narrow build has no code in the three-leaf tree. -/
theorem witness_GentabWritesTheCodes_noCode :
    (∀ path, ¬ CodePath (withTree tiny (threeLeaves 1 2 3) 4 []).mems 4 path 0) ∧ (0 : Sym).toNat < nsym tiny := by
  have h : ∀ i : Nat, ∀ v, (withTree tiny (threeLeaves 1 2 3) 4 []).mems.nodeSym.read i ≠ some ⟨0, v⟩ ∨ v = false := by
    intro i v
    cases v
    · exact .inr rfl
    · left
      rcases i with _ | _ | _ | _ | _ | i
      iterate 5 (exact (by decide))
      intro hh; cases hh
  refine ⟨fun path hp => ?_, by decide⟩
  obtain ⟨p, -, hs⟩ := hp
  rcases h p.toNat true with h | h
  · exact h hs
  · cases h

theorem witness_GentabOfAbsentTree : (State.resetOf tiny).regs.root = 0xFFFF := by decide

/-- V-GEN-11's tree in the narrow build. -/
theorem witness_GentabRefusesBadTree :
    let s := withTree tiny [leafOf 1, innerOf 0 0] 1 []
    s.params.legal = true ∧ s.regs.root ≠ 0xFFFF ∧ TreeWritten s.params s.mems s.regs.root ∧ ¬ GoodTree s.params s.mems s.regs.root := by
  have hreach : ∀ (path : List CodeBit) (q : NodeIx),
      (walkPath (withTree tiny [leafOf 1, innerOf 0 0] 1 []).mems 0 path = some q → q = 0) ∧
        (walkPath (withTree tiny [leafOf 1, innerOf 0 0] 1 []).mems 1 path = some q → q = 0 ∨ q = 1) := by
    intro path q
    cases path with
    | nil => exact ⟨fun h => (Option.some.inj h).symm, fun h => .inr (Option.some.inj h).symm⟩
    | cons b bs =>
      have h0 : ∀ bs, walkPath (withTree tiny [leafOf 1, innerOf 0 0] 1 []).mems 0 bs = some q → q = 0 := by
        intro bs h
        cases bs with
        | nil => exact (Option.some.inj h).symm
        | cons _ _ => cases h
      refine ⟨h0 _, fun h => .inl (h0 bs ?_)⟩
      have he : walkPath (withTree tiny [leafOf 1, innerOf 0 0] 1 []).mems 1 (b :: bs) =
          walkPath (withTree tiny [leafOf 1, innerOf 0 0] 1 []).mems (if b = 0 then 0 else 0) bs := rfl
      rw [he, ite_self] at h
      exact h
  refine ⟨by decide, by decide, ?_, not_goodTree_of_check (q := 0) (by decide) rfl⟩
  rintro q ⟨path, hp⟩ -
  rcases (hreach path q).2 hp with rfl | rfl <;> exact ⟨rfl, rfl⟩

/-- There the first failing node is the shared child, and no length is out of range. -/
theorem witness_GentabRefusesBadTree_first :
    let s := withTree tiny [leafOf 1, innerOf 0 0] 1 []
    (∃ path, FirstBadNode s.params s.mems s.regs.root path 0) ∧ s.regs.bitLen ≤ s.params.bitDepth := by
  intro s
  obtain ⟨-, hr, hw, -⟩ := witness_GentabRefusesBadTree
  obtain ⟨res, h1, h2⟩ := wfTree_first (p := s.params) (m := s.mems) (r := s.regs.root) hr hw
  have h3 : wfTree s.params s.mems s.regs.root = .ok (some 0) := rfl
  rw [h3] at h1
  cases h1
  exact ⟨h2 0 rfl, by decide⟩

theorem witness_CodesArePrefixFree :
    Inv (withTree tiny (threeLeaves 1 2 3) 4 []) ∧ (2 : Sym) ≠ 3 ∧
      ∃ t, exec .gentab (withTree tiny (threeLeaves 1 2 3) 4 []) = .next t ∧
        decide (t.regs.errCode = 0 ∧ t.mems.clen.read (2 : Sym).toNat = some 2 ∧ t.mems.clen.read (3 : Sym).toNat = some 2) = true :=
  ⟨(threeLeaves_good [] (by decide) (by decide)).1, by decide, nextAnd_iff.mp (by decide)⟩

theorem witness_EncodeIsTheComposite : ∃ s xs, Inv s ∧ s.regs.symLen ≤ s.params.symDepth ∧
    s.regs.symLen.toNat = xs.length ∧ Holds s.mems.sym 0 xs := ⟨_, _, witness_input⟩

/-- The codes of 1, 2, 1, 3 fit in eight bits. -/
theorem witness_EncodeEmitsTheCodes :
    ∃ t, exec .encode (withInput tiny [1, 2, 1, 3]) = .next t ∧
      decide (([(1 : Sym), 2, 1, 3].flatMap (codeOf t.params t.mems)).length ≤ tiny.bitDepth.toNat) = true :=
  nextAnd_iff.mp (by decide)

/-- In a build with three bits the third symbol is the first that does not fit. -/
theorem witness_EncodeReportsFirstOverflow :
    Inv (withInput ⟨2, 4, 2, 4⟩ [1, 1, 1, 1]) ∧ Holds (withInput ⟨2, 4, 2, 4⟩ [1, 1, 1, 1]).mems.sym 0 [1, 1, 1, 1] ∧
      ([1, 1, 1, 1] : List Sym) = [1, 1] ++ 1 :: [1] ∧
      ∃ t, exec .encode (withInput ⟨2, 4, 2, 4⟩ [1, 1, 1, 1]) = .next t ∧
        decide (([(1 : Sym), 1].flatMap (codeOf t.params t.mems)).length ≤ 2 ∧
          2 < (([(1 : Sym), 1] ++ [1]).flatMap (codeOf t.params t.mems)).length) = true :=
  ⟨inv_of_restsWell (by decide), holds_of_shows (by decide), rfl, nextAnd_iff.mp (by decide)⟩

theorem witness_EncodeOfEmptyInput : (State.resetOf tiny).regs.symLen = 0 := by decide

theorem witness_EncodeOfOneDistinctSymbol :
    let s := withInput tiny [3, 3, 3, 3]
    Inv s ∧ s.regs.symLen ≤ s.params.symDepth ∧ s.regs.symLen.toNat = 4 ∧ 4 ≤ s.params.bitDepth.toNat ∧
      Holds s.mems.sym 0 (List.replicate 4 3) :=
  ⟨inv_of_restsWell (by decide), by decide, by decide, by decide, holds_of_shows (by decide)⟩

/-- Two states with one input that differ in a token of BIT. -/
theorem witness_EncodeDependsOnInputOnly :
    let s := withInput tiny [1, 2, 1, 3]
    let s' := { s with mems := { s.mems with bit := Mem.unspecified.write 7 2 } }
    Inv s ∧ Inv s' ∧ s.params = s'.params ∧ s.regs.symLen = s'.regs.symLen ∧ Holds s'.mems.sym 0 [1, 2, 1, 3] ∧
      (∃ t, exec .encode s = .next t ∧ decide (t.regs.errCode = 0) = true) ∧
      ∃ t, exec .encode s' = .next t ∧ decide (t.regs.errCode = 0) = true :=
  ⟨witness_input.1, inv_of_restsWell (by decide), rfl, rfl, holds_of_shows (by decide), nextAnd_iff.mp (by decide),
    nextAnd_iff.mp (by decide)⟩

theorem witness_DecodeOfAbsentTree : (State.resetOf tiny).regs.root = 0xFFFF := by decide

/-- BIT holds "0" and "11". -/
theorem witness_DecodeReadsCodes :
    let s := withTree tiny (threeLeaves 1 2 3) 4 [0, 1, 1]
    Inv s ∧ GoodTree tiny s.mems 4 ∧ IsInternal s.mems 4 ∧ s.regs.bitLen ≤ tiny.bitDepth ∧
      CodePath s.mems 4 [0] 1 ∧ CodePath s.mems 4 [1, 1] 3 ∧ Holds s.mems.bit 0 (([0, 1, 1] : List CodeBit).map (BitVec.setWidth 2)) ∧
      ∃ t, exec .decode s = .next t ∧ decide (t.regs.errCode = 0) = true := by
  obtain ⟨h1, -, h2, h3, h4⟩ := threeLeaves_good [0, 1, 1] (by decide) (by decide)
  exact ⟨h1, h2, h3, h4, ⟨0, rfl, rfl⟩, ⟨2, rfl, rfl⟩, holds_of_shows (by decide), nextAnd_iff.mp (by decide)⟩

/-- BIT holds "0" and the beginning "1" of a code. -/
theorem witness_DecodeReportsMalformedEnd :
    let s := withTree tiny (threeLeaves 1 2 3) 4 [0, 1]
    Inv s ∧ GoodTree tiny s.mems 4 ∧ CodePath s.mems 4 [0] 1 ∧ walkPath s.mems 4 [1] = some 3 ∧ IsInternal s.mems 3 ∧
      s.regs.bitLen.toNat = 2 ∧ Holds s.mems.bit 0 (([0, 1] : List CodeBit).map (BitVec.setWidth 2)) := by
  obtain ⟨h1, -, h2, -, -⟩ := threeLeaves_good [0, 1] (by decide) (by decide)
  exact ⟨h1, h2, ⟨0, rfl, rfl⟩, rfl, ⟨⟨1, 2, rfl, by decide, by decide⟩, 0, rfl⟩, rfl, holds_of_shows (by decide)⟩

/-- BIT holds "0", "1" and an INVALID token; and an INVALID token at once. -/
theorem witness_DecodeReportsInvalidToken :
    let s := withTree tiny (threeLeaves 1 2 3) 4 [0, 1, 2]
    let s' := withTree tiny (threeLeaves 1 2 3) 4 [2]
    (Inv s ∧ GoodTree tiny s.mems 4 ∧ CodePath s.mems 4 [0] 1 ∧ walkPath s.mems 4 [1] = some 3 ∧ IsInternal s.mems 3 ∧
        2 < s.regs.bitLen.toNat ∧ Holds s.mems.bit 0 (([0, 1] : List CodeBit).map (BitVec.setWidth 2) ++ [2])) ∧
      (Inv s' ∧ walkPath s'.mems 4 [] = some 4 ∧ IsInternal s'.mems 4 ∧ 0 < s'.regs.bitLen.toNat ∧
        Holds s'.mems.bit 0 (([] : List CodeBit).map (BitVec.setWidth 2) ++ [2])) := by
  obtain ⟨h1, -, h2, -, -⟩ := threeLeaves_good [0, 1, 2] (by decide) (by decide)
  obtain ⟨h5, -, -, h6, -⟩ := threeLeaves_good [2] (by decide) (by decide)
  exact ⟨⟨h1, h2, ⟨0, rfl, rfl⟩, rfl, ⟨⟨1, 2, rfl, by decide, by decide⟩, 0, rfl⟩, by decide, holds_of_shows (by decide)⟩,
    h5, rfl, h6, by decide, holds_of_shows (by decide)⟩

/-- Four codes and one more, for an OUT of four cells. -/
theorem witness_DecodeReportsOutOverflow :
    let s := withTree tiny (threeLeaves 1 2 3) 4 [0, 0, 0, 0, 1, 1]
    Inv s ∧ GoodTree tiny s.mems 4 ∧ IsInternal s.mems 4 ∧ s.regs.bitLen ≤ tiny.bitDepth ∧ CodePath s.mems 4 [0] 1 ∧
      4 = tiny.outDepth.toNat ∧ CodePath s.mems 4 [1, 1] 3 ∧ 6 ≤ s.regs.bitLen.toNat ∧
      Holds s.mems.bit 0 (([0, 0, 0, 0, 1, 1] : List CodeBit).map (BitVec.setWidth 2)) := by
  obtain ⟨h1, -, h2, h3, h4⟩ := threeLeaves_good [0, 0, 0, 0, 1, 1] (by decide) (by decide)
  exact ⟨h1, h2, h3, h4, ⟨0, rfl, rfl⟩, rfl, ⟨2, rfl, rfl⟩, by decide, holds_of_shows (by decide)⟩

/-- A leaf root: OUT exactly full. -/
theorem witness_DecodeOfSingleLeaf :
    let s := withTree tiny [leafOf 3] 0 [0, 0, 0, 0]
    Inv s ∧ s.regs.root.toNat < nodeDepth tiny ∧ IsLeaf s.mems 0 ∧ s.mems.nodeSym.read 0 = some ⟨3, true⟩ ∧
      s.regs.bitLen ≤ tiny.bitDepth ∧ 4 ≤ tiny.outDepth.toNat ∧ s.regs.bitLen.toNat = 4 ∧ Holds s.mems.bit 0 (List.replicate 4 0) :=
  ⟨inv_of_restsWell (by decide), by decide, ⟨rfl, 3, rfl⟩, rfl, by decide, by decide, by decide, holds_of_shows (by decide)⟩

/-- A leaf root: a `1` at once and after a full OUT, an INVALID token after two codes, and a `0` when OUT is full. -/
theorem witness_DecodeOfSingleLeaf_errors :
    ∀ c ∈ [(0, (1 : Token)), (4, 1), (2, 2), (4, 2), (4, 0)],
      let s := withTree tiny [leafOf 3] 0 (List.replicate c.1 0 ++ [c.2])
      Inv s ∧ IsLeaf s.mems 0 ∧ s.regs.bitLen ≤ tiny.bitDepth ∧ c.1 ≤ tiny.outDepth.toNat ∧ c.1 < s.regs.bitLen.toNat ∧
        Holds s.mems.bit 0 (List.replicate c.1 0 ++ [c.2]) ∧
        (c.2 = 1 ∨ c.2 = 2 ∨ (c.2 = 0 ∧ c.1 = tiny.outDepth.toNat)) := by
  have h : ∀ c ∈ [(0, (1 : Token)), (4, 1), (2, 2), (4, 2), (4, 0)],
      restsWell (withTree tiny [leafOf 3] 0 (List.replicate c.1 0 ++ [c.2])) = true ∧
        (withTree tiny [leafOf 3] 0 (List.replicate c.1 0 ++ [c.2])).regs.bitLen ≤ tiny.bitDepth ∧ c.1 ≤ tiny.outDepth.toNat ∧
        c.1 < (withTree tiny [leafOf 3] 0 (List.replicate c.1 0 ++ [c.2])).regs.bitLen.toNat ∧
        shows (withTree tiny [leafOf 3] 0 (List.replicate c.1 0 ++ [c.2])).mems.bit (List.replicate c.1 0 ++ [c.2]) = true ∧
        (c.2 = 1 ∨ c.2 = 2 ∨ (c.2 = 0 ∧ c.1 = tiny.outDepth.toNat)) := by decide
  intro c hc
  obtain ⟨h1, h2, h3, h4, h5, h6⟩ := h c hc
  exact ⟨inv_of_restsWell h1, ⟨rfl, 3, rfl⟩, h2, h3, h4, holds_of_shows h5, h6⟩

/-- Each of the five commands fails on some state. -/
theorem witness_ErrorEffects :
    let s := withInput ⟨2, 1, 8, 4⟩ [1, 2]
    (∃ t, exec .encode s = .next t ∧ decide (t.regs.errCode ≠ 0) = true) ∧
      (∃ t, exec .freq s = .next t ∧ decide (t.regs.errCode ≠ 0) = true) ∧
      (∃ t, exec .build (withEntries tiny [(1, 0)]) = .next t ∧ decide (t.regs.errCode ≠ 0) = true) ∧
      (∃ t, exec .gentab (withTree tiny [leafOf 1, innerOf 0 0] 1 []) = .next t ∧ decide (t.regs.errCode ≠ 0) = true) ∧
      ∃ t, exec .decode (withTree tiny [leafOf 1] 0 [1]) = .next t ∧ decide (t.regs.errCode ≠ 0) = true :=
  ⟨nextAnd_iff.mp (by decide), nextAnd_iff.mp (by decide), nextAnd_iff.mp (by decide), nextAnd_iff.mp (by decide),
    nextAnd_iff.mp (by decide)⟩

/-- What the host may do after ENCODE and before DECODE: the port moved, the frequency table and the input overwritten. -/
def meddled (t : State) : State :=
  { t with
    regs := { t.regs with accIndex := 7, symLen := 1, nEntries := 0, done := false }
    mems := { t.mems with sym := t.mems.sym.write 0 3, ecnt := t.mems.ecnt.write 0 9 } }

theorem witness_RoundTrip :
    let s := withInput tiny [1, 2, 1, 3]
    Inv s ∧ s.regs.symLen ≠ 0 ∧ s.regs.symLen ≤ s.params.outDepth ∧ regAt 0x14 = some .cmd ∧
      ∃ t, exec .encode s = .next t ∧ t.regs.errCode = 0 ∧ Inv (meddled t) ∧ (meddled t).core = .idle ∧
        (meddled t).params = t.params ∧ (meddled t).mems.bit = t.mems.bit ∧ (meddled t).regs.bitLen = t.regs.bitLen ∧
        (meddled t).regs.root = t.regs.root ∧ (meddled t).regs.nNodes = t.regs.nNodes ∧
        (meddled t).mems.nodeLr = t.mems.nodeLr ∧ (meddled t).mems.nodeWt = t.mems.nodeWt ∧
        (meddled t).mems.nodeSym = t.mems.nodeSym := by
  obtain ⟨t, h, ht⟩ : ∃ t, exec .encode (withInput tiny [1, 2, 1, 3]) = .next t ∧
      (decide (t.regs.errCode = 0) && restsWell (meddled t)) = true := nextAnd_iff.mp (by decide)
  simp only [Bool.and_eq_true, decide_eq_true_eq] at ht
  have hi : (meddled t).core = .idle := by
    have := ht.2
    simp only [restsWell, Bool.and_eq_true, decide_eq_true_eq] at this
    exact this.1.1.1.2
  exact ⟨witness_input.1, by decide, by decide, by decide, t, h, ht.1, inv_of_restsWell ht.2, hi, rfl, rfl, rfl, rfl, rfl, rfl,
    rfl, rfl⟩

end Sys2Proof.Tests
end

/-! SUPPORT. The proofs of the family 00_scope.md: what a step runs, and the build parameters (00_scope.md R6, R12). -/

namespace Sys2Proof.Machine

/-! ### What a step runs -/

/-- A pending access that decodes is the instruction the step runs (20_memory.md R84). -/
theorem step_access {s : State} {a : BusAccess} {rest : List Input} {i : Instr}
    (hp : s.pending = .access a :: rest) (hd : decode (.bus a) = .ok i) :
    step s = exec i { s with pending := rest } := by
  simp [step, nextStep, hp, hd]

/-- With nothing pending the step is a turn of the CORE, which is IDLE (70_reset_and_hazards.md R313) or completes its command (40_command_control.md R132). -/
theorem step_noInput {s : State} (hp : s.pending = []) :
    (s.core = .idle → step s = .next s) ∧
    (∀ w, s.core = .running w → step s = exec (decodeCmd w) s) := by
  refine ⟨fun hc => ?_, fun w hc => ?_⟩
  · simp [step, nextStep, coreTurn, hp, hc]
  · simp [step, nextStep, coreTurn, decode, hp, hc]

/-- A pending turn of the CORE is the step that would come with no input left, but for the inputs after it. -/
theorem step_coreTurn {s : State} {rest : List Input} (hp : s.pending = .coreTurn :: rest) :
    (s.core = .idle → step s = .next { s with pending := rest }) ∧
    (∀ w, s.core = .running w → step s = exec (decodeCmd w) { s with pending := rest }) := by
  refine ⟨fun hc => ?_, fun w hc => ?_⟩
  · simp [step, nextStep, coreTurn, hp, hc]
  · simp [step, nextStep, coreTurn, decode, hp, hc]

/-- Settles O5: one clause per kind of pending input and state of the CORE. -/
theorem stepRunsDecodedInstruction : Obligations.StepRunsDecodedInstruction :=
  ⟨fun _ _ _ _ hp hd => step_access hp hd,
    fun _ w _ hp hc => (step_coreTurn hp).2 w hc,
    fun _ w hp hc => (step_noInput hp).2 w hc,
    fun _ _ hp hc => (step_coreTurn hp).1 hc,
    fun _ hp hc => (step_noInput hp).1 hc,
    fun _ _ _ hp hc => (step_wait hp).1 hc,
    fun _ w n _ hp hc => (step_wait hp).2.1 w n hc rfl,
    fun _ w _ hp hc => (step_wait hp).2.2 w hc rfl⟩

/-! ### The build parameters -/

@[simp] theorem freqBody_params (xs : List Sym) (s : State) : (freqBody xs s).params = s.params := rfl

@[simp] theorem buildTree_params (es : List (Sym × Word)) (s : State) : (buildTree es s).params = s.params := by
  rw [buildTree_frame]

@[simp] theorem portWrite_params (d : Word) (s : State) : (portWrite d s).params = s.params := by
  rcases portWrite_cases d s with ⟨_, h⟩ | ⟨v, i, _, _, h⟩ <;> simp [h]

@[simp] theorem writeReg_params (r : Reg) (d : Word) (s : State) : (writeReg r d s).params = s.params := by
  cases r with
  | accData => exact portWrite_params d s
  | _ => rfl

theorem portRead_params {s t : State} (h : portRead s = .next t) : t.params = s.params := by
  rcases portRead_cases s with ⟨_, hr⟩ | ⟨v, i, _, ⟨f, _, hr⟩ | ⟨d, _, hr⟩⟩ <;> rw [hr] at h <;> cases h <;> simp

theorem execRd_params {a : BitVec 8} {s t : State} (h : execRd a s = .next t) : t.params = s.params := by
  rcases execRd_cases a s with ⟨_, hr⟩ | ⟨r, _, ⟨_, _, hr⟩ | ⟨_, _, hr⟩ | ⟨_, _, hr⟩⟩ <;> rw [hr] at h
  · cases h; rfl
  · cases h; rfl
  · exact portRead_params h
  · cases h; rfl

theorem execWr_params {a : BitVec 8} {d : Word} {s t : State} (h : execWr a d s = .next t) : t.params = s.params := by
  rcases execWr_cases a d s with ⟨_, hr⟩ | ⟨r, _, ⟨_, _, hr⟩ | ⟨_, hr⟩⟩ <;> rw [hr] at h <;> cases h <;> simp

/-- No instruction changes a build parameter. -/
theorem exec_params {i : Instr} {s t : State} (h : exec i s = .next t) : t.params = s.params := by
  cases i with
  | nop => cases h; rfl
  | illegalOp6 lo => cases h; rfl
  | illegalOp8 lo => cases h; rfl
  | illegalRsv rsv op => cases h; rfl
  | freq => rcases execFreq_next h with ⟨xs, _, _, rfl⟩ | ⟨e, rfl⟩ <;> rfl
  | build =>
    rcases execBuild_next h with ⟨u, hu, _, _, rfl⟩ | ⟨e, rfl⟩
    · obtain ⟨syms, counts, _, _, rfl⟩ := buildBody_ok hu
      simp
    · rfl
  | gentab => rcases execGentab_next h with ⟨codes, _, _, rfl⟩ | ⟨e, rfl⟩ <;> rfl
  | encode =>
    rcases execEncode_next h with ⟨e, rfl⟩ | ⟨xs, codes, es, ts, a, b, s3, _, _, _, _, _, _, rfl, ⟨_, rfl⟩ | ⟨e, _, rfl⟩⟩
    · rfl
    all_goals simp
  | decode =>
    rcases execDecode_next h with ⟨_, rfl⟩ | ⟨e, rfl⟩ | ⟨_, _, _, xs, ⟨_, rfl⟩ | ⟨e, _, rfl⟩⟩ <;> rfl
  | rd offset => exact execRd_params h
  | wr offset data => exact execWr_params h

/-- Settles O31: a step runs an instruction, which keeps the parameters, or it is a quiet turn, a WAIT's read or reset. -/
theorem parametersNeverChange : Obligations.ParametersNeverChange := by
  intro s t h
  rcases step_next h with ⟨_, _, rfl⟩ | ⟨rest, _, _, rfl⟩ | ⟨w, _, _, hx⟩ | ⟨w, rest, _, _, hx⟩ | ⟨a, rest, _, hx⟩ |
    ⟨a, d, rest, _, hx⟩ | ⟨rest, _, rfl⟩ | ⟨w, rest, _, _, hx⟩ | ⟨n, rest, rest', _, rfl⟩
  · rfl
  · rfl
  · exact exec_params hx
  · exact (exec_params hx).trans rfl
  · exact (execRd_params hx).trans rfl
  · exact (execWr_params hx).trans rfl
  · rfl
  · exact exec_params hx
  · rfl

end Sys2Proof.Machine

/-! SUPPORT. The proofs of the family 10_state.md: the registers, the memories, and what every step keeps of them. -/

namespace Sys2Proof.Machine

/-! ### The kinds of step -/

/-- A step that answers a next state is quiet or a WAIT's read, the completion of the running command, a host access, or reset. -/
theorem step_kinds {s t : State} (h : step s = .next t) :
    (∃ x inputs, t = { s with rdata := x, pending := inputs }) ∨
    (∃ w inputs, s.core = .running w ∧ exec (decodeCmd w) { s with pending := inputs } = .next t) ∨
    (∃ a rest, s.pending = .access (.read .word a) :: rest ∧ execRd a { s with pending := rest } = .next t) ∨
    (∃ a d rest, s.pending = .access (.write .word a d) :: rest ∧ execWr a d { s with pending := rest } = .next t) ∨
    (∃ rest, s.pending = .reset :: rest ∧ t = applyReset { s with pending := rest }) := by
  rcases step_next h with ⟨_, _, rfl⟩ | ⟨rest, _, _, rfl⟩ | ⟨w, hw, _, hx⟩ | ⟨w, rest, hw, _, hx⟩ | hrd | hwr | hreset |
    ⟨w, rest, hw, _, hx⟩ | ⟨n, rest, rest', _, rfl⟩
  · exact .inl ⟨t.rdata, t.pending, rfl⟩
  · exact .inl ⟨s.rdata, rest, rfl⟩
  · exact .inr (.inl ⟨w, s.pending, hw, hx⟩)
  · exact .inr (.inl ⟨w, rest, hw, hx⟩)
  · exact .inr (.inr (.inl hrd))
  · exact .inr (.inr (.inr (.inl hwr)))
  · exact .inr (.inr (.inr (.inr hreset)))
  · exact .inr (.inl ⟨w, s.pending, hw, hx⟩)
  · exact .inl ⟨statusWord s, rest', rfl⟩

/-! ### What a command leaves alone -/

/-- The body of a command, run from `s`, has come to `u`: SYM, the report's fields of STATUS, ERR_INFO and everything the host alone sets are as before (30_encoding.md R101). -/
def BodyFrame (s u : State) : Prop :=
  u = { s with
    regs := { s.regs with
      bitLen := u.regs.bitLen
      outLen := u.regs.outLen
      nEntries := u.regs.nEntries
      root := u.regs.root
      nNodes := u.regs.nNodes }
    mems := { u.mems with sym := s.mems.sym } }

theorem BodyFrame.refl (s : State) : BodyFrame s s := rfl

theorem buildTree_bodyFrame {s u : State} (h : BodyFrame s u) (es : List (Sym × Word)) : BodyFrame s (buildTree es u) := by
  unfold BodyFrame at *
  rw [buildTree_frame, h]

theorem writeTable_bodyFrame {s u : State} (h : BodyFrame s u) (codes : List (Sym × List CodeBit)) :
    BodyFrame s { u with mems := writeTable u.params u.mems codes } := by
  unfold BodyFrame at *
  rw [writeTable_frame, h]

/-- Every command ends on a state its body has come to, by `finish` or by `raise` (40_command_control.md R131). -/
theorem command_ends {i : Instr} {s t : State} (hc : isCommand i = true) (h : exec i s = .next t) :
    ∃ u, BodyFrame s u ∧ (t = completeOk u ∨ ∃ e, t = completeError e u) := by
  cases i with
  | nop => cases h; exact ⟨s, rfl, .inl rfl⟩
  | illegalOp6 lo => cases h; exact ⟨s, rfl, .inr ⟨_, rfl⟩⟩
  | illegalOp8 lo => cases h; exact ⟨s, rfl, .inr ⟨_, rfl⟩⟩
  | illegalRsv rsv op => cases h; exact ⟨s, rfl, .inr ⟨_, rfl⟩⟩
  | freq =>
    rcases execFreq_next h with ⟨xs, _, _, rfl⟩ | ⟨e, rfl⟩
    · exact ⟨freqBody xs s, rfl, .inl rfl⟩
    · exact ⟨s, rfl, .inr ⟨e, rfl⟩⟩
  | build =>
    rcases execBuild_next h with ⟨u, hu, _, _, rfl⟩ | ⟨e, rfl⟩
    · obtain ⟨syms, counts, _, _, rfl⟩ := buildBody_ok hu
      exact ⟨_, buildTree_bodyFrame (.refl s) _, .inl rfl⟩
    · exact ⟨s, rfl, .inr ⟨e, rfl⟩⟩
  | gentab =>
    rcases execGentab_next h with ⟨codes, _, _, rfl⟩ | ⟨e, rfl⟩
    · exact ⟨_, writeTable_bodyFrame (.refl s) codes, .inl rfl⟩
    · exact ⟨s, rfl, .inr ⟨e, rfl⟩⟩
  | encode =>
    rcases execEncode_next h with ⟨e, rfl⟩ | ⟨xs, codes, es, ts, a, b, s3, _, _, _, _, _, _, hs3, ht⟩
    · exact ⟨_, by rfl, .inr ⟨e, rfl⟩⟩
    · have hf : BodyFrame s s3 := by
        rw [hs3]
        exact writeTable_bodyFrame (buildTree_bodyFrame (s := s) (u := freqBody xs s) rfl es) codes
      unfold BodyFrame at hf
      rcases ht with ⟨_, rfl⟩ | ⟨e, _, rfl⟩
      · exact ⟨_, by rw [hf]; rfl, .inl rfl⟩
      · exact ⟨_, by rw [hf]; rfl, .inr ⟨e, rfl⟩⟩
  | decode =>
    rcases execDecode_next h with ⟨_, rfl⟩ | ⟨e, rfl⟩ | ⟨_, _, _, xs, ⟨_, rfl⟩ | ⟨e, _, rfl⟩⟩
    · exact ⟨_, by rfl, .inl rfl⟩
    · exact ⟨_, by rfl, .inr ⟨e, rfl⟩⟩
    · exact ⟨_, by rfl, .inl rfl⟩
    · exact ⟨_, by rfl, .inr ⟨e, rfl⟩⟩
  | rd offset => cases hc
  | wr offset data => cases hc

/-- Settles O22: the report is `completeOk`'s or `completeError`'s, and the rest is the frame of a command's body. -/
theorem completionReport : Obligations.CompletionReport := by
  intro i s t hc h
  obtain ⟨u, hf, ht⟩ := command_ends hc h
  unfold BodyFrame at hf
  rcases ht with rfl | ⟨e, rfl⟩ <;> rw [hf]
  · exact ⟨rfl, rfl, .inl ⟨rfl, rfl, rfl⟩, rfl, rfl, rfl, rfl, rfl, rfl, rfl, rfl, rfl, rfl, rfl, rfl, rfl, rfl⟩
  · exact ⟨rfl, rfl, .inr ⟨rfl, code_range e⟩, rfl, rfl, rfl, rfl, rfl, rfl, rfl, rfl, rfl, rfl, rfl, rfl, rfl, rfl⟩

/-! ### The invariant in parts -/

/-- The invariant's conditions on the memories. -/
structure MemsOk (p : Params) (m : Mems) : Prop where
  sym : memOk m.sym p.symDepth.toNat (fun x => x.toNat < nsym p) = true
  bit : memOk m.bit p.bitDepth.toNat (fun t => t ≠ 3) = true
  out : memOk m.out p.outDepth.toNat (fun x => x.toNat < nsym p) = true
  esym : memOk m.esym (nMax p) (fun x => x.toNat < nsym p) = true
  ecnt : memOk m.ecnt (nMax p) (fun _ => true) = true
  nodeLr : memOk m.nodeLr (nodeDepth p) (fun _ => true) = true
  nodeWt : memOk m.nodeWt (nodeDepth p) (fun _ => true) = true
  nodeSym : memOk m.nodeSym (nodeDepth p) (fun n => n.sym.toNat < nsym p) = true
  table : tableOk p m = true

/-- The invariant's conditions on OUT_LEN. -/
structure OutOk (p : Params) (out : Mem Sym) (n : Word) : Prop where
  inside : n.toNat ≤ p.outDepth.toNat
  written : ∀ i, i < n.toNat → (out.read i).isSome = true

/-- The invariant's conditions on the CORE, STATUS and ERR_INFO. -/
def FlagsOk (c : Core) (r : Regs) : Prop :=
  (∀ w, c = .running w → r.done = false ∧ r.err = false ∧ r.errCode = 0 ∧ r.errInfo = 0 ∧ r.lastCmd = opField w) ∧
    r.errCode ≤ 10 ∧ (r.err = true → r.errCode ≠ 0) ∧ (r.errCode = 0 → r.errInfo = 0)

theorem inv_iff {s : State} :
    Inv s ↔ s.params.legal = true ∧ MemsOk s.params s.mems ∧ OutOk s.params s.mems.out s.regs.outLen ∧
      FlagsOk s.core s.regs := by
  constructor
  · intro h
    exact ⟨h.legal, ⟨h.sym, h.bit, h.out, h.esym, h.ecnt, h.nodeLr, h.nodeWt, h.nodeSym, h.table⟩,
      ⟨h.outLen, h.outWritten⟩, h.running, h.errCode, h.errHasCode, h.errInfo⟩
  · rintro ⟨hl, hm, ho, hrun, hcode, hhas, hinfo⟩
    exact ⟨hl, hm.sym, hm.bit, hm.out, hm.esym, hm.ecnt, hm.nodeLr, hm.nodeWt, hm.nodeSym, hm.table, ho.inside, ho.written,
      hrun, hcode, hhas, hinfo⟩

/-- Settles O32: no memory has a cell, and every flag and length is 0. -/
theorem resetMeetsInvariant : Obligations.ResetMeetsInvariant := by
  have h : ∀ p : Params, p.legal = true → Inv (State.resetOf p) := fun p hp =>
    inv_iff.mpr ⟨hp, ⟨rfl, rfl, rfl, rfl, rfl, rfl, rfl, rfl, rfl⟩, ⟨Nat.zero_le _, fun i hi => absurd hi (Nat.not_lt_zero i)⟩,
      nofun, (by decide : (0 : BitVec 4) ≤ 10), nofun, fun _ => rfl⟩
  exact ⟨h _ (by decide), h⟩

/-! ### Values that fit -/

theorem tokenOf_ne_three (d : Word) : tokenOf d ≠ 3 := by
  unfold tokenOf
  split
  · decide
  · split <;> decide

theorem bitToken_ne_three (b : CodeBit) : bitToken b ≠ 3 := by revert b; decide

/-- A range read from cell 0 of a memory reads no further than the memory, and its values fit. -/
theorem readRange_fits {α : Type} [DecidableEq α] {v : View} {m : Mem α} {d n : Nat} {fits : α → Bool} {xs : List α}
    (hm : memOk m d fits = true) (h : readRange v m 0 n = .ok xs) : xs.length = n ∧ n ≤ d ∧ ∀ x ∈ xs, fits x = true := by
  obtain ⟨hl, hx⟩ := readRange_ok.mp h
  simp only [Nat.zero_add] at hx
  refine ⟨hl, ?_, fun x hmem => ?_⟩
  · by_contra hd
    have := (read_memOk hm (hx d (by omega))).1
    omega
  · obtain ⟨k, hk, rfl⟩ := List.mem_iff_getElem.mp hmem
    exact (read_memOk hm (hx k hk)).2

theorem readNodeSym_fits {p : Params} {m : Mems} (hm : MemsOk p m) {i : Nat} {ns : NodeSym}
    (h : readCell .nodeSym m.nodeSym i = .ok ns) : ns.sym.toNat < nsym p := by
  simpa using (read_memOk hm.nodeSym (readCell_ok.mp h)).2

/-! ### Each writer keeps the memories within the invariant -/

/-- A host write of an in-range cell (20_memory.md R78). -/
theorem viewWrite_memsOk {p : Params} {m : Mems} (h : MemsOk p m) {v : View} {i : Nat} (hi : i < viewDepth p v) (d : Word) :
    MemsOk p (viewWrite p m v i d) := by
  have hsym : (symOf p d).toNat < nsym p := symOf_lt p d
  cases v with
  | sym => exact { h with sym := memOk_write h.sym hi (by simpa using hsym) }
  | bit => exact { h with bit := memOk_write h.bit hi (by simpa using tokenOf_ne_three d) }
  | esym => exact { h with esym := memOk_write h.esym hi (by simpa using hsym) }
  | ecnt => exact { h with ecnt := memOk_write h.ecnt hi rfl }
  | nodeLr => exact { h with nodeLr := memOk_write h.nodeLr hi rfl }
  | nodeWt => exact { h with nodeWt := memOk_write h.nodeWt hi rfl }
  | nodeSym => exact { h with nodeSym := memOk_write h.nodeSym hi (by simpa using hsym) }
  | out => exact h
  | clen => exact h
  | cbits => exact h

/-- FREQ_BODY writes at most N_MAX entries of symbols that fit (41_frequency.md R160). -/
theorem freqBody_memsOk {s : State} {xs : List Sym} (h : MemsOk s.params s.mems) (hx : ∀ x ∈ xs, x.toNat < nsym s.params) :
    MemsOk s.params (freqBody xs s).mems := by
  have ht := freqTable_eq xs
  have hlen : (freqTable xs).length ≤ nMax s.params := by
    rw [ht, List.length_map]
    exact eraseDups_length_le xs hx
  refine { h with esym := memOk_writeList h.esym (by simpa using hlen) ?_,
                  ecnt := memOk_writeList h.ecnt (by simpa using hlen) fun _ _ => rfl }
  intro x hmem
  rw [ht] at hmem
  simp only [List.map_map, List.mem_map, Function.comp_apply, exists_eq_right, List.mem_eraseDups] at hmem
  simpa using hx x hmem

theorem buildNodes_syms {es : List (Sym × Word)} {n : Nat} (hpos : 0 < n) (h : ∀ e ∈ es, e.1.toNat < n) :
    ∀ x ∈ buildNodes es, x.sym.toNat < n := by
  intro x hx
  rcases List.mem_append.mp hx with hx | hx
  · obtain ⟨e, he, rfl⟩ := List.mem_map.mp hx
    exact h e he
  · rw [(mergeLoop_blank _ _ _ x hx).1]
    exact hpos

/-- BUILD_BODY writes at most NODE_DEPTH nodes with symbols that fit (42_tree_build.md R180). -/
theorem buildTree_memsOk {s : State} {es : List (Sym × Word)} (h : MemsOk s.params s.mems) (hl : es.length ≤ nMax s.params)
    (hs : ∀ e ∈ es, e.1.toNat < nsym s.params) : MemsOk s.params (buildTree es s).mems := by
  cases es with
  | nil => exact h
  | cons e rest =>
    have hlen : (buildNodes (e :: rest)).length ≤ nodeDepth s.params := by
      rw [buildNodes_length (by simp)]
      simp only [nodeDepth]
      omega
    refine { h with nodeLr := memOk_writeList h.nodeLr (by simpa using hlen) fun _ _ => rfl,
                    nodeWt := memOk_writeList h.nodeWt (by simpa using hlen) fun _ _ => rfl,
                    nodeSym := memOk_writeList h.nodeSym (by simpa using hlen) ?_ }
    intro x hx
    obtain ⟨y, hy, rfl⟩ := List.mem_map.mp hx
    simpa using buildNodes_syms (nsym_pos _) hs y hy

/-- BUILD_BODY on entries read from the table. -/
theorem buildTree_read_memsOk {s : State} {n : Nat} {syms : List Sym} {counts : List Word} (h : MemsOk s.params s.mems)
    (hs : readRange .esym s.mems.esym 0 n = .ok syms) : MemsOk s.params (buildTree (syms.zip counts) s).mems := by
  obtain ⟨hl, hn, hfit⟩ := readRange_fits h.esym hs
  refine buildTree_memsOk h ?_ fun e he => by simpa using hfit e.1 (List.of_mem_zip he).1
  rw [List.length_zip]
  omega

/-- The table was cleared whole and then written (43_code_table.md R203). -/
def Cleared (p : Params) (m : Mems) : Prop :=
  m.clen.wf = true ∧ m.clen.blank = some 0 ∧ (∀ c ∈ m.clen.cells, c.1 < nsym p) ∧ m.cbits.wf = true ∧ m.cbits.blank = some 0

theorem tableOk_of_cleared {p : Params} {m : Mems} (h : Cleared p m) : tableOk p m = true := by
  obtain ⟨h1, h2, h3, h4, h5⟩ := h
  simp only [tableOk, h1, h2, h4, h5, Bool.or_eq_true]
  exact .inr (by simpa using fun a b hab => h3 (a, b) hab)

theorem writeCode_cleared {p : Params} {m : Mems} {e : Sym × List CodeBit} (h : Cleared p m) (he : e.1.toNat < nsym p) :
    Cleared p (writeCode p m e) := by
  obtain ⟨h1, h2, h3, h4, h5⟩ := h
  refine ⟨write_wf _ _ _ h1, (write_blank _ _ _).trans h2, fun c hc => ?_, writeList_wf _ _ _ h4, (writeList_blank _ _ _).trans h5⟩
  rcases mem_write hc with rfl | hc
  · exact he
  · exact h3 c hc

theorem foldl_writeCode_cleared {p : Params} (codes : List (Sym × List CodeBit)) {m : Mems} (h : Cleared p m)
    (hs : ∀ e ∈ codes, e.1.toNat < nsym p) : Cleared p (codes.foldl (writeCode p) m) := by
  induction codes generalizing m with
  | nil => exact h
  | cons c rest ih => exact ih (writeCode_cleared h (hs c (by simp))) fun e he => hs e (by simp [he])

/-- GENTAB_BODY's codes of symbols that fit leave a cleared table. -/
theorem writeTable_memsOk {p : Params} {m : Mems} {codes : List (Sym × List CodeBit)} (h : MemsOk p m)
    (hs : ∀ e ∈ codes, e.1.toNat < nsym p) : MemsOk p (writeTable p m codes) := by
  have hc : Cleared p (writeTable p m codes) := foldl_writeCode_cleared codes ⟨rfl, rfl, by simp [Mem.fill], rfl, rfl⟩ hs
  have ht := tableOk_of_cleared hc
  rw [writeTable_frame] at ht ⊢
  exact { h with table := ht }

theorem codePaths_syms {p : Params} {m : Mems} (hm : MemsOk p m) :
    ∀ (fuel : Nat) (stack : List (NodeIx × List CodeBit)) (codes : List (Sym × List CodeBit)),
      codePaths m fuel stack = .ok codes → ∀ e ∈ codes, e.1.toNat < nsym p
  | 0, _, _, h => by cases h; simp
  | _ + 1, [], _, h => by cases h; simp
  | fuel + 1, (q, path) :: stack, codes, h => by
    simp only [codePaths] at h
    split at h
    · cases h
    · rename_i ns hns
      split at h
      · split at h
        · cases h
        · rename_i rest hrest
          cases h
          intro e he
          rcases List.mem_cons.mp he with rfl | he
          · exact readNodeSym_fits hm hns
          · exact codePaths_syms hm fuel stack rest hrest e he
      · split at h
        · cases h
        · exact codePaths_syms hm fuel _ codes h

/-- The symbols of a tree's codes come from NODE, so they fit. -/
theorem treeCodes_syms {p : Params} {m : Mems} {r : NodeIx} {codes : List (Sym × List CodeBit)} (hm : MemsOk p m)
    (h : treeCodes p m r = .ok codes) : ∀ e ∈ codes, e.1.toNat < nsym p := by
  unfold treeCodes at h
  split at h
  · cases h; simp
  · split at h
    · cases h
    · rename_i ns hns
      split at h
      · cases h
        simpa using readNodeSym_fits hm hns
      · exact codePaths_syms hm _ _ _ h

/-- The emission stays within BIT and emits digits only (44_encode.md R230 step 3). -/
theorem emitLoop_fits_bit {p : Params} {m : Mems} :
    ∀ (xs : List Sym) (i pos : Nat) (ts : List Token) (e : Option CmdError), emitLoop p m xs i pos = .ok (ts, e) →
      pos ≤ p.bitDepth.toNat → pos + ts.length ≤ p.bitDepth.toNat ∧ ∀ t ∈ ts, t ≠ 3
  | [], _, _, _, _, h, hp => by cases h; simpa using hp
  | x :: xs, i, pos, ts, e, h, hp => by
    simp only [emitLoop] at h
    split at h
    · cases h
    · rename_i len _
      split at h
      · cases h; simpa using hp
      · split at h
        · cases h; simpa using hp
        · split at h
          · cases h
          · rename_i bits hbits
            split at h
            · cases h
            · rename_i us e' hrest
              cases h
              obtain ⟨hl, -⟩ := readRange_ok.mp hbits
              obtain ⟨h1, h2⟩ := emitLoop_fits_bit xs _ _ us e hrest (by omega)
              refine ⟨by simp only [List.length_append, List.length_map]; omega, fun t ht => ?_⟩
              rcases List.mem_append.mp ht with ht | ht
              · obtain ⟨b, -, rfl⟩ := List.mem_map.mp ht
                exact bitToken_ne_three b
              · exact h2 t ht

/-- A token's symbol comes from NODE, so it fits. -/
theorem decodeToken_sym {p : Params} {m : Mems} (hm : MemsOk p m) {r cur cur' : NodeIx} {t : Token} {k : Nat} {x : Sym}
    (h : decodeToken m r t k cur = .ok (.ok (some x, cur'))) : x.toNat < nsym p := by
  unfold decodeToken at h
  split at h
  · cases h
  · split at h
    · cases h
    · rename_i root hroot
      split at h
      · split at h
        · cases h
        · cases h; exact readNodeSym_fits hm hroot
      · split at h
        · cases h
        · simp only at h
          split at h
          · cases h
          · rename_i ns hns
            split at h
            · cases h; exact readNodeSym_fits hm hns
            · cases h

/-- The walk stays within OUT and emits symbols of NODE (45_decode.md R250). -/
theorem decodeLoop_fits_out {p : Params} {m : Mems} (hm : MemsOk p m) {r : NodeIx} :
    ∀ (n k : Nat) (cur : NodeIx) (o : Nat) (xs : List Sym) (e : Option CmdError), decodeLoop p m r n k cur o = .ok (xs, e) →
      o ≤ p.outDepth.toNat → o + xs.length ≤ p.outDepth.toNat ∧ ∀ x ∈ xs, x.toNat < nsym p
  | 0, _, _, _, _, _, h, ho => by cases h; simpa using ho
  | n + 1, k, cur, o, xs, e, h, ho => by
    simp only [decodeLoop] at h
    split at h
    · cases h
    · split at h
      · cases h
      · cases h; simpa using ho
      · exact decodeLoop_fits_out hm n _ _ o xs e h ho
      · rename_i x cur' htok
        split at h
        · cases h; simpa using ho
        · split at h
          · cases h
          · rename_i ys e' hrest
            cases h
            obtain ⟨h1, h2⟩ := decodeLoop_fits_out hm n _ _ (o + 1) ys e hrest (by omega)
            refine ⟨by simp only [List.length_cons]; omega, fun y hy => ?_⟩
            rcases List.mem_cons.mp hy with rfl | hy
            · exact decodeToken_sym hm htok
            · exact h2 y hy

/-! ### Each command keeps the invariant -/

theorem outOk_zero (p : Params) (out : Mem Sym) : OutOk p out 0 :=
  ⟨Nat.zero_le _, fun i hi => absurd hi (Nat.not_lt_zero i)⟩

/-- A completed walk leaves OUT_LEN within OUT, and OUT written up to it. -/
theorem outOk_writeList {p : Params} {out : Mem Sym} {xs : List Sym} (hw : out.wf = true) (hl : xs.length ≤ p.outDepth.toNat) :
    OutOk p (out.writeList 0 xs) (BitVec.ofNat 32 xs.length) := by
  have hn : (BitVec.ofNat 32 xs.length).toNat = xs.length := by
    rw [BitVec.toNat_ofNat, Nat.mod_eq_of_lt (by have := p.outDepth.isLt; omega)]
  refine ⟨by rwa [hn], fun i hi => ?_⟩
  rw [hn] at hi
  have := read_writeList_in out 0 xs hw i hi
  rw [Nat.zero_add] at this
  simp [this]

/-- ENCODE's emission keeps the memories within the invariant. -/
theorem emitted_memsOk {p : Params} {m : Mems} {xs : List Sym} {ts : List Token} {e : Option CmdError} (h : MemsOk p m)
    (hts : emitLoop p m xs 0 0 = .ok (ts, e)) : MemsOk p { m with bit := m.bit.writeList 0 ts } := by
  obtain ⟨hl, hfit⟩ := emitLoop_fits_bit _ _ _ _ _ hts (Nat.zero_le _)
  exact { h with bit := memOk_writeList h.bit hl fun t ht => by simpa using hfit t ht }

/-- DECODE's walk keeps the memories within the invariant. -/
theorem walked_memsOk {p : Params} {m : Mems} {r : NodeIx} {n : Nat} {xs : List Sym} {e : Option CmdError} (h : MemsOk p m)
    (hxs : decodeLoop p m r n 0 r 0 = .ok (xs, e)) :
    xs.length ≤ p.outDepth.toNat ∧ MemsOk p { m with out := m.out.writeList 0 xs } := by
  obtain ⟨hl, hfit⟩ := decodeLoop_fits_out h _ _ _ _ _ _ hxs (Nat.zero_le _)
  exact ⟨by omega, { h with out := memOk_writeList h.out hl fun x hx => by simpa using hfit x hx }⟩

/-- Every command keeps the memories, and OUT up to OUT_LEN, within the invariant. -/
theorem command_memsOk {i : Instr} {s t : State} (hc : isCommand i = true) (hs : Inv s) (h : exec i s = .next t) :
    MemsOk t.params t.mems ∧ OutOk t.params t.mems.out t.regs.outLen := by
  obtain ⟨-, hm, ho, -⟩ := inv_iff.mp hs
  cases i with
  | nop => cases h; exact ⟨hm, ho⟩
  | illegalOp6 lo => cases h; exact ⟨hm, ho⟩
  | illegalOp8 lo => cases h; exact ⟨hm, ho⟩
  | illegalRsv rsv op => cases h; exact ⟨hm, ho⟩
  | freq =>
    rcases execFreq_next h with ⟨xs, hx, _, rfl⟩ | ⟨e, rfl⟩
    · obtain ⟨-, -, hfit⟩ := readRange_fits hm.sym hx
      exact ⟨freqBody_memsOk hm fun x hx => by simpa using hfit x hx, ho⟩
    · exact ⟨hm, ho⟩
  | build =>
    rcases execBuild_next h with ⟨u, hu, _, _, rfl⟩ | ⟨e, rfl⟩
    · obtain ⟨syms, counts, hsyms, _, rfl⟩ := buildBody_ok hu
      have hm' := buildTree_read_memsOk (counts := counts) hm hsyms
      rw [buildTree_frame] at hm' ⊢
      exact ⟨hm', ho⟩
    · exact ⟨hm, ho⟩
  | gentab =>
    rcases execGentab_next h with ⟨codes, hcodes, _, rfl⟩ | ⟨e, rfl⟩
    · have hm' := writeTable_memsOk hm (treeCodes_syms hm hcodes)
      rw [writeTable_frame] at hm' ⊢
      exact ⟨hm', ho⟩
    · exact ⟨hm, ho⟩
  | encode =>
    rcases execEncode_next h with ⟨e, rfl⟩ | ⟨xs, codes, es, ts, a, b, s3, hx, _, ha, _, rfl, hcodes, hs3, ht⟩
    · exact ⟨hm, ho⟩
    · obtain ⟨-, -, hfit⟩ := readRange_fits hm.sym hx
      have hm1 : MemsOk s.params (freqBody xs s).mems := freqBody_memsOk hm fun x hx => by simpa using hfit x hx
      have hm2 := buildTree_read_memsOk (s := freqBody xs s) (counts := b) hm1 ha
      have hm3 : MemsOk s3.params s3.mems := by
        rw [hs3]
        simp only [buildTree_params, freqBody_params] at hcodes hm2 ⊢
        exact writeTable_memsOk hm2 (treeCodes_syms hm2 hcodes)
      have ho3 : OutOk s3.params s3.mems.out s3.regs.outLen := by
        rw [hs3, writeTable_frame, buildTree_frame]
        exact ho
      rcases ht with ⟨hts, rfl⟩ | ⟨e, hts, rfl⟩
      · exact ⟨emitted_memsOk hm3 hts, ho3⟩
      · exact ⟨emitted_memsOk hm3 hts, ho3⟩
  | decode =>
    rcases execDecode_next h with ⟨_, rfl⟩ | ⟨e, rfl⟩ | ⟨_, _, _, xs, ⟨hxs, rfl⟩ | ⟨e, hxs, rfl⟩⟩
    · exact ⟨hm, outOk_zero _ _⟩
    · exact ⟨hm, outOk_zero _ _⟩
    · obtain ⟨hl, hm'⟩ := walked_memsOk hm hxs
      exact ⟨hm', outOk_writeList (memOk_iff.mp hm.out).1 hl⟩
    · exact ⟨(walked_memsOk hm hxs).2, outOk_zero _ _⟩
  | rd offset => cases hc
  | wr offset data => cases hc

/-- A completion leaves legal flags: while the command ran, ERR was 0 (40_command_control.md R130, R131). -/
theorem command_flagsOk {i : Instr} {s t : State} {w : Word} (hc : isCommand i = true) (hs : Inv s)
    (hw : s.core = .running w) (h : exec i s = .next t) : FlagsOk t.core t.regs := by
  obtain ⟨u, hf, ht⟩ := command_ends hc h
  obtain ⟨-, herr, -⟩ := hs.running w hw
  unfold BodyFrame at hf
  rcases ht with rfl | ⟨e, rfl⟩ <;> rw [hf]
  · exact ⟨nofun, by simp, fun h => by simp [herr] at h, fun _ => rfl⟩
  · obtain ⟨h1, h2⟩ := code_range e
    have h0 : e.code ≠ 0 := fun h0 => by simp [h0] at h1
    exact ⟨nofun, BitVec.le_def.mpr h2, fun _ => h0, fun h => absurd h h0⟩

theorem command_inv {i : Instr} {s t : State} {w : Word} (hc : isCommand i = true) (hs : Inv s) (hw : s.core = .running w)
    (h : exec i s = .next t) : Inv t := by
  obtain ⟨hm, ho⟩ := command_memsOk hc hs h
  exact inv_iff.mpr ⟨by rw [exec_params h]; exact hs.legal, hm, ho, command_flagsOk hc hs hw h⟩

theorem isCommand_decodeCmd (w : Word) : isCommand (decodeCmd w) = true := by
  unfold decodeCmd
  split
  · rfl
  · split <;> rfl

/-! ### Each host access and reset keep the invariant -/

/-- The invariant says nothing of what a host read returned, the inputs to come, or the draws. -/
theorem inv_of_inputs {s : State} (h : Inv s) (x : Word) (inputs : List Input) (n : Nat) :
    Inv { s with rdata := x, pending := inputs, draws := n } := inv_iff.mpr (inv_iff (s := s).mp h)

theorem portError_inv {s : State} (h : Inv s) : Inv (portError s) := inv_iff.mpr (inv_iff (s := s).mp h)

theorem rejectWrite_inv {s : State} (h : Inv s) : Inv (rejectWrite s) := inv_iff.mpr (inv_iff (s := s).mp h)

theorem autoIncrement_inv {s : State} (h : Inv s) : Inv (autoIncrement s) := by
  rw [autoIncrement_eq]
  exact inv_iff.mpr (inv_iff (s := s).mp h)

theorem portRead_inv {s t : State} (hs : Inv s) (h : portRead s = .next t) : Inv t := by
  rcases portRead_cases s with ⟨_, hr⟩ | ⟨v, i, _, ⟨f, _, hr⟩ | ⟨d, _, hr⟩⟩ <;> rw [hr] at h <;> cases h
  · exact autoIncrement_inv (inv_of_inputs (portError_inv hs) _ _ _)
  · exact autoIncrement_inv (inv_of_inputs hs _ _ _)

theorem viewWrite_out (p : Params) (m : Mems) (v : View) (i : Nat) (d : Word) : (viewWrite p m v i d).out = m.out := by
  cases v <;> rfl

theorem portWrite_inv {s : State} (hs : Inv s) (d : Word) : Inv (portWrite d s) := by
  rcases portWrite_cases d s with ⟨_, hr⟩ | ⟨v, i, ht, _, hr⟩ <;> rw [hr] <;> apply autoIncrement_inv
  · exact portError_inv hs
  · obtain ⟨hl, hm, ho, hf⟩ := inv_iff.mp hs
    obtain ⟨-, -, hi⟩ := portTarget_some.mp ht
    exact inv_iff.mpr ⟨hl, viewWrite_memsOk hm hi d, by rw [viewWrite_out]; exact ho, hf⟩

/-- A STATUS write clears flags, so it keeps the legal ones legal (10_state.md R27). -/
theorem clearStatus_flagsOk {c : Core} {r : Regs} (d : Word) (h : FlagsOk c r) : FlagsOk c (clearStatus d r) := by
  obtain ⟨hrun, hcode, hhas, hinfo⟩ := h
  refine ⟨fun w hw => ?_, hcode, fun he => hhas (Bool.and_eq_true_iff.mp he).1, hinfo⟩
  obtain ⟨hd, he, hrest⟩ := hrun w hw
  exact ⟨by simp [clearStatus, hd], by simp [clearStatus, he], hrest⟩

theorem writeReg_inv {s : State} (hs : Inv s) (r : Reg) (d : Word) : Inv (writeReg r d s) := by
  obtain ⟨hl, hm, ho, hf⟩ := inv_iff.mp hs
  cases r with
  | cmd =>
    refine inv_iff.mpr ⟨hl, hm, ho, ?_, (by decide : (0 : BitVec 4) ≤ 10), nofun, fun _ => rfl⟩
    rintro w ⟨⟩
    exact ⟨rfl, rfl, rfl, rfl, rfl⟩
  | status => exact inv_iff.mpr ⟨hl, hm, ho, clearStatus_flagsOk d hf⟩
  | accData => exact portWrite_inv hs d
  | id | cfg | symDepth | bitDepth | outDepth | errInfo | outLen => exact hs
  | symLen | bitLen | nEntries | tree | accCtrl | accIndex | irqEn => exact inv_iff.mpr ⟨hl, hm, ho, hf⟩

theorem execRd_inv {a : BitVec 8} {s t : State} (hs : Inv s) (h : execRd a s = .next t) : Inv t := by
  rcases execRd_cases a s with ⟨_, hr⟩ | ⟨r, _, ⟨_, _, hr⟩ | ⟨_, _, hr⟩ | ⟨_, _, hr⟩⟩ <;> rw [hr] at h
  · cases h; exact inv_of_inputs hs _ _ _
  · cases h; exact inv_of_inputs hs _ _ _
  · exact portRead_inv hs h
  · cases h; exact inv_of_inputs hs _ _ _

theorem execWr_inv {a : BitVec 8} {d : Word} {s t : State} (hs : Inv s) (h : execWr a d s = .next t) : Inv t := by
  rcases execWr_cases a d s with ⟨_, hr⟩ | ⟨r, _, ⟨_, _, hr⟩ | ⟨_, hr⟩⟩ <;> rw [hr] at h <;> cases h
  · exact hs
  · exact rejectWrite_inv hs
  · exact writeReg_inv hs r d

theorem applyReset_inv {s : State} (hs : Inv s) : Inv (applyReset s) :=
  inv_of_inputs (resetMeetsInvariant.2 s.params hs.legal) 0 s.pending s.draws

/-- Settles O33: a step is quiet, the completion of the running command, a host access, or reset, and each keeps the invariant. -/
theorem stepKeepsInvariant : Obligations.StepKeepsInvariant := by
  intro s t hs h
  have hin : ∀ inputs, Inv { s with pending := inputs } := fun inputs => inv_of_inputs hs _ inputs _
  rcases step_kinds h with ⟨x, inputs, rfl⟩ | ⟨w, inputs, hw, hx⟩ | ⟨a, rest, _, hx⟩ | ⟨a, d, rest, _, hx⟩ | ⟨rest, _, rfl⟩
  · exact inv_of_inputs hs x inputs _
  · exact command_inv (isCommand_decodeCmd w) (hin inputs) hw hx
  · exact execRd_inv (hin rest) hx
  · exact execWr_inv (hin rest) hx
  · exact applyReset_inv (hin rest)

end Sys2Proof.Machine

/-! SUPPORT. The registers (10_state.md R21 to R34, R48): where each sits, what it reads as, and what a write to it does. -/

namespace Sys2Proof.Machine

/-! ### Bits of the words registers read as -/

theorem flagAt_getLsbD {n i : Nat} (b : Bool) (hi : i < 32) : (flagAt n b).getLsbD i = (decide (i = n) && b) := by
  rw [flagAt, BitVec.getLsbD_shiftLeft, BitVec.getLsbD_setWidth, BitVec.getLsbD_ofBool]
  cases b
  · simp
  · simp only [hi, decide_true, Bool.true_and, Bool.and_true]
    rw [Bool.eq_iff_iff]
    simp
    omega

/-- A field placed at bit `n` of a word. -/
theorem fieldAt_getLsbD {k n i : Nat} (x : BitVec k) (hi : i < 32) :
    (x.setWidth 32 <<< n).getLsbD i = (decide (n ≤ i) && x.getLsbD (i - n)) := by
  rw [BitVec.getLsbD_shiftLeft, BitVec.getLsbD_setWidth]
  by_cases h : i < n
  · simp [h]
  · simp [h, hi, show n ≤ i by omega, show i - n < 32 by omega]

/-- STATUS bit by bit (10_state.md R26). -/
theorem statusWord_getLsbD (s : State) {i : Nat} (hi : i < 32) :
    (statusWord s).getLsbD i =
      (decide (i = 0) && s.busy || decide (i = 1) && s.regs.done || decide (i = 2) && s.regs.err ||
        decide (i = 3) && s.regs.reject || decide (i = 4) && s.regs.accErr ||
        decide (8 ≤ i) && s.regs.errCode.getLsbD (i - 8) || decide (16 ≤ i) && s.regs.lastCmd.getLsbD (i - 16)) := by
  simp only [statusWord, BitVec.getLsbD_or, flagAt_getLsbD _ hi, fieldAt_getLsbD _ hi]

/-- The flags of STATUS. -/
theorem statusWord_flags (s : State) :
    (statusWord s).getLsbD 0 = s.busy ∧ (statusWord s).getLsbD 1 = s.regs.done ∧ (statusWord s).getLsbD 2 = s.regs.err ∧
      (statusWord s).getLsbD 3 = s.regs.reject ∧ (statusWord s).getLsbD 4 = s.regs.accErr := by
  refine ⟨?_, ?_, ?_, ?_, ?_⟩ <;> rw [statusWord_getLsbD s (by decide)] <;> simp

/-- The codes and the reserved bits of STATUS. -/
theorem statusWord_fields (s : State) :
    (statusWord s).extractLsb' 5 3 = 0 ∧ (statusWord s).extractLsb' 8 4 = s.regs.errCode ∧
      (statusWord s).extractLsb' 12 4 = 0 ∧ (statusWord s).extractLsb' 16 4 = s.regs.lastCmd ∧
      (statusWord s).extractLsb' 20 12 = 0 := by
  refine ⟨?_, ?_, ?_, ?_, ?_⟩
  all_goals
    refine BitVec.eq_of_getLsbD_eq fun i hi => ?_
    rw [BitVec.getLsbD_extractLsb', statusWord_getLsbD s (by omega)]
    interval_cases i <;> simp [BitVec.getLsbD_of_ge]

theorem cfgWord_fields (x : BitVec 4) : (x.setWidth 32).extractLsb' 0 4 = x ∧ (x.setWidth 32).extractLsb' 4 28 = 0 := by
  refine ⟨?_, ?_⟩
  all_goals
    refine BitVec.eq_of_getLsbD_eq fun i hi => ?_
    rw [BitVec.getLsbD_extractLsb', BitVec.getLsbD_setWidth]
  · simp [hi, show i < 32 by omega]
  · simp

theorem accCtrlWord_getLsbD (m : BitVec 4) (b : Bool) {i : Nat} (hi : i < 32) :
    (flagAt 8 b ||| m.setWidth 32).getLsbD i = (decide (i = 8) && b || m.getLsbD i) := by
  rw [BitVec.getLsbD_or, flagAt_getLsbD b hi, BitVec.getLsbD_setWidth]
  simp [hi]

/-- The fields and the reserved bits of ACC_CTRL (10_state.md R33). -/
theorem accCtrlWord_fields (m : BitVec 4) (b : Bool) :
    (flagAt 8 b ||| m.setWidth 32).extractLsb' 0 4 = m ∧ (flagAt 8 b ||| m.setWidth 32).extractLsb' 4 4 = 0 ∧
      (flagAt 8 b ||| m.setWidth 32).getLsbD 8 = b ∧ (flagAt 8 b ||| m.setWidth 32).extractLsb' 9 23 = 0 := by
  refine ⟨?_, ?_, ?_, ?_⟩
  case refine_3 => rw [accCtrlWord_getLsbD _ _ (by decide)]; simp
  all_goals
    refine BitVec.eq_of_getLsbD_eq fun i hi => ?_
    rw [BitVec.getLsbD_extractLsb', accCtrlWord_getLsbD m b (by omega)]
  · simp [hi, show i ≠ 8 by omega]
  · simp [show 4 + i ≠ 8 by omega]
  · simp [BitVec.getLsbD_of_ge m (9 + i) (by omega), show 9 + i ≠ 8 by omega]

theorem irqEnWord_getLsbD (e d : Bool) {i : Nat} (hi : i < 32) :
    (flagAt 1 e ||| flagAt 0 d).getLsbD i = (decide (i = 1) && e || decide (i = 0) && d) := by
  rw [BitVec.getLsbD_or, flagAt_getLsbD e hi, flagAt_getLsbD d hi]

/-- The enables and the reserved bits of IRQ_EN (10_state.md R48). -/
theorem irqEnWord_fields (e d : Bool) :
    (flagAt 1 e ||| flagAt 0 d).getLsbD 0 = d ∧ (flagAt 1 e ||| flagAt 0 d).getLsbD 1 = e ∧
      (flagAt 1 e ||| flagAt 0 d).extractLsb' 2 30 = 0 := by
  refine ⟨?_, ?_, BitVec.eq_of_getLsbD_eq fun i hi => ?_⟩
  · rw [irqEnWord_getLsbD _ _ (by decide)]; simp
  · rw [irqEnWord_getLsbD _ _ (by decide)]; simp
  · rw [BitVec.getLsbD_extractLsb', irqEnWord_getLsbD e d (by omega)]
    simp [show 2 + i ≠ 1 by omega]

/-- A word written to ACC_CTRL, its reserved bits read back as 0 (10_state.md R33). -/
theorem accCtrlWord_written (d : Word) :
    flagAt 8 (d.getLsbD 8) ||| (d.extractLsb' 0 4).setWidth 32 = d &&& 0x10F := by
  refine BitVec.eq_of_getLsbD_eq fun i hi => ?_
  rw [accCtrlWord_getLsbD _ _ hi, BitVec.getLsbD_and]
  interval_cases i <;> simp

/-- A word written to IRQ_EN, its reserved bits read back as 0 (10_state.md R48). -/
theorem irqEnWord_written (d : Word) : flagAt 1 (d.getLsbD 1) ||| flagAt 0 (d.getLsbD 0) = d &&& 3 := by
  refine BitVec.eq_of_getLsbD_eq fun i hi => ?_
  rw [irqEnWord_getLsbD _ _ hi, BitVec.getLsbD_and]
  interval_cases i <;> simp

/-! ### Offsets -/

/-- The six decoded bits of an offset, the two low ones cleared (20_memory.md R70). -/
theorem offset_word (a : BitVec 8) : a &&& 0xFC = a.extractLsb' 2 6 ++ 0#2 ∧ (0x44 ≤ a.toNat ↔ 17 ≤ (a.extractLsb' 2 6).toNat) := by
  revert a; decide

/-- Settles O8: only a[7:2] is decoded, and its 64 values are gone through. -/
theorem registerOffsets : Obligations.RegisterOffsets := by
  intro a
  obtain ⟨hw, hn⟩ := offset_word a
  rw [hw, hn]
  unfold regAt
  generalize a.extractLsb' 2 6 = k
  refine ⟨fun r => ?_, ?_⟩
  · cases r <;> revert k <;> decide
  · revert k; decide

/-! ### Reset -/

/-- Settles O7: reset is the next pending input, whatever the CORE does. -/
theorem resetAtAnyTime : Obligations.ResetAtAnyTime := by
  intro s rest hp
  refine ⟨applyReset { s with pending := rest }, by simp [step, nextStep, hp], rfl, rfl, rfl, rfl, rfl, rfl, rfl, rfl, rfl, rfl, ?_,
    rfl, rfl, rfl, rfl, rfl, ?_, ?_, rfl, ?_, fun i => ⟨rfl, rfl, rfl, rfl, rfl, rfl, rfl, rfl, rfl, rfl⟩⟩
  · show statusWord (State.resetOf Params.default) = 0
    decide
  · show pairWord 0 NIL = 0x0000FFFF
    decide
  · show flagAt 8 false ||| (0#4).setWidth 32 = 0
    decide
  · show flagAt 1 false ||| flagAt 0 false = 0
    decide

/-! ### Reads -/

/-- A read of a register with content, unless its value is unspecified (40_command_control.md R134, R137). -/
theorem exec_rd_readReg {s : State} {a : BitVec 8} {r : Reg} (hr : regAt a = some r) (hp : r ≠ .accData)
    (hb : s.core = .idle ∨ unspecifiedWhileRunning r = false) :
    exec (.rd a) s = .next { s with rdata := readReg s r } := by
  have hu : (s.busy && unspecifiedWhileRunning r) = false := by
    rcases hb with hb | hb <;> simp [hb]
  show execRd a s = _
  simp [execRd, hr, hu, hp]

/-- A read of a register that a running command may change, and of ACC_DATA (40_command_control.md R134, 20_memory.md R81). -/
theorem exec_rd_unspecified {s : State} {a : BitVec 8} {r : Reg} {w : Word} (hr : regAt a = some r) (hw : s.core = .running w)
    (hu : unspecifiedWhileRunning r = true) : exec (.rd a) s = .next (drawRead s) := by
  show execRd a s = _
  simp [execRd, hr, busy_of_running hw, hu]

/-- A read of an unmapped offset (20_memory.md R72). -/
theorem exec_rd_unmapped {s : State} {a : BitVec 8} (ha : 0x44 ≤ a.toNat) : exec (.rd a) s = .next { s with rdata := 0 } := by
  show execRd a s = _
  simp [execRd, (registerOffsets a).2.mpr ha]

/-- Settles O10: the STATUS word's fields, and STATUS may always be read. -/
theorem statusReadLayout : Obligations.StatusReadLayout := by
  intro s a ha
  obtain ⟨hbusy, hdone, herr, hrej, hacc⟩ := statusWord_flags s
  exact ⟨statusWord s, exec_rd_readReg ha (by decide) (.inr rfl), by rw [hbusy, busy_iff], hdone, herr, hrej, hacc,
    statusWord_fields s⟩

/-- Settles O11: each register's word, field by field. -/
theorem idleReadsReturnRegisters : Obligations.IdleReadsReturnRegisters := by
  intro s a r hc hr hp _
  refine ⟨readReg s r, exec_rd_readReg hr hp (.inl hc), ?_⟩
  refine ⟨?_, ?_, ?_, ?_, ?_, ?_, ?_, ?_, ?_, ?_, ?_, ?_, ?_, ?_, ?_⟩ <;> rintro rfl
  case refine_2 => exact cfgWord_fields _
  case refine_12 => exact ⟨pairWord_low _ _, pairWord_high _ _⟩
  case refine_13 => exact accCtrlWord_fields _ _
  case refine_15 => exact irqEnWord_fields _ _
  all_goals rfl

/-- Settles O16: a register the running command does not change reads as while IDLE, with BUSY = 1; the others read a draw. -/
theorem readsWhileRunning : Obligations.ReadsWhileRunning := by
  intro s w a hw
  refine ⟨fun r hr hset => ?_, exec_rd_unmapped, fun r hr hset => ?_⟩
  · have hread : unspecifiedWhileRunning r = false ∧ r ≠ .accData := by
      rcases hset with rfl | rfl | rfl | rfl | rfl | rfl | rfl | rfl | rfl | rfl | rfl <;> decide
    refine ⟨readReg s r, exec_rd_readReg hr hread.2 (.inr hread.1), ?_⟩
    refine ⟨?_, ?_, ?_, ?_, ?_, ?_, ?_, ?_, ?_, ?_, ?_⟩ <;> rintro rfl
    case refine_2 => exact cfgWord_fields _
    case refine_8 =>
      obtain ⟨hbusy, hdone, herr, hrej, hacc⟩ := statusWord_flags s
      exact ⟨hbusy.trans (busy_of_running hw), hdone, herr, hrej, hacc, statusWord_fields s⟩
    case refine_9 => exact accCtrlWord_fields _ _
    case refine_11 => exact irqEnWord_fields _ _
    all_goals rfl
  · have hu : unspecifiedWhileRunning r = true := by
      rcases hset with rfl | rfl | rfl | rfl | rfl | rfl <;> rfl
    exact exec_rd_unspecified hr hw hu

/-! ### Writes -/

/-- A write that is performed (40_command_control.md R133, R138). -/
theorem exec_wr_writeReg {s : State} {a : BitVec 8} {r : Reg} (d : Word) (hr : regAt a = some r)
    (hb : s.core = .idle ∨ droppedWhileRunning r = false) : exec (.wr a d) s = .next (writeReg r d s) := by
  have hu : (s.busy && droppedWhileRunning r) = false := by
    rcases hb with hb | hb <;> simp [hb]
  show execWr a d s = _
  simp [execWr, hr, hu]

/-- Settles O13: a write to a read-only register is never dropped, and performing it does nothing. -/
theorem idleWritesToReadOnlyIgnored : Obligations.IdleWritesToReadOnlyIgnored := by
  intro s a r d hr hset
  have hro : droppedWhileRunning r = false ∧ writeReg r d s = s := by
    rcases hset with rfl | rfl | rfl | rfl | rfl | rfl | rfl <;> exact ⟨rfl, rfl⟩
  rw [exec_wr_writeReg d hr (.inr hro.1), hro.2]

/-- Settles O14: a STATUS write is performed in every state of the CORE. -/
theorem statusWriteClearsNamedFlags : Obligations.StatusWriteClearsNamedFlags := by
  intro s a d ha
  refine ⟨_, exec_wr_writeReg d ha (.inr rfl), rfl, ?_, ?_, ?_, ?_⟩ <;> simp [writeReg, clearStatus]

/-- The registers a host program writes and reads back (10_state.md R29 to R34, R48). -/
def ReadWrite (r : Reg) : Prop :=
  r = .symLen ∨ r = .bitLen ∨ r = .nEntries ∨ r = .tree ∨ r = .accCtrl ∨ r = .accIndex ∨ r = .irqEn

/-- What a read-write register reads as after a write: the reserved bits of ACC_CTRL and IRQ_EN are 0. -/
theorem readReg_writeReg_same {r : Reg} (hr : ReadWrite r) (d : Word) (s : State) :
    readReg (writeReg r d s) r = if r = .accCtrl then d &&& 0x10F else if r = .irqEn then d &&& 3 else d := by
  rcases hr with rfl | rfl | rfl | rfl | rfl | rfl | rfl
  case inr.inr.inr.inl => exact pairWord_extract d
  case inr.inr.inr.inr.inl => exact accCtrlWord_written d
  case inr.inr.inr.inr.inr.inr => exact irqEnWord_written d
  all_goals rfl

/-- A write to a read-write register changes what no other register reads as. -/
theorem readReg_writeReg_other {r q : Reg} (hr : ReadWrite r) (d : Word) (s : State) (hq : q ≠ r) :
    readReg (writeReg r d s) q = readReg s q := by
  rcases hr with rfl | rfl | rfl | rfl | rfl | rfl | rfl
  · cases q with
    | symLen => exact absurd rfl hq
    | _ => rfl
  · cases q with
    | bitLen => exact absurd rfl hq
    | _ => rfl
  · cases q with
    | nEntries => exact absurd rfl hq
    | _ => rfl
  · cases q with
    | tree => exact absurd rfl hq
    | _ => rfl
  · cases q with
    | accCtrl => exact absurd rfl hq
    | _ => rfl
  · cases q with
    | accIndex => exact absurd rfl hq
    | _ => rfl
  · cases q with
    | irqEn => exact absurd rfl hq
    | _ => rfl

/-- Settles O12: the write is performed, the read returns what the register holds. -/
theorem writtenRegistersReadBack : Obligations.WrittenRegistersReadBack := by
  intro s a r d hc hr hset
  have hkeep : r ≠ .accData ∧ (writeReg r d s).mems = s.mems ∧ (writeReg r d s).core = s.core := by
    rcases hset with rfl | rfl | rfl | rfl | rfl | rfl | rfl <;> exact ⟨by decide, rfl, rfl⟩
  obtain ⟨hp, hm, hcore⟩ := hkeep
  refine ⟨_, exec_wr_writeReg d hr (.inl hc), ?_, hm, hcore.trans hc, fun q => readReg_writeReg_other hset d s⟩
  rw [exec_rd_readReg hr hp (.inl (hcore.trans hc)), readReg_writeReg_same hset]

end Sys2Proof.Machine

/-! SUPPORT. What a step can do to STATUS and to the memories (10_state.md R26, R27, R35 to R44), the tree check, and the faults at cells without a value (70_reset_and_hazards.md R312). -/

namespace Sys2Proof.Machine

/-! ### What a host access leaves alone -/

/-- A host read changes no memory and no register but ACC_INDEX and, at ACC_DATA while IDLE, ACC_ERR (20_memory.md R74, R79). -/
theorem execRd_frame {a : BitVec 8} {s t : State} (h : execRd a s = .next t) :
    t.core = s.core ∧ t.mems = s.mems ∧
      t.regs = { s.regs with accErr := t.regs.accErr, accIndex := t.regs.accIndex } ∧
      (t.regs.accErr = s.regs.accErr ∨ t.regs.accErr = true ∧ s.core = .idle ∧ regAt a = some .accData) := by
  rcases execRd_cases a s with ⟨_, hr⟩ | ⟨r, ha, ⟨_, _, hr⟩ | ⟨hb, rfl, hr⟩ | ⟨_, _, hr⟩⟩ <;> rw [hr] at h
  · cases h; exact ⟨rfl, rfl, rfl, .inl rfl⟩
  · cases h; exact ⟨rfl, rfl, rfl, .inl rfl⟩
  · rcases portRead_cases s with ⟨_, hp⟩ | ⟨v, i, _, ⟨f, _, hp⟩ | ⟨d, _, hp⟩⟩ <;> rw [hp] at h <;> cases h <;>
      rw [autoIncrement_eq]
    · exact ⟨rfl, rfl, rfl, .inr ⟨rfl, (not_busy_iff s).mp hb, ha⟩⟩
    · exact ⟨rfl, rfl, rfl, .inl rfl⟩
  · cases h; exact ⟨rfl, rfl, rfl, .inl rfl⟩

/-- A host write to ACC_DATA changes no register but ACC_INDEX and ACC_ERR, and no view that is read-only (20_memory.md R78, R79). -/
theorem portWrite_frame (d : Word) (s : State) :
    (portWrite d s).regs = { s.regs with accErr := (portWrite d s).regs.accErr, accIndex := (portWrite d s).regs.accIndex } ∧
      ((portWrite d s).regs.accErr = s.regs.accErr ∨ (portWrite d s).regs.accErr = true) ∧
      (portWrite d s).mems.out = s.mems.out ∧ (portWrite d s).mems.clen = s.mems.clen ∧
      (portWrite d s).mems.cbits = s.mems.cbits := by
  rcases portWrite_cases d s with ⟨_, hr⟩ | ⟨v, i, _, _, hr⟩ <;> rw [hr, autoIncrement_eq]
  · exact ⟨rfl, .inr rfl, rfl, rfl, rfl⟩
  · cases v <;> exact ⟨rfl, .inl rfl, rfl, rfl, rfl⟩

/-! ### STATUS -/

/-- What a step can do to the fields of STATUS: nothing, or one of the events of 10_state.md R26 and R27. -/
inductive StatusEvent (s t : State) : Prop where
  | none (hdone : t.regs.done = s.regs.done) (herr : t.regs.err = s.regs.err) (hrej : t.regs.reject = s.regs.reject)
      (hacc : t.regs.accErr = s.regs.accErr) (hcode : t.regs.errCode = s.regs.errCode) (hlast : t.regs.lastCmd = s.regs.lastCmd)
  /-- The running command completes (40_command_control.md R131). -/
  | completion (w : Word) (hw : s.core = .running w) (hidle : t.core = .idle) (hdone : t.regs.done = true)
      (herr : t.regs.err = s.regs.err ∨ t.regs.err = true ∧ t.regs.errCode ≠ 0) (hrej : t.regs.reject = s.regs.reject)
      (hacc : t.regs.accErr = s.regs.accErr) (hlast : t.regs.lastCmd = s.regs.lastCmd)
  /-- A write to CMD is accepted (40_command_control.md R130). -/
  | acceptance (a : BitVec 8) (w : Word) (rest : List Input) (hidle : s.core = .idle)
      (hp : s.pending = .access (.write .word a w) :: rest) (ha : regAt a = some .cmd)
      (ht : t.regs = (acceptCommand w s).regs)
  /-- A write to STATUS clears flags. -/
  | clearing (a : BitVec 8) (d : Word) (rest : List Input) (hp : s.pending = .access (.write .word a d) :: rest)
      (ha : regAt a = some .status) (ht : t.regs = clearStatus d s.regs)
  /-- A write is dropped (40_command_control.md R133). -/
  | rejection (w : Word) (a : BitVec 8) (d : Word) (rest : List Input) (hw : s.core = .running w)
      (hp : s.pending = .access (.write .word a d) :: rest) (ht : t.regs = (rejectWrite s).regs)
  /-- An access to ACC_DATA is refused (20_memory.md R79). -/
  | refusal (a : BitVec 8) (rest : List Input) (hidle : s.core = .idle) (ha : regAt a = some .accData)
      (hp : s.pending = .access (.read .word a) :: rest ∨ ∃ d, s.pending = .access (.write .word a d) :: rest)
      (ht : t.regs = { (portError s).regs with accIndex := t.regs.accIndex })
  | reset (rest : List Input) (hp : s.pending = .reset :: rest) (ht : t.regs = Regs.reset)

theorem writeReg_statusEvent {s t : State} {a : BitVec 8} {d : Word} {rest : List Input} {r : Reg}
    (hp : s.pending = .access (.write .word a d) :: rest) (ha : regAt a = some r)
    (hd : s.busy = true → droppedWhileRunning r = false) (ht : t = writeReg r d { s with pending := rest }) :
    StatusEvent s t := by
  have hidle : droppedWhileRunning r = true → s.core = .idle := fun hr =>
    (not_busy_iff s).mp (by cases hb : s.busy <;> simp_all)
  subst ht
  cases r with
  | cmd => exact .acceptance a d rest (hidle rfl) hp ha rfl
  | status => exact .clearing a d rest hp ha rfl
  | accData =>
    obtain ⟨hregs, hacc, -⟩ := portWrite_frame d { s with pending := rest }
    rw [writeReg]
    rcases hacc with hacc | hacc <;> rw [hacc] at hregs
    · exact .none (by rw [hregs]) (by rw [hregs]) (by rw [hregs]) (by rw [hregs]) (by rw [hregs]) (by rw [hregs])
    · exact .refusal a rest (hidle rfl) ha (.inr ⟨d, hp⟩) hregs
  | _ => exact .none rfl rfl rfl rfl rfl rfl

theorem step_statusEvent {s t : State} (h : step s = .next t) : StatusEvent s t := by
  rcases step_kinds h with ⟨x, inputs, rfl⟩ | ⟨w, inputs, hw, hx⟩ | ⟨a, rest, hp, hx⟩ | ⟨a, d, rest, hp, hx⟩ | ⟨rest, hp, rfl⟩
  · exact .none rfl rfl rfl rfl rfl rfl
  · obtain ⟨hidle, hdone, herr, hrej, hacc, hlast, -⟩ := completionReport _ _ _ (isCommand_decodeCmd w) hx
    refine .completion w hw hidle hdone ?_ hrej hacc hlast
    rcases herr with ⟨_, _, he⟩ | ⟨he, h1, _⟩
    · exact .inl he
    · exact .inr ⟨he, fun h0 => by simp [h0] at h1⟩
  · obtain ⟨-, -, hregs, hacc | ⟨hacc, hidle, ha⟩⟩ := execRd_frame hx <;> rw [hacc] at hregs
    · exact .none (by rw [hregs]) (by rw [hregs]) (by rw [hregs]) (by rw [hregs]) (by rw [hregs]) (by rw [hregs])
    · exact .refusal a rest hidle ha (.inl hp) hregs
  · rcases execWr_cases a d { s with pending := rest } with ⟨_, hr⟩ | ⟨r, ha, ⟨hb, _, hr⟩ | ⟨hd, hr⟩⟩ <;> rw [hr] at hx <;> cases hx
    · exact .none rfl rfl rfl rfl rfl rfl
    · obtain ⟨w, hw⟩ := (busy_iff _).mp hb
      exact .rejection w a d rest hw hp rfl
    · exact writeReg_statusEvent hp ha hd rfl
  · exact .reset rest hp rfl

/-- Settles O28: each event of STATUS accounts for the changes it makes. -/
theorem statusFieldsChangeOnlyWhereStated : Obligations.StatusFieldsChangeOnlyWhereStated := by
  intro s t h accepts resets completes clears
  cases step_statusEvent h with
  | none hdone herr hrej hacc hcode hlast =>
    rw [hdone, herr, hrej, hacc, hcode, hlast]
    simp +contextual
  | completion w hw hidle hdone herr hrej hacc hlast =>
    have hc : completes := ⟨⟨w, hw⟩, hidle⟩
    rw [hdone, hrej, hacc, hlast]
    rcases herr with herr | ⟨herr, hcode⟩
    · simp +contextual [hc, herr]
    · simpa +contextual [hc, herr] using fun _ => hcode
  | acceptance a w rest hidle hp ha ht =>
    have hc : accepts := ⟨hidle, a, w, rest, hp, ha⟩
    rw [ht]
    simp +contextual [hc]
  | clearing a d rest hp ha ht =>
    have hc : ∀ b, d.getLsbD b = true → clears b := fun b hb => ⟨a, d, rest, hp, ha, hb⟩
    rw [ht]
    simp +contextual [clearStatus, hc]
  | rejection w a d rest hw hp ht =>
    have hc : (∃ w, s.core = .running w) ∧ ∃ a d rest, s.pending = .access (.write .word a d) :: rest := ⟨⟨w, hw⟩, a, d, rest, hp⟩
    rw [ht]
    simp +contextual [hc]
  | refusal a rest hidle ha hp ht =>
    have hc : s.core = .idle ∧ ∃ a rest, regAt a = some .accData ∧
        (s.pending = .access (.read .word a) :: rest ∨ ∃ d, s.pending = .access (.write .word a d) :: rest) :=
      ⟨hidle, a, rest, ha, hp⟩
    rw [ht]
    simpa +contextual using fun _ => hc
  | reset rest hp ht =>
    have hc : resets := ⟨rest, hp⟩
    rw [ht]
    simp +contextual [hc, Regs.reset]

/-! ### The memories and result lengths -/

theorem encode_decodeCmd_op : ∀ op : BitVec 4, encode (decodeCmd (0#28 ++ op : Word)) = .cmd (0#28 ++ op : Word) := by decide

/-- A command's instruction holds its whole word (30_encoding.md R102, R103). -/
theorem encode_decodeCmd (w : Word) : encode (decodeCmd w) = .cmd w := by
  by_cases h : rsvField w = 0
  · have hw : (0#28 ++ opField w : Word) = w := by
      have := rsv_append_op w
      rwa [h] at this
    rw [← hw]
    exact encode_decodeCmd_op _
  · rw [decodeCmd, if_pos h]
    exact congrArg Code.cmd (rsv_append_op w)

theorem running_of_decodeCmd {s : State} {w v : Word} {i : Instr} (hw : s.core = .running w) (hv : encode i = .cmd v)
    (hi : decodeCmd w = i) : s.core = .running v := by
  have := encode_decodeCmd w
  rw [hi, hv] at this
  rw [hw, Code.cmd.inj this]

/-- FREQ writes ESYM and ECNT only (41_frequency.md R160). -/
theorem execFreq_frame {s t : State} (h : exec .freq s = .next t) :
    t.mems = { s.mems with esym := t.mems.esym, ecnt := t.mems.ecnt } ∧ t.regs.outLen = s.regs.outLen := by
  rcases execFreq_next h with ⟨xs, _, _, rfl⟩ | ⟨e, rfl⟩ <;> exact ⟨rfl, rfl⟩

/-- BUILD writes NODE only (42_tree_build.md R180). -/
theorem execBuild_frame {s t : State} (h : exec .build s = .next t) :
    t.mems = { s.mems with nodeLr := t.mems.nodeLr, nodeWt := t.mems.nodeWt, nodeSym := t.mems.nodeSym } ∧
      t.regs.outLen = s.regs.outLen := by
  rcases execBuild_next h with ⟨u, hu, _, _, rfl⟩ | ⟨e, rfl⟩
  · obtain ⟨syms, counts, _, _, rfl⟩ := buildBody_ok hu
    rw [buildTree_frame]
    exact ⟨rfl, rfl⟩
  · exact ⟨rfl, rfl⟩

/-- GENTAB writes CLEN and CBITS only (43_code_table.md R203). -/
theorem execGentab_frame {s t : State} (h : exec .gentab s = .next t) :
    t.mems = { s.mems with clen := t.mems.clen, cbits := t.mems.cbits } ∧ t.regs.outLen = s.regs.outLen := by
  rcases execGentab_next h with ⟨codes, _, _, rfl⟩ | ⟨e, rfl⟩
  · rw [writeTable_frame]
    exact ⟨rfl, rfl⟩
  · exact ⟨rfl, rfl⟩

/-- ENCODE writes neither OUT nor OUT_LEN (44_encode.md R230). -/
theorem execEncode_frame {s t : State} (h : exec .encode s = .next t) :
    t.mems.out = s.mems.out ∧ t.regs.outLen = s.regs.outLen := by
  rcases execEncode_next h with ⟨e, rfl⟩ | ⟨xs, codes, es, ts, a, b, s3, _, _, _, _, _, _, rfl, ⟨_, rfl⟩ | ⟨e, _, rfl⟩⟩
  · exact ⟨rfl, rfl⟩
  all_goals
    rw [writeTable_frame, buildTree_frame]
    exact ⟨rfl, rfl⟩

/-- DECODE writes OUT only (45_decode.md R250). -/
theorem execDecode_frame {s t : State} (h : exec .decode s = .next t) : t.mems = { s.mems with out := t.mems.out } := by
  rcases execDecode_next h with ⟨_, rfl⟩ | ⟨e, rfl⟩ | ⟨_, _, _, xs, ⟨_, rfl⟩ | ⟨e, _, rfl⟩⟩ <;> rfl

/-- A host write changes neither OUT, CLEN, CBITS nor OUT_LEN (10_state.md R31, 20_memory.md R76). -/
theorem execWr_frame {a : BitVec 8} {d : Word} {s t : State} (h : execWr a d s = .next t) :
    t.mems.out = s.mems.out ∧ t.mems.clen = s.mems.clen ∧ t.mems.cbits = s.mems.cbits ∧ t.regs.outLen = s.regs.outLen := by
  rcases execWr_cases a d s with ⟨_, hr⟩ | ⟨r, _, ⟨_, _, hr⟩ | ⟨_, hr⟩⟩ <;> rw [hr] at h <;> cases h
  · exact ⟨rfl, rfl, rfl, rfl⟩
  · exact ⟨rfl, rfl, rfl, rfl⟩
  · cases r with
    | accData =>
      obtain ⟨hregs, -, hout, hclen, hcbits⟩ := portWrite_frame d s
      exact ⟨hout, hclen, hcbits, by rw [writeReg, hregs]⟩
    | _ => exact ⟨rfl, rfl, rfl, rfl⟩

/-- Each memory and OUT_LEN changes at the completion of its writers only (10_state.md R31, R36 to R38, R43, R44). -/
theorem command_writers {i : Instr} {s t : State} (hc : isCommand i = true) (h : exec i s = .next t) :
    (t.mems.bit ≠ s.mems.bit → i = .encode) ∧ (t.mems.out ≠ s.mems.out → i = .decode) ∧
    (t.mems.esym ≠ s.mems.esym ∨ t.mems.ecnt ≠ s.mems.ecnt → i = .freq ∨ i = .encode) ∧
    (t.mems.nodeLr ≠ s.mems.nodeLr ∨ t.mems.nodeWt ≠ s.mems.nodeWt ∨ t.mems.nodeSym ≠ s.mems.nodeSym →
      i = .build ∨ i = .encode) ∧
    (t.mems.clen ≠ s.mems.clen ∨ t.mems.cbits ≠ s.mems.cbits → i = .gentab ∨ i = .encode) ∧
    (t.regs.outLen ≠ s.regs.outLen → i = .decode) := by
  cases i with
  | nop => cases h; simp
  | illegalOp6 lo => cases h; simp
  | illegalOp8 lo => cases h; simp
  | illegalRsv rsv op => cases h; simp
  | freq =>
    obtain ⟨hm, ho⟩ := execFreq_frame h
    rw [hm, ho]
    simp
  | build =>
    obtain ⟨hm, ho⟩ := execBuild_frame h
    rw [hm, ho]
    simp
  | gentab =>
    obtain ⟨hm, ho⟩ := execGentab_frame h
    rw [hm, ho]
    simp
  | encode =>
    obtain ⟨hm, ho⟩ := execEncode_frame h
    rw [hm, ho]
    simp
  | decode =>
    rw [execDecode_frame h]
    simp
  | rd offset => cases hc
  | wr offset data => cases hc

/-- Settles O30: a completion writes what its command names, a host write spares the read-only views, and only reset does more. -/
theorem memoriesChangeOnlyByTheirWriters : Obligations.MemoriesChangeOnlyByTheirWriters := by
  intro s t h resets hostWrites
  rcases step_kinds h with ⟨x, inputs, rfl⟩ | ⟨w, inputs, hw, hx⟩ | ⟨a, rest, _, hx⟩ | ⟨a, d, rest, hp, hx⟩ | ⟨rest, hp, rfl⟩
  · simp
  · have hc := isCommand_decodeCmd w
    obtain ⟨-, -, -, -, -, -, hlen, -, -, -, -, -, hsym, -⟩ := completionReport _ _ _ hc hx
    obtain ⟨hbit, hout, hentry, hnode, htable, houtLen⟩ := command_writers hc hx
    refine ⟨fun hne => absurd hsym hne, fun hne => .inl (running_of_decodeCmd hw rfl (hbit hne)),
      fun hne => .inl (running_of_decodeCmd hw rfl (hout hne)), fun hne => ?_, fun hne => ?_, fun hne => ?_,
      fun hne => absurd hlen hne, fun hne => .inl (running_of_decodeCmd hw rfl (houtLen hne))⟩
    · exact (hentry hne).imp (running_of_decodeCmd hw rfl) fun hi => .inl (running_of_decodeCmd hw rfl hi)
    · exact (hnode hne).imp (running_of_decodeCmd hw rfl) fun hi => .inl (running_of_decodeCmd hw rfl hi)
    · exact (htable hne).imp (running_of_decodeCmd hw rfl) fun hi => .inl (running_of_decodeCmd hw rfl hi)
  · obtain ⟨-, hm, hregs, -⟩ := execRd_frame hx
    rw [hm, hregs]
    simp
  · have hc : hostWrites := ⟨a, d, rest, hp⟩
    obtain ⟨hout, hclen, hcbits, hlen⟩ := execWr_frame hx
    simp [hout, hclen, hcbits, hlen, hc]
  · have hc : resets := ⟨rest, hp⟩
    simp [hc]

/-! ### The tree check -/

/-- Both say that node memory holds a tree of distinct nodes and distinct symbols. -/
theorem wfTree_ok_iff_goodTree {p : Params} {m : Mems} {r : NodeIx} (hr : r ≠ NIL) :
    wfTree p m r = .ok none ↔ GoodTree p m r :=
  (wfTree_ok_iff_tree hr).trans goodTree_iff_tree.symm

/-- Settles O41, for every memory and every root but NIL. -/
theorem treeCheckAcceptsExactlyGoodTrees : Obligations.TreeCheckAcceptsExactlyGoodTrees :=
  fun _ _ _ _ hr => wfTree_ok_iff_goodTree hr

/-! ### Cells without a value -/

theorem map_readCell_unwritten {α β : Type} {v : View} {m : Mem α} {i : Nat} (f : α → β) (h : m.read i = none) :
    (readCell v m i).map f = .error (.unwrittenCell v i) := by
  rw [readCell_error.mpr ⟨h, rfl⟩]
  rfl

/-- A read of ACC_DATA that selects a cell without a value faults (70_reset_and_hazards.md R312). -/
theorem exec_rd_port_unwritten {s : State} {a : BitVec 8} {v : View} (hc : s.core = .idle) (ha : regAt a = some .accData)
    (hv : viewAt s.regs.accMem = some v) (hlt : s.regs.accIndex.toNat < viewDepth s.params v)
    (hr : viewRead s.mems v s.regs.accIndex.toNat = .error (.unwrittenCell v s.regs.accIndex.toNat)) :
    exec (.rd a) s = .fault (.unwrittenCell v s.regs.accIndex.toNat) := by
  have ht : portTarget s = some (v, s.regs.accIndex.toNat) := portTarget_some.mpr ⟨hv, rfl, hlt⟩
  show execRd a s = _
  simp [execRd, ha, hc, portRead, ht, hr]

theorem readRange_unwritten_zero {α : Type} {v : View} {m : Mem α} {xs : List α} {n : Nat} (hn : xs.length < n)
    (hx : Holds m 0 xs) (h : m.read xs.length = none) : readRange v m 0 n = .error (.unwrittenCell v xs.length) := by
  simpa using readRange_unwritten (v := v) xs 0 n hn hx (by simpa using h)

/-- FREQ and ENCODE read the whole input before anything else (41_frequency.md R160, 44_encode.md R230). -/
theorem exec_input_unwritten {s : State} {xs : List Sym} (hl : s.regs.symLen ≤ s.params.symDepth)
    (hn : xs.length < s.regs.symLen.toNat) (hx : Holds s.mems.sym 0 xs) (h : s.mems.sym.read xs.length = none) :
    exec .freq s = .fault (.unwrittenCell .sym xs.length) ∧ exec .encode s = .fault (.unwrittenCell .sym xs.length) := by
  have hr := readRange_unwritten_zero (v := .sym) hn hx h
  have hlt : ¬ s.params.symDepth < s.regs.symLen := BitVec.not_lt.mpr hl
  constructor
  · show complete (freqCmd s) = _
    rw [freqCmd, if_neg hlt, hr]
    rfl
  · show complete (encodeCmd s) = _
    rw [encodeCmd, encodeSteps, if_neg hlt, hr]
    rfl

/-- BUILD_CHECK reads a count after a valid part of the table (42_tree_build.md R181). -/
theorem exec_build_unwritten {s : State} {es : List (Sym × Word)} (hl : s.regs.nEntries.toNat ≤ nMax s.params)
    (hn : es.length < s.regs.nEntries.toNat) (hes : HoldsEntries s.mems es) (hv : ValidEntries es)
    (h : s.mems.ecnt.read es.length = none) : exec .build s = .fault (.unwrittenCell .ecnt es.length) := by
  have hc : checkEntries s.mems s.regs.nEntries.toNat 0 [] 0 = .error (.unwrittenCell .ecnt es.length) :=
    checkEntries_unwritten hes hv h _ 0 [] (Nat.zero_le _) (by omega) (by simp [SeenBefore])
  show complete (buildCmd s) = _
  rw [buildCmd, if_neg (by omega), hc]
  rfl

theorem ne_nil_of_inside {p : Params} {r : NodeIx} (h : r.toNat < nodeDepth p) : r ≠ NIL := by
  rintro rfl
  have := nodeDepth_le p
  simp at h
  omega

/-- WF_TREE reads the root first (43_code_table.md R201). -/
theorem wfTree_unwritten_root {p : Params} {m : Mems} {r : NodeIx} (hr : r.toNat < nodeDepth p)
    (h : m.nodeLr.read r.toNat = none) : wfTree p m r = .error (.unwrittenCell .nodeLr r.toNat) := by
  obtain ⟨n, hn⟩ : ∃ n, nodeDepth p = n + 1 := ⟨nodeDepth p - 1, by omega⟩
  rw [wfTree, if_neg (ne_nil_of_inside hr)]
  rw [hn] at hr ⊢
  simp [wfLoop, Nat.not_le.mpr hr, readCell_error.mpr ⟨h, rfl⟩]

/-- GENTAB and DECODE check the tree before they use it (43_code_table.md R203, 45_decode.md R250). -/
theorem exec_root_unwritten {s : State} (hr : s.regs.root.toNat < nodeDepth s.params)
    (h : s.mems.nodeLr.read s.regs.root.toNat = none) :
    exec .gentab s = .fault (.unwrittenCell .nodeLr s.regs.root.toNat) ∧
      (s.regs.bitLen ≤ s.params.bitDepth → exec .decode s = .fault (.unwrittenCell .nodeLr s.regs.root.toNat)) := by
  have hw := wfTree_unwritten_root hr h
  refine ⟨?_, fun hb => ?_⟩
  · show complete (gentabCmd s) = _
    rw [gentabCmd, hw]
    rfl
  · show complete (decodeCommand s) = _
    rw [decodeCommand, decodeSteps, if_neg (ne_nil_of_inside hr), if_neg (BitVec.not_lt.mpr hb), hw]
    rfl

/-- On a well-formed tree and a length within BIT, DECODE is its walk (45_decode.md R250). -/
theorem exec_decode_walk {s : State} (hr : s.regs.root ≠ NIL) (hb : s.regs.bitLen ≤ s.params.bitDepth)
    (hg : GoodTree s.params s.mems s.regs.root) :
    exec .decode s = complete (onRaise (fun t => { t with regs := { t.regs with outLen := 0 } }) (decodeWalk s)) := by
  show complete (decodeCommand s) = _
  rw [decodeCommand, decodeSteps, if_neg hr, if_neg (BitVec.not_lt.mpr hb), (wfTree_ok_iff_goodTree hr).mpr hg]

/-- The walk reads the first token first (45_decode.md R250). -/
theorem exec_decode_unwritten {s : State} (hr : s.regs.root ≠ NIL) (hg : GoodTree s.params s.mems s.regs.root)
    (hb : s.regs.bitLen ≤ s.params.bitDepth) (h0 : s.regs.bitLen ≠ 0) (h : s.mems.bit.read 0 = none) :
    exec .decode s = .fault (.unwrittenCell .bit 0) := by
  obtain ⟨n, hn⟩ : ∃ n, s.regs.bitLen.toNat = n + 1 := Nat.exists_eq_succ_of_ne_zero (by simpa using (BitVec.toNat_inj.not).mpr h0)
  rw [exec_decode_walk hr hb hg, decodeWalk, hn, decodeLoop, readCell_error.mpr ⟨h, rfl⟩]
  rfl

/-- Settles O20: the port reads the selected cell, and each command reads the named cell before any other without a value. -/
theorem portReadOfUnwrittenCellFaults : Obligations.PortReadOfUnwrittenCellFaults := by
  refine ⟨?_, fun s xs hl hn hx h => exec_input_unwritten hl hn hx h, fun s es hl hn hesym hecnt hv h => ?_,
    fun s hr h => exec_root_unwritten hr h, fun s hr hg hb h0 h => exec_decode_unwritten hr hg hb h0 h⟩
  · rintro s a i hc ha rfl faults
    have port := fun v => exec_rd_port_unwritten (v := v) hc ha
    exact ⟨fun hm hlt h => port .sym (by rw [hm]; rfl) hlt (map_readCell_unwritten _ h),
      fun hm hlt h => port .bit (by rw [hm]; rfl) hlt (map_readCell_unwritten _ h),
      fun hm hlt h => port .out (by rw [hm]; rfl) hlt (map_readCell_unwritten _ h),
      fun hm hlt h => port .esym (by rw [hm]; rfl) hlt (map_readCell_unwritten _ h),
      fun hm hlt h => port .ecnt (by rw [hm]; rfl) hlt (readCell_error.mpr ⟨h, rfl⟩),
      fun hm hlt h => port .nodeLr (by rw [hm]; rfl) hlt (map_readCell_unwritten _ h),
      fun hm hlt h => port .nodeWt (by rw [hm]; rfl) hlt (readCell_error.mpr ⟨h, rfl⟩),
      fun hm hlt h => port .nodeSym (by rw [hm]; rfl) hlt (map_readCell_unwritten _ h),
      fun hm hlt h => port .clen (by rw [hm]; rfl) hlt (map_readCell_unwritten _ h),
      fun hm hlt h => port .cbits (by rw [hm]; rfl) hlt (map_readCell_unwritten _ h)⟩
  · refine exec_build_unwritten hl hn (fun j hj => ⟨?_, ?_⟩) hv h
    · have := hesym j (by simpa using hj)
      simpa using this
    · have := hecnt j (by simpa using hj)
      simpa using this

end Sys2Proof.Machine

/-! SUPPORT. BUILD, GENTAB and DECODE on the memories of 10_state.md R35 to R44: the merges, the codes, and the INVALID token. -/

namespace Sys2Proof.Machine

/-! ### BUILD -/

/-- The internal nodes BUILD creates for a table, in creation order (42_tree_build.md R180 step 2). -/
def mergedNodes (es : List (Sym × Word)) : List Node :=
  mergeLoop (es.length - 1) (es.map (·.2)).zipIdx es.length

/-- Node memory holds what BUILD writes for a table: its leaves, then its merges (42_tree_build.md R180, 10_state.md R42). -/
structure BuiltNodes (m : Mems) (es : List (Sym × Word)) : Prop where
  leaf : ∀ k, (h : k < es.length) →
    m.nodeLr.read k = some ⟨NIL, NIL⟩ ∧ m.nodeWt.read k = some es[k].2 ∧ m.nodeSym.read k = some ⟨es[k].1, true⟩
  merge : ∀ j, (h : j < (mergedNodes es).length) →
    m.nodeLr.read (es.length + j) = some ⟨(mergedNodes es)[j].left, (mergedNodes es)[j].right⟩ ∧
      m.nodeWt.read (es.length + j) = some (mergedNodes es)[j].weight ∧ m.nodeSym.read (es.length + j) = some ⟨0, false⟩

theorem mergedNodes_length {es : List (Sym × Word)} (he : es ≠ []) : (mergedNodes es).length = es.length - 1 := by
  have hpos := List.length_pos_iff.mpr he
  obtain ⟨h1, h2, -⟩ := startSet_facts es
  exact mergeLoop_length _ _ _ (by simp; omega) h1 h2

theorem writeNodes_built {m : Mems} {es : List (Sym × Word)} (hw : NodeWf m) (he : es ≠ []) :
    BuiltNodes (writeNodes (buildNodes es) m) es := by
  have hlen := buildNodes_length he
  have hml := mergedNodes_length he
  obtain ⟨hr, -⟩ := writeNodes_read hw (buildNodes es)
  refine ⟨fun k hk => ?_, fun j hj => ?_⟩
  · have := hr k (by omega)
    rwa [buildNodes_leaf es k hk] at this
  · have hnode : (buildNodes es)[es.length + j]'(by omega) = (mergedNodes es)[j] := buildNodes_merge es j hj _
    obtain ⟨hsym, hsymv⟩ := mergeLoop_blank _ _ _ (mergedNodes es)[j] (List.getElem_mem hj)
    have := hr (es.length + j) (by omega)
    rwa [hnode, hsym, hsymv] at this

/-- The working set of a table at the creation of the `i`-th merge, as keys (42_tree_build.md R182). -/
def WorkingKey (es : List (Sym × Word)) (i : Nat) (c : Key) : Prop :=
  InMergeSet (es.map (·.2)).zipIdx es.length (mergedNodes es) i c

section
variable {m : Mems} {es : List (Sym × Word)} {i : Nat} (hb : BuiltNodes m es)
include hb

/-- A working key's weight is its node's. -/
theorem BuiltNodes.weight {c : Key} (hc : WorkingKey es i c) : m.nodeWt.read c.2 = some c.1 := by
  obtain ⟨hc | ⟨j, hj, _, rfl⟩, -⟩ := hc
  · obtain ⟨hlt, he⟩ := mem_startSet.mp hc
    rw [(hb.leaf c.2 hlt).2.1, he]
  · exact (hb.merge j hj).2.1

/-- A working key's node is in the working set of node memory. -/
theorem BuiltNodes.inWorkingSet {c : Key} (hi : i < (mergedNodes es).length) (hc : WorkingKey es i c) :
    InWorkingSet m es.length (es.length + i) c.2 := by
  obtain ⟨hmem, hchild⟩ := hc
  refine ⟨?_, fun j lr hj hji hlr => ?_⟩
  · rcases hmem with hmem | ⟨j, _, hji, rfl⟩
    · obtain ⟨hlt, -⟩ := mem_startSet.mp hmem
      omega
    · simp only
      omega
  · obtain ⟨k, rfl⟩ : ∃ k, j = es.length + k := ⟨j - es.length, by omega⟩
    rw [(hb.merge k (by omega)).1] at hlr
    cases hlr
    exact hchild k (by omega) (by omega)

/-- Every node of the working set of node memory is a working key's. -/
theorem BuiltNodes.workingKey {q : Nat} (hi : i < (mergedNodes es).length)
    (hq : InWorkingSet m es.length (es.length + i) q) : ∃ w, WorkingKey es i (w, q) := by
  obtain ⟨hlt, hchild⟩ := hq
  have hout : ∀ j, (h : j < (mergedNodes es).length) → j < i →
      (mergedNodes es)[j].left.toNat ≠ q ∧ (mergedNodes es)[j].right.toNat ≠ q := fun j hj hji =>
    hchild (es.length + j) _ (by omega) (by omega) (hb.merge j hj).1
  by_cases hq : q < es.length
  · exact ⟨es[q].2, .inl (mem_startSet.mpr ⟨hq, rfl⟩), hout⟩
  · obtain ⟨j, rfl⟩ : ∃ j, q = es.length + j := ⟨q - es.length, by omega⟩
    exact ⟨(mergedNodes es)[j].weight, .inr ⟨j, by omega, by omega, rfl⟩, hout⟩

/-- The order of keys is the order of their nodes in node memory. -/
theorem BuiltNodes.keyBelow {a b : Key} (ha : WorkingKey es i a) (hb' : WorkingKey es i b) (h : keyLt a b = true) :
    KeyBelow m a.2 b.2 :=
  ⟨a.1, b.1, hb.weight ha, hb.weight hb', keyLt_iff.mp h⟩

/-- The `i`-th node created merges the two members of the working set with the least keys (42_tree_build.md R182, R183). -/
theorem BuiltNodes.mergesLeast (hv : ValidEntries es) (hd : 2 * es.length - 1 ≤ 65535) (hi : i < (mergedNodes es).length) :
    ∃ l r a b, m.nodeLr.read (es.length + i) = some ⟨BitVec.ofNat 16 l, BitVec.ofNat 16 r⟩ ∧
      m.nodeSym.read (es.length + i) = some ⟨0, false⟩ ∧
      InWorkingSet m es.length (es.length + i) l ∧ InWorkingSet m es.length (es.length + i) r ∧ l ≠ r ∧
      m.nodeWt.read l = some a ∧ m.nodeWt.read r = some b ∧ m.nodeWt.read (es.length + i) = some (a + b) ∧
      a.toNat + b.toNat < 2 ^ 32 ∧ KeyBelow m l r ∧
      ∀ p, InWorkingSet m es.length (es.length + i) p → p ≠ l → p ≠ r → KeyBelow m r p := by
  obtain ⟨hnd, hlt, htot⟩ := startSet_facts es
  have he : es ≠ [] := by
    rintro rfl
    exact absurd hi (Nat.not_lt_zero i)
  have hpos := List.length_pos_iff.mpr he
  obtain ⟨a, b, hnode, hab, hsum, ha, hb', hleast⟩ :=
    mergeLoop_spec (es.length - 1) _ es.length (by simp; omega) hnd hlt (by omega) (by rw [htot]; exact hv.2.2) i hi
  obtain ⟨hlr, hwt, hsym⟩ := hb.merge i hi
  rw [show (mergedNodes es)[i] = mergedNode a b from hnode] at hlr hwt
  refine ⟨a.2, b.2, a.1, b.1, hlr, hsym, hb.inWorkingSet hi ha, hb.inWorkingSet hi hb', fun hne => ?_, hb.weight ha, hb.weight hb',
    hwt, hsum, hb.keyBelow ha hb' hab, fun p hp hpl hpr => ?_⟩
  · have hw : a.1 = b.1 := by
      have := hb.weight ha
      rw [hne, hb.weight hb'] at this
      exact (Option.some.inj this).symm
    have := keyLt_iff.mp hab
    rw [hw, hne] at this
    simp at this
  · obtain ⟨w, hw⟩ := hb.workingKey hi hp
    exact hb.keyBelow hb' hw (hleast _ hw hpl hpr)

end

/-- BUILD on a valid table within capacity is BUILD_BODY on its entries (42_tree_build.md R180, R181). -/
theorem exec_build_valid {s : State} {es : List (Sym × Word)} (he : EntriesAre s es) (hv : ValidEntries es)
    (hl : es.length ≤ nMax s.params) : exec .build s = .next (completeOk (buildTree es s)) := by
  obtain ⟨hn, hes⟩ := entriesAre_holds he
  show complete (buildCmd s) = _
  rw [buildCmd, hn, if_neg (by omega), checkEntries_valid hes hv, buildBody_of_entries hes]
  rfl

theorem buildTree_of_ne_nil {es : List (Sym × Word)} (he : es ≠ []) (s : State) :
    buildTree es s = { s with
      mems := writeNodes (buildNodes es) s.mems
      regs := { s.regs with root := BitVec.ofNat 16 (2 * es.length - 2), nNodes := BitVec.ofNat 16 (2 * es.length - 1) } } := by
  have hlen := buildNodes_length he
  cases es with
  | nil => exact absurd rfl he
  | cons e rest =>
    simp only [buildTree, hlen]
    rfl

theorem inv_nodeWf {s : State} (h : Inv s) : NodeWf s.mems :=
  ⟨(memOk_iff.mp h.nodeLr).1, (memOk_iff.mp h.nodeWt).1, (memOk_iff.mp h.nodeSym).1⟩

/-- Settles O38: the leaves and merges `buildNodes` lists, read back from node memory. -/
theorem buildMergesLeastKeys : Obligations.BuildMergesLeastKeys := by
  rintro s es n hs he hv rfl hn hl
  have hne : es ≠ [] := List.length_pos_iff.mp hn
  have hw := inv_nodeWf hs
  have hb := writeNodes_built hw hne
  have hd : 2 * es.length - 1 ≤ 65535 := by
    have := nodeDepth_le s.params
    simp only [nodeDepth] at this
    omega
  refine ⟨_, exec_build_valid he hv hl, ?_⟩
  rw [buildTree_of_ne_nil hne]
  refine ⟨rfl, hb.leaf, fun i hi hi' => ?_, fun i hi => ?_⟩
  · obtain ⟨j, rfl⟩ : ∃ j, i = es.length + j := ⟨i - es.length, by omega⟩
    exact hb.mergesLeast hv hd (by rw [mergedNodes_length hne]; omega)
  · exact (writeNodes_read hw (buildNodes es)).2 i (by rw [buildNodes_length hne]; exact hi)

/-! ### GENTAB -/

theorem BTree.syms_fit {p : Params} {m : Mems} {t : BTree} {d : Nat} (h : t.Matches m d)
    (hm : memOk m.nodeSym (nodeDepth p) (fun n => n.sym.toNat < nsym p) = true) : ∀ x ∈ t.syms, x.toNat < nsym p := by
  intro x hx
  rw [← t.codes_syms] at hx
  obtain ⟨⟨path, y⟩, hmem, rfl⟩ := List.mem_map.mp hx
  obtain ⟨q, -, hq⟩ := (codePath_tree h path y).mpr hmem
  simpa using (read_memOk hm hq).2

/-- A code of the table is no longer than the number of leaves (43_code_table.md R202, R204). -/
theorem BTree.tableCodes_length {t : BTree} {e : Sym × List CodeBit} (he : e ∈ t.tableCodes) : e.2.length ≤ t.syms.length := by
  cases t with
  | leaf q x =>
    obtain rfl : e = (x, [0]) := by simpa using he
    simp [BTree.syms]
  | node q l r =>
    rw [BTree.tableCodes_node] at he
    obtain ⟨⟨path, x⟩, hmem, rfl⟩ := List.mem_map.mp he
    obtain ⟨u, hu⟩ := ((BTree.node q l r).mem_codes path x).mp hmem
    have := (BTree.node q l r).path_length_lt path _ hu
    simp only
    omega

/-- GENTAB on a tree in memory writes the tree's codes (43_code_table.md R203). -/
theorem exec_gentab_tree {s : State} {t : BTree} (htop : t.top = s.regs.root) (h : t.Matches s.mems (nodeDepth s.params))
    (hn : t.nodes.Nodup) (hs : t.syms.Nodup) :
    exec .gentab s = .next (completeOk { s with mems := writeTable s.params s.mems t.tableCodes }) := by
  have hr : s.regs.root ≠ NIL := htop ▸ BTree.top_ne_nil h
  have hw : wfTree s.params s.mems s.regs.root = .ok none := (wfTree_ok_iff_tree hr).mpr ⟨t, htop, h, hn, hs⟩
  have hc := treeCodes_tree h hn
  rw [htop] at hc
  show complete (gentabCmd s) = _
  rw [gentabCmd, hw, gentabBody, hc]
  rfl

/-- A tree's root is internal, or a leaf, as node memory says. -/
theorem BTree.of_root {m : Mems} {d : Nat} {t : BTree} {x : Sym} {v : Bool} (h : t.Matches m d)
    (hx : m.nodeSym.read t.top.toNat = some ⟨x, v⟩) :
    (v = true ∧ t.tableCodes = [(x, [0])]) ∨ (v = false ∧ t.tableCodes = t.codes.map fun e => (e.2, e.1)) := by
  cases t with
  | leaf q y =>
    obtain ⟨-, -, hy⟩ := h
    rw [BTree.top_leaf, hy] at hx
    cases hx
    exact .inl ⟨rfl, rfl⟩
  | node q l r =>
    obtain ⟨-, -, -, -, ⟨y, hy⟩, -⟩ := h
    rw [BTree.top_node, hy] at hx
    cases hx
    exact .inr ⟨rfl, rfl⟩

/-- Settles O43: the table of the tree's codes, symbol by symbol. -/
theorem gentabWritesTheCodes : Obligations.GentabWritesTheCodes := by
  intro s hi hr hg
  obtain ⟨t, htop, hm, hn, hs⟩ := goodTree_iff_tree.mp hg
  have hlen : ∀ e ∈ t.tableCodes, e.2.length ≤ nMax s.params := fun e he =>
    (BTree.tableCodes_length he).trans (length_le_of_nodup_syms hs (BTree.syms_fit hm hi.nodeSym))
  obtain ⟨-, hin, hout⟩ := writeTable_spec (m := s.mems) (by rw [t.tableCodes_syms]; exact hs) hlen
  refine ⟨_, exec_gentab_tree htop hm hn hs, ?_, fun hint path x hcp => ?_, fun x hx => ?_, fun x hx _ => ?_⟩
  · rw [writeTable_frame]
    rfl
  · obtain ⟨-, z, hz⟩ := hint
    rw [← htop] at hz hcp
    obtain ⟨hv, -⟩ | ⟨-, hcodes⟩ := BTree.of_root hm hz
    · cases hv
    · have hmem : (x, path) ∈ t.tableCodes := by
        rw [hcodes]
        exact List.mem_map.mpr ⟨(path, x), (codePath_tree hm path x).mp hcp, rfl⟩
      obtain ⟨hclen, hcbits⟩ := hin _ hmem
      refine ⟨⟨_, hclen, toNat_ofNat_ix ?_⟩, hcbits⟩
      exact lt_of_le_of_lt ((hlen _ hmem).trans (nsym_le s.params)) (by decide)
  · rw [← htop] at hx
    obtain ⟨-, hcodes⟩ | ⟨hv, -⟩ := BTree.of_root hm hx
    · obtain ⟨hclen, hcbits⟩ := hin (x, [0]) (by rw [hcodes]; simp)
      refine ⟨hclen, fun j hj => ?_⟩
      rw [completeOk_mems, hcbits j hj]
      cases j <;> rfl
    · cases hv
  · refine hout x fun hmem => ?_
    rw [t.tableCodes_syms, ← t.codes_syms] at hmem
    obtain ⟨⟨path, y⟩, hc, rfl⟩ := List.mem_map.mp hmem
    exact hx path (by rw [← htop]; exact (codePath_tree hm path y).mpr hc)

/-! ### DECODE -/

/-- A walk that ends by an error keeps the symbols emitted and clears OUT_LEN (45_decode.md R250, 60_exceptions.md R283). -/
theorem exec_decode_raise {s : State} {xs : List Sym} {e : CmdError} (hr : s.regs.root ≠ NIL)
    (hb : s.regs.bitLen ≤ s.params.bitDepth) (hg : GoodTree s.params s.mems s.regs.root)
    (hloop : decodeLoop s.params s.mems s.regs.root s.regs.bitLen.toNat 0 s.regs.root 0 = .ok (xs, some e)) :
    exec .decode s = .next (completeError e { s with
      mems := { s.mems with out := s.mems.out.writeList 0 xs }
      regs := { s.regs with outLen := 0 } }) := by
  rw [exec_decode_walk hr hb hg, decodeWalk, hloop]
  rfl

/-- Bits stored as tokens, and one token after them. -/
theorem holds_bits_token {m : Mems} {bs : List CodeBit} {tok : Token}
    (h : Holds m.bit 0 (bs.map (BitVec.setWidth 2) ++ [tok])) : HoldsBits m 0 bs ∧ m.bit.read bs.length = some tok := by
  refine ⟨fun j hj => ?_, ?_⟩
  · have := h j (by simp; omega)
    rw [this, List.getElem_append_left (by simpa using hj), List.getElem_map]
  · have := h bs.length (by simp)
    simpa using this

/-- The loop at an INVALID token ends there, wherever the cursor is (45_decode.md R254). -/
theorem decodeLoop_invalid {p : Params} {m : Mems} {r cur : NodeIx} {tok : Token} (n k o : Nat)
    (hk : m.bit.read k = some tok) (ht : invalidToken tok = true) :
    decodeLoop p m r (n + 1) k cur o = .ok ([], some (.invalidBit k)) := by
  simp [decodeLoop, readCell_ok.mpr hk, decodeToken, ht]

/-- The loop over codes, a part of a code that ends inside, and an INVALID token (45_decode.md R254). -/
theorem decodeLoop_codes_invalid {p : Params} {m : Mems} {d : Nat} {t : BTree} {x y : Sym} (hm : t.Matches m d)
    (hroot : m.nodeSym.read t.top.toNat = some ⟨x, false⟩) {l : List (List CodeBit × Sym)} {path : List CodeBit} {q : NodeIx}
    (hl : ∀ e ∈ l, e ∈ t.codes) (hlen : l.length ≤ p.outDepth.toNat) (hpath : walkPath m t.top path = some q)
    (hq : m.nodeSym.read q.toNat = some ⟨y, false⟩) (hbits : HoldsBits m 0 (l.flatMap (·.1) ++ path)) {tok : Token}
    (htok : m.bit.read (l.flatMap (·.1) ++ path).length = some tok) (hinv : invalidToken tok = true) (n : Nat) :
    decodeLoop p m t.top (n + 1 + (l.flatMap (·.1) ++ path).length) 0 t.top 0 =
      .ok (l.map (·.2), some (.invalidBit (l.flatMap (·.1) ++ path).length)) := by
  obtain ⟨hb1, hb2⟩ := holdsBits_append.mp hbits
  rw [walkPath_tree path t hm] at hpath
  obtain ⟨u, hu, rfl⟩ := Option.map_eq_some_iff.mp hpath
  have hum := BTree.sub_matches path t u hm hu
  cases u with
  | leaf q z =>
    obtain ⟨-, -, hz⟩ := hum
    rw [BTree.top_leaf, hz] at hq
    cases hq
  | node q l' r' =>
    rw [List.length_append] at htok ⊢
    rw [show n + 1 + ((l.flatMap (·.1)).length + path.length) = (n + 1 + path.length) + (l.flatMap (·.1)).length by omega,
      decodeLoop_codes hm hroot l _ 0 0 hl hb1 (by omega),
      decodeLoop_inside hroot path t q l' r' (n + 1) _ _ hm hu hb2, Nat.zero_add, decodeLoop_invalid n _ _ htok hinv]
    simp

/-- A walk that ends at a node without a symbol starts at one. -/
theorem walkPath_start {m : Mems} {r q : NodeIx} {path : List CodeBit} {y : Sym} (h : walkPath m r path = some q)
    (hq : m.nodeSym.read q.toNat = some ⟨y, false⟩) : ∃ x, m.nodeSym.read r.toNat = some ⟨x, false⟩ := by
  cases path with
  | nil => cases h; exact ⟨y, hq⟩
  | cons b bs =>
    rw [walkPath] at h
    split at h
    · rename_i ns lr hns _
      obtain ⟨x, v⟩ := ns
      cases v with
      | true => cases h
      | false => exact ⟨x, hns⟩
    · cases h

/-- Settles O56: the walk over the codes and the part of a code comes to the token. -/
theorem decodeReportsInvalidToken : Obligations.DecodeReportsInvalidToken := by
  intro s l path q tok hi hr hg hb hl hlen hpath hq htok hlt hbits
  obtain ⟨t, htop, hm, -, -⟩ := goodTree_iff_tree.mp hg
  obtain ⟨-, y, hy⟩ := hq
  obtain ⟨x, hx⟩ := walkPath_start hpath hy
  obtain ⟨hbs, htokAt⟩ := holds_bits_token hbits
  have hinv : invalidToken tok = true := by rcases htok with rfl | rfl <;> rfl
  have hcodes : ∀ e ∈ l, e ∈ t.codes := fun e he => (codePath_tree hm e.1 e.2).mp (htop ▸ hl e he)
  obtain ⟨n, hn⟩ : ∃ n, s.regs.bitLen.toNat = n + 1 + (l.flatMap (·.1) ++ path).length :=
    ⟨s.regs.bitLen.toNat - (l.flatMap (·.1) ++ path).length - 1, by omega⟩
  have hloop := decodeLoop_codes_invalid hm (htop ▸ hx) hcodes hlen (htop ▸ hpath) hy hbs htokAt hinv n
  rw [htop, ← hn] at hloop
  have hw := (memOk_iff.mp hi.out).1
  exact ⟨_, exec_decode_raise hr hb hg hloop, rfl, fun k hk => read_writeList_in _ 0 _ hw k hk,
    fun k hk => read_writeList_above (i := 0) _ _ hw (by simpa using hk)⟩

end Sys2Proof.Machine

/-! SUPPORT. The proofs of the family 20_memory.md: bus accesses, the access port, and host accesses while a command runs. -/

namespace Sys2Proof.Machine

/-! ### Accesses the bus refuses or ignores -/

/-- A pending access the decoder rejects is refused (20_memory.md R71). -/
theorem step_rejected {s : State} {a : BusAccess} {rest : List Input} {e : DecodeError}
    (hp : s.pending = .access a :: rest) (hd : decode (.bus a) = .error e) : step s = .refused (refusalOf e) := by
  simp [step, nextStep, hp, hd]

/-- Settles O4: the decoder rejects both sub-word sizes, in both directions. -/
theorem subWordAccessRefused : Obligations.SubWordAccessRefused := by
  rintro s rest a ⟨off, d, rfl | rfl | rfl | rfl⟩ hp <;> exact step_rejected hp rfl

/-- A write to an unmapped offset (20_memory.md R72). -/
theorem exec_wr_unmapped {s : State} {a : BitVec 8} (ha : 0x44 ≤ a.toNat) (d : Word) : exec (.wr a d) s = .next s := by
  show execWr a d s = _
  simp [execWr, (registerOffsets a).2.mpr ha]

/-- Settles O9: no register is at the offset, whatever the CORE does. -/
theorem unmappedOffsets : Obligations.UnmappedOffsets :=
  fun _ _ d ha => ⟨exec_rd_unmapped ha, exec_wr_unmapped ha d⟩

/-! ### Reads of the access port -/

/-- While IDLE a read of ACC_DATA is the access port's (40_command_control.md R137). -/
theorem exec_rd_port {s : State} {a : BitVec 8} (hc : s.core = .idle) (ha : regAt a = some .accData) :
    exec (.rd a) s = portRead s := by
  show execRd a s = _
  simp [execRd, ha, hc]

/-- While IDLE a write of ACC_DATA is the access port's (40_command_control.md R138). -/
theorem exec_wr_port {s : State} {a : BitVec 8} (hc : s.core = .idle) (ha : regAt a = some .accData) (d : Word) :
    exec (.wr a d) s = .next (portWrite d s) :=
  exec_wr_writeReg d ha (.inl hc)

/-- A port read of a selected cell that reads as `w` (20_memory.md R77, R80). -/
theorem exec_rd_port_cell {s : State} {a : BitVec 8} {v : View} {w : Word} (hc : s.core = .idle) (ha : regAt a = some .accData)
    (hv : viewAt s.regs.accMem = some v) (hlt : s.regs.accIndex.toNat < viewDepth s.params v)
    (hr : viewRead s.mems v s.regs.accIndex.toNat = .ok w) :
    exec (.rd a) s = .next { s with
      rdata := w
      regs := { s.regs with accIndex := if s.regs.autoInc then s.regs.accIndex + 1 else s.regs.accIndex } } := by
  have ht : portTarget s = some (v, s.regs.accIndex.toNat) := portTarget_some.mpr ⟨hv, rfl, hlt⟩
  rw [exec_rd_port hc ha]
  simp only [portRead, ht, hr, autoIncrement_eq]

theorem map_readCell_written {α β : Type} {v : View} {m : Mem α} {i : Nat} {x : α} {y : β} {f : α → β} (h : m.read i = some x)
    (hf : f x = y) : (readCell v m i).map f = .ok y := by
  rw [readCell_ok.mpr h, ← hf]
  rfl

/-- RIGHT stands before LEFT in the word NODE_LR reads as (20_memory.md R77). -/
theorem nodeLrWord_eq (l r : NodeIx) : nodeLrWord ⟨l, r⟩ = r ++ l := rfl

/-- SYMV stands in bit 31 of the word NODE_SYM reads as (20_memory.md R77). -/
theorem nodeSymWord_eq (x : Sym) (v : Bool) : nodeSymWord ⟨x, v⟩ = (if v then 0x80000000 else 0) ||| x.setWidth 32 := by
  have hflag : flagAt 31 v = if v then 0x80000000 else 0 := by cases v <;> decide
  rw [nodeSymWord, hflag]

/-- Settles O17: each view selects its memory and widens the cell's value. -/
theorem portReadReturnsCell : Obligations.PortReadReturnsCell := by
  rintro s a i hc ha rfl reads
  have port := fun v w => exec_rd_port_cell (v := v) (w := w) hc ha
  exact ⟨fun hm hlt c h => port .sym _ (by rw [hm]; rfl) hlt (map_readCell_written h rfl),
    fun hm hlt c h => port .bit _ (by rw [hm]; rfl) hlt (map_readCell_written h rfl),
    fun hm hlt c h => port .out _ (by rw [hm]; rfl) hlt (map_readCell_written h rfl),
    fun hm hlt c h => port .esym _ (by rw [hm]; rfl) hlt (map_readCell_written h rfl),
    fun hm hlt c h => port .ecnt _ (by rw [hm]; rfl) hlt (readCell_ok.mpr h),
    fun hm hlt l r h => port .nodeLr _ (by rw [hm]; rfl) hlt (map_readCell_written h (nodeLrWord_eq l r)),
    fun hm hlt c h => port .nodeWt _ (by rw [hm]; rfl) hlt (readCell_ok.mpr h),
    fun hm hlt x v h => port .nodeSym _ (by rw [hm]; rfl) hlt (map_readCell_written h (nodeSymWord_eq x v)),
    fun hm hlt c h => port .clen _ (by rw [hm]; rfl) hlt (map_readCell_written h rfl),
    fun hm hlt c h => port .cbits _ (by rw [hm]; rfl) hlt (map_readCell_written h rfl)⟩

/-! ### Each memory after a host write of a view (20_memory.md R78): written if it is the view's, else as before -/

section
variable (p : Params) (m : Mems) (v : View) (i : Nat) (d : Word)

theorem viewWrite_sym : (viewWrite p m v i d).sym = if v = .sym then m.sym.write i (symOf p d) else m.sym := by
  cases v <;> rfl
theorem viewWrite_bit : (viewWrite p m v i d).bit = if v = .bit then m.bit.write i (tokenOf d) else m.bit := by
  cases v <;> rfl
theorem viewWrite_esym : (viewWrite p m v i d).esym = if v = .esym then m.esym.write i (symOf p d) else m.esym := by
  cases v <;> rfl
theorem viewWrite_ecnt : (viewWrite p m v i d).ecnt = if v = .ecnt then m.ecnt.write i d else m.ecnt := by
  cases v <;> rfl
theorem viewWrite_nodeLr : (viewWrite p m v i d).nodeLr =
    if v = .nodeLr then m.nodeLr.write i ⟨d.extractLsb' 0 16, d.extractLsb' 16 16⟩ else m.nodeLr := by
  cases v <;> rfl
theorem viewWrite_nodeWt : (viewWrite p m v i d).nodeWt = if v = .nodeWt then m.nodeWt.write i d else m.nodeWt := by
  cases v <;> rfl
theorem viewWrite_nodeSym : (viewWrite p m v i d).nodeSym =
    if v = .nodeSym then m.nodeSym.write i ⟨symOf p d, d.getLsbD 31⟩ else m.nodeSym := by
  cases v <;> rfl
theorem viewWrite_clen : (viewWrite p m v i d).clen = m.clen := by
  cases v <;> rfl
theorem viewWrite_cbits : (viewWrite p m v i d).cbits = m.cbits := by
  cases v <;> rfl

end

section
variable {α : Type} [DecidableEq α] {depth : Nat} {fits : α → Bool} {c : Prop} [Decidable c] {m t : Mem α} {i : Nat} {x : α}

/-- The cell of a memory that has been written under a condition, where it holds. -/
theorem read_writeIf_same (hm : memOk m depth fits = true) (ht : t = if c then m.write i x else m) (hc : c) :
    t.read i = some x := by
  rw [ht, if_pos hc]
  exact read_write_same m i x (memOk_iff.mp hm).1

/-- Any other cell, and any cell where the condition fails. -/
theorem read_writeIf_other {k : Nat} (hm : memOk m depth fits = true) (ht : t = if c then m.write i x else m)
    (hc : ¬ c ∨ k ≠ i) : t.read k = m.read k := by
  rw [ht]
  split
  · exact read_write_other m x (memOk_iff.mp hm).1 (hc.resolve_left (not_not_intro ‹c›))
  · rfl

end

/-! ### Writes of the access port -/

theorem hostWritable_iff (v : View) : hostWritable v = true ↔ v ≠ .out ∧ v ≠ .clen ∧ v ≠ .cbits := by
  cases v <;> simp [hostWritable]

/-- A port write to a selected cell of a writable view (20_memory.md R78, R80). -/
theorem exec_wr_port_cell {s : State} {a : BitVec 8} {v : View} (d : Word) (hc : s.core = .idle) (ha : regAt a = some .accData)
    (hv : viewAt s.regs.accMem = some v) (hlt : s.regs.accIndex.toNat < viewDepth s.params v) (hw : hostWritable v = true) :
    exec (.wr a d) s = .next { s with
      mems := viewWrite s.params s.mems v s.regs.accIndex.toNat d
      regs := { s.regs with accIndex := if s.regs.autoInc then s.regs.accIndex + 1 else s.regs.accIndex } } := by
  have ht : portTarget s = some (v, s.regs.accIndex.toNat) := portTarget_some.mpr ⟨hv, rfl, hlt⟩
  rw [exec_wr_port hc ha]
  simp only [portWrite, ht, hw, if_true, autoIncrement_eq]

/-- Settles O18: a memory is written at one cell if the view is its own, and every memory the host writes is canonical. -/
theorem portWriteStoresCell : Obligations.PortWriteStoresCell := by
  intro s a d v hi hc ha hv hout hclen hcbits hlt
  have hsym := symOf_toNat s.params d
  exact ⟨_, exec_wr_port_cell d hc ha hv hlt ((hostWritable_iff v).mpr ⟨hout, hclen, hcbits⟩), rfl,
    fun h => ⟨_, read_writeIf_same hi.sym (viewWrite_sym ..) h, hsym⟩,
    fun h => read_writeIf_same hi.bit (viewWrite_bit ..) h,
    fun h => ⟨_, read_writeIf_same hi.esym (viewWrite_esym ..) h, hsym⟩,
    fun h => read_writeIf_same hi.ecnt (viewWrite_ecnt ..) h,
    fun h => read_writeIf_same hi.nodeLr (viewWrite_nodeLr ..) h,
    fun h => read_writeIf_same hi.nodeWt (viewWrite_nodeWt ..) h,
    fun h => ⟨_, read_writeIf_same hi.nodeSym (viewWrite_nodeSym ..) h, hsym⟩,
    fun k => ⟨read_writeIf_other hi.sym (viewWrite_sym ..), read_writeIf_other hi.bit (viewWrite_bit ..),
      read_writeIf_other hi.esym (viewWrite_esym ..), read_writeIf_other hi.ecnt (viewWrite_ecnt ..),
      read_writeIf_other hi.nodeLr (viewWrite_nodeLr ..), read_writeIf_other hi.nodeWt (viewWrite_nodeWt ..),
      read_writeIf_other hi.nodeSym (viewWrite_nodeSym ..), congrArg (·.read k) (viewWrite_out ..),
      congrArg (·.read k) (viewWrite_clen ..), congrArg (·.read k) (viewWrite_cbits ..)⟩⟩

/-! ### Refused accesses of the port -/

/-- The values 10 to 15 of ACC_CTRL.MEM are reserved (20_memory.md R76). -/
theorem viewAt_reserved : ∀ m : BitVec 4, 10 ≤ m.toNat → viewAt m = none := by decide

/-- The access port selects no cell for a reserved memory and for an index out of range (20_memory.md R77). -/
theorem portTarget_none {s : State}
    (h : 10 ≤ s.regs.accMem.toNat ∨ ∃ v, viewAt s.regs.accMem = some v ∧ viewDepth s.params v ≤ s.regs.accIndex.toNat) :
    portTarget s = none := by
  rcases h with h | ⟨v, hv, h⟩
  · simp [portTarget, viewAt_reserved _ h]
  · simp [portTarget, hv, Nat.not_lt.mpr h]

/-- The views the host may only read (20_memory.md R76). -/
theorem readOnly_of_accMem {m : BitVec 4} {v : View} (hm : m = 2 ∨ m = 8 ∨ m = 9) (hv : viewAt m = some v) :
    hostWritable v = false := by
  rcases hm with rfl | rfl | rfl <;> cases hv <;> rfl

/-- A refused port read (20_memory.md R77, R79, R80). -/
theorem exec_rd_port_refused {s : State} {a : BitVec 8} (hc : s.core = .idle) (ha : regAt a = some .accData)
    (ht : portTarget s = none) :
    exec (.rd a) s = .next { s with
      rdata := 0
      regs := { s.regs with
        accErr := true
        accIndex := if s.regs.autoInc then s.regs.accIndex + 1 else s.regs.accIndex } } := by
  rw [exec_rd_port hc ha]
  simp only [portRead, ht, autoIncrement_eq, portError]

/-- A refused port write (20_memory.md R78, R79, R80). -/
theorem exec_wr_port_refused {s : State} {a : BitVec 8} (d : Word) (hc : s.core = .idle) (ha : regAt a = some .accData)
    (ht : ∀ v i, portTarget s = some (v, i) → hostWritable v = false) :
    exec (.wr a d) s = .next { s with
      regs := { s.regs with
        accErr := true
        accIndex := if s.regs.autoInc then s.regs.accIndex + 1 else s.regs.accIndex } } := by
  rw [exec_wr_port hc ha]
  rcases portWrite_cases d s with ⟨_, hr⟩ | ⟨v, i, hs, hw, _⟩
  · rw [hr, autoIncrement_eq]
    rfl
  · exact absurd hw (by simp [ht v i hs])

/-- Settles O19: no cell is selected, or a write has selected one of a read-only view. -/
theorem refusedPortAccess : Obligations.RefusedPortAccess := by
  intro s a d hc ha regs
  refine ⟨fun h => ?_, fun h => ?_⟩
  · have ht := portTarget_none h
    exact ⟨exec_rd_port_refused hc ha ht, exec_wr_port_refused d hc ha (by simp [ht])⟩
  · exact exec_wr_port_refused d hc ha fun v i hs => readOnly_of_accMem h (portTarget_some.mp hs).1

/-! ### Host accesses while a command runs -/

/-- From `s` to `t` nothing changed but the inputs to come, the read value, the count of draws, the flags of STATUS and IRQ_EN: all that host accesses change while a command runs (20_memory.md R83, 40_command_control.md R133). -/
def HostFrame (s t : State) : Prop :=
  t = { s with
    pending := t.pending
    rdata := t.rdata
    draws := t.draws
    regs := { s.regs with
      done := t.regs.done
      err := t.regs.err
      reject := t.regs.reject
      accErr := t.regs.accErr
      doneIe := t.regs.doneIe
      errIe := t.regs.errIe } }

theorem HostFrame.refl (s : State) : HostFrame s s := rfl

theorem HostFrame.trans {s t u : State} (h : HostFrame s t) (h' : HostFrame t u) : HostFrame s u := by
  unfold HostFrame at *
  rw [h', h]

theorem HostFrame.core_eq {s t : State} (h : HostFrame s t) : t.core = s.core := by
  unfold HostFrame at h
  rw [h]

/-- The writes that are not dropped while a command runs reach STATUS and IRQ_EN or nothing (40_command_control.md R133). -/
theorem writeReg_hostFrame {r : Reg} (hr : droppedWhileRunning r = false) (d : Word) (s : State) :
    HostFrame s (writeReg r d s) ∧ (writeReg r d s).pending = s.pending := by
  cases r with
  | cmd | symLen | bitLen | nEntries | tree | accCtrl | accIndex | accData => cases hr
  | _ => exact ⟨rfl, rfl⟩

/-- What the decoder accepts of the bus is RD or WR (30_encoding.md R105). -/
theorem decode_bus {a : BusAccess} {i : Instr} (h : decode (.bus a) = .ok i) :
    (∃ off, i = .rd off) ∨ ∃ off d, i = .wr off d := by
  rcases a with ⟨_ | _ | _, off⟩ | ⟨_ | _ | _, off, d⟩ <;> cases h
  · exact .inl ⟨off, rfl⟩
  · exact .inr ⟨off, d, rfl⟩

/-- A host access made while a command runs is answered, and stays within the frame (40_command_control.md R133, R134). -/
theorem exec_access_running {s : State} {w : Word} {a : BusAccess} {i : Instr} (hw : s.core = .running w)
    (hd : decode (.bus a) = .ok i) : ∃ t, exec i s = .next t ∧ HostFrame s t ∧ t.pending = s.pending := by
  have hb : s.busy = true := busy_of_running hw
  rcases decode_bus hd with ⟨off, rfl⟩ | ⟨off, d, rfl⟩
  · rcases execRd_cases off s with ⟨_, hx⟩ | ⟨r, _, ⟨_, _, hx⟩ | ⟨hidle, _, _⟩ | ⟨_, _, hx⟩⟩
    · exact ⟨_, hx, rfl, rfl⟩
    · exact ⟨_, hx, rfl, rfl⟩
    · exact absurd hb (by simp [hidle])
    · exact ⟨_, hx, rfl, rfl⟩
  · rcases execWr_cases off d s with ⟨_, hx⟩ | ⟨r, _, ⟨_, _, hx⟩ | ⟨hr, hx⟩⟩
    · exact ⟨_, hx, rfl, rfl⟩
    · exact ⟨_, hx, rfl, rfl⟩
    · exact ⟨_, hx, writeReg_hostFrame (hr hb) d s⟩

/-- The same of the step that takes the access. -/
theorem step_access_running {s : State} {w : Word} {a : BusAccess} {rest : List Input} {i : Instr} (hw : s.core = .running w)
    (hp : s.pending = .access a :: rest) (hd : decode (.bus a) = .ok i) :
    ∃ t, step s = .next t ∧ HostFrame s t ∧ t.pending = rest := by
  rw [step_access hp hd]
  exact exec_access_running (s := { s with pending := rest }) hw hd

/-- Settles O27: an access with a next state is decoded, and then stays within the frame. -/
theorem runningCommandIsIsolated : Obligations.RunningCommandIsIsolated := by
  intro s t w a rest hw hp h
  cases hd : decode (.bus a) with
  | error e => rw [step_rejected hp hd] at h; cases h
  | ok i =>
    obtain ⟨t', hs, hf, rfl⟩ := step_access_running hw hp hd
    rw [hs] at h
    cases h
    exact hf

/-! ### A running command gets to complete -/

theorem run_succ {M : Host.Core} {s t : M.State} (k : Nat) (h : M.step s = .next t) : M.run (k + 1) s = M.run k t := by
  simp only [Host.Core.run, h]

/-- Host accesses that are all whole-word leave a running command running, and use up the inputs (20_memory.md R82, R83). -/
theorem run_accesses_running {w : Word} (inputs : List Input) {s : State} (hw : s.core = .running w) (hp : s.pending = inputs)
    (ha : ∀ x ∈ inputs, ∃ a i, x = .access a ∧ decode (.bus a) = .ok i) :
    ∃ u : State, Host.Core.run Sys2Proof.core inputs.length s = .next u ∧ HostFrame s u ∧ u.pending = [] := by
  induction inputs generalizing s with
  | nil => exact ⟨s, rfl, .refl s, hp⟩
  | cons x rest ih =>
    obtain ⟨⟨a, i, rfl, hd⟩, hrest⟩ := List.forall_mem_cons.mp ha
    obtain ⟨t, hs, hf, ht⟩ := step_access_running hw hp hd
    obtain ⟨u, hu, hfu, hpu⟩ := ih (hf.core_eq.trans hw) ht hrest
    exact ⟨u, (run_succ (M := Sys2Proof.core) _ hs).trans hu, hf.trans hfu, hpu⟩

/-- A WAIT's reads before the completion return STATUS, and nothing else changes (30_encoding.md R106). -/
theorem run_wait_running {w : Word} {rest : List Input} (n : Nat) {s : State} (hw : s.core = .running w)
    (hp : s.pending = .wait n :: rest) :
    Host.Core.run Sys2Proof.core n s =
      .next { s with pending := .wait 0 :: rest, rdata := if n = 0 then s.rdata else statusWord s } := by
  induction n generalizing s with
  | zero => rw [← hp]; rfl
  | succ n ih =>
    have hs := ((step_wait hp).2.1 w n hw rfl).trans (execRd_status _)
    have hrun := (run_succ (M := Sys2Proof.core) n hs).trans
      (ih (s := { s with pending := .wait n :: rest, rdata := statusWord s }) hw rfl)
    rw [hrun]
    cases n <;> rfl

/-- The read of STATUS that follows the completion returns BUSY = 0 and ends the WAIT (30_encoding.md R106). -/
theorem step_wait_idle {s : State} {n : Nat} {rest : List Input} (hc : s.core = .idle) (hp : s.pending = .wait n :: rest) :
    ∃ x : Word, step s = .next { s with pending := rest, rdata := x } ∧ x.getLsbD 0 = false :=
  ⟨_, ((step_wait hp).1 hc).trans (execRd_status _), (statusWord_flags _).1.trans (busy_of_idle hc)⟩

/-- Settles O26, by induction on the accesses to come and on the reads of the WAIT. -/
theorem runningCommandGetsToComplete : Obligations.RunningCommandGetsToComplete := by
  refine ⟨fun s w hw ha => ?_, fun s w n rest hw hp => ?_⟩
  · obtain ⟨u, hu, hf, hpu⟩ := run_accesses_running s.pending hw rfl ha
    have hframe := hf
    rw [HostFrame, hpu] at hframe
    exact ⟨u, hu, hframe, (step_noInput hpu).2 w (hf.core_eq.trans hw)⟩
  · refine ⟨_, run_wait_running n hw hp, rfl, fun hn => ?_, (step_wait rfl).2.2 w hw rfl, fun t ht => ?_⟩
    · rw [if_neg hn.ne', (statusWord_flags s).1, busy_of_running hw]
    · obtain ⟨hidle, -, -, -, -, -, -, -, -, -, -, -, -, -, -, hpt, -⟩ := completionReport _ _ _ (isCommand_decodeCmd w) ht
      exact step_wait_idle hidle hpt

end Sys2Proof.Machine

/-! SUPPORT. The proofs of the family 30_encoding.md: the words of the commands, the illegal words, and what each command writes. -/

namespace Sys2Proof.Machine

/-! ### The decoder and the encoder -/

/-- Settles O1: the decoder evaluated on each of the words. -/
theorem specWordsDecodeAsWritten : Obligations.SpecWordsDecodeAsWritten := by
  unfold Obligations.SpecWordsDecodeAsWritten
  decide

/-- RSV of a word decoded to the third ILLEGAL row is not 0 (30_encoding.md R103). -/
theorem decodeCmd_wellFormed (w : Word) : (decodeCmd w).wellFormed = true := by
  unfold decodeCmd
  split
  case isTrue hrsv => simpa [Instr.wellFormed] using hrsv
  case isFalse => split <;> rfl

/-- Every well-formed instruction is what its encoding decodes to: RSV and OP split the word of the third ILLEGAL row again, and the other words are closed but for at most three bits. -/
theorem decode_encode {i : Instr} (hi : i.wellFormed = true) : decode (encode i) = .ok i := by
  cases i with
  | nop | freq | build | gentab | encode | decode => rfl
  | illegalOp6 lo => revert lo; decide
  | illegalOp8 lo => revert lo; decide
  | illegalRsv rsv op =>
    have hrsv : rsvField (rsv ++ op) ≠ 0 := by simpa [rsvField_append, Instr.wellFormed] using hi
    rw [encode, decode, decodeCmd, if_pos hrsv, rsvField_append, opField_append]
  | rd offset => rfl
  | wr offset data => rfl

/-- Everything that decodes encodes back: a CMD word's instruction holds the whole word, and only whole-word transactions decode. -/
theorem encode_of_decode {c : Code} {i : Instr} (h : decode c = .ok i) : i.wellFormed = true ∧ encode i = c := by
  cases c with
  | cmd w => cases h; exact ⟨decodeCmd_wellFormed w, encode_decodeCmd w⟩
  | bus a => rcases a with ⟨_ | _ | _, off⟩ | ⟨_ | _ | _, off, d⟩ <;> cases h <;> exact ⟨rfl, rfl⟩

/-- Settles O2: one lemma for each direction. -/
theorem decodeInvertsEncode : Obligations.DecodeInvertsEncode :=
  ⟨fun _ => decode_encode, fun _ _ => encode_of_decode⟩

/-- The word of a command's encoding is the only word that selects the command (30_encoding.md R102). -/
theorem decodeCmd_eq_iff {i : Instr} {v : Word} (w : Word) (hv : encode i = .cmd v) (hi : i.wellFormed = true) :
    decodeCmd w = i ↔ w = v := by
  constructor
  · rintro rfl
    exact Code.cmd.inj ((encode_decodeCmd w).symm.trans hv)
  · rintro rfl
    have h := decode_encode hi
    rw [hv] at h
    exact Except.ok.inj h

/-! ### The illegal words -/

/-- The completion of an illegal word reports the word with code 4 (40_command_control.md R131, R136). -/
theorem complete_illegalCmd (w : Word) (s : State) : complete (illegalCmd w s) = .next (reportError 4 w s) := rfl

/-- Settles O25: each of the three kinds completes as its whole word. -/
theorem illegalWordReportsItself : Obligations.IllegalWordReportsItself := fun s =>
  ⟨fun lo => complete_illegalCmd (3#31 ++ lo) s, fun lo => complete_illegalCmd (1#29 ++ lo) s,
    fun rsv op => complete_illegalCmd (rsv ++ op) s⟩

/-- From 6 on every word is illegal: its instruction encodes back to it, and the six commands have the words below. -/
theorem exec_decodeCmd_illegal {w : Word} (h6 : 6 ≤ w.toNat) (s : State) :
    exec (decodeCmd w) s = .next (reportError 4 w s) := by
  have hw := encode_decodeCmd w
  obtain ⟨hop6, hop8, hrsv⟩ := illegalWordReportsItself s
  cases hi : decodeCmd w <;> rw [hi] at hw <;> cases hw
  case illegalOp6 lo => exact hop6 lo
  case illegalOp8 lo => exact hop8 lo
  case illegalRsv rsv op => exact hrsv rsv op
  all_goals exact absurd h6 (by decide)

/-- Settles O3: a command's word is the only one that selects it, and the words from 6 on are illegal. -/
theorem commandSelectedByWholeWord : Obligations.CommandSelectedByWholeWord := fun w =>
  ⟨decodeCmd_eq_iff w rfl rfl, decodeCmd_eq_iff w rfl rfl, decodeCmd_eq_iff w rfl rfl, decodeCmd_eq_iff w rfl rfl,
    decodeCmd_eq_iff w rfl rfl, decodeCmd_eq_iff w rfl rfl, exec_decodeCmd_illegal⟩

/-! ### The registers a command leaves alone -/

/-- FREQ writes neither BIT_LEN nor TREE (41_frequency.md R160). -/
theorem execFreq_keepsRegs {s t : State} (h : exec .freq s = .next t) :
    t.regs.bitLen = s.regs.bitLen ∧ t.regs.root = s.regs.root ∧ t.regs.nNodes = s.regs.nNodes := by
  rcases execFreq_next h with ⟨xs, _, _, rfl⟩ | ⟨e, rfl⟩ <;> exact ⟨rfl, rfl, rfl⟩

/-- BUILD writes neither BIT_LEN nor N_ENTRIES (42_tree_build.md R180). -/
theorem execBuild_keepsRegs {s t : State} (h : exec .build s = .next t) :
    t.regs.bitLen = s.regs.bitLen ∧ t.regs.nEntries = s.regs.nEntries := by
  rcases execBuild_next h with ⟨u, hu, _, _, rfl⟩ | ⟨e, rfl⟩
  · obtain ⟨syms, counts, _, _, rfl⟩ := buildBody_ok hu
    rw [buildTree_frame]
    exact ⟨rfl, rfl⟩
  · exact ⟨rfl, rfl⟩

/-- GENTAB writes neither BIT_LEN, N_ENTRIES nor TREE (43_code_table.md R203). -/
theorem execGentab_keepsRegs {s t : State} (h : exec .gentab s = .next t) :
    t.regs.bitLen = s.regs.bitLen ∧ t.regs.nEntries = s.regs.nEntries ∧ t.regs.root = s.regs.root ∧
      t.regs.nNodes = s.regs.nNodes := by
  rcases execGentab_next h with ⟨codes, _, _, rfl⟩ | ⟨e, rfl⟩ <;> exact ⟨rfl, rfl, rfl, rfl⟩

/-- DECODE writes neither BIT_LEN, N_ENTRIES nor TREE (45_decode.md R250). -/
theorem execDecode_keepsRegs {s t : State} (h : exec .decode s = .next t) :
    t.regs.bitLen = s.regs.bitLen ∧ t.regs.nEntries = s.regs.nEntries ∧ t.regs.root = s.regs.root ∧
      t.regs.nNodes = s.regs.nNodes := by
  rcases execDecode_next h with ⟨_, rfl⟩ | ⟨e, rfl⟩ | ⟨_, _, _, xs, ⟨_, rfl⟩ | ⟨e, _, rfl⟩⟩ <;> exact ⟨rfl, rfl, rfl, rfl⟩

/-- Settles O23: for each command the memories and OUT_LEN by its frame, and the other registers. -/
theorem commandsWriteOnlyTheirOutputs : Obligations.CommandsWriteOnlyTheirOutputs := by
  intro s t
  refine ⟨fun h => ?_, fun h => ?_, fun h => ?_, fun h => ?_, fun h => ?_⟩
  · obtain ⟨hmems, hout⟩ := execFreq_frame h
    obtain ⟨hbit, htree⟩ := execFreq_keepsRegs h
    exact ⟨hmems, hbit, hout, htree⟩
  · obtain ⟨hmems, hout⟩ := execBuild_frame h
    obtain ⟨hbit, hentries⟩ := execBuild_keepsRegs h
    exact ⟨hmems, hbit, hout, hentries⟩
  · obtain ⟨hmems, hout⟩ := execGentab_frame h
    obtain ⟨hbit, hrest⟩ := execGentab_keepsRegs h
    exact ⟨hmems, hbit, hout, hrest⟩
  · obtain ⟨hmem, hlen⟩ := execEncode_frame h
    obtain ⟨-, -, -, -, -, -, -, -, -, -, -, -, hsym, -⟩ := completionReport _ _ _ rfl h
    exact ⟨hmem, hsym, hlen⟩
  · exact ⟨execDecode_frame h, execDecode_keepsRegs h⟩

end Sys2Proof.Machine


/-! SUPPORT. The proofs of the family 40_command_control.md: the acceptance of a command, what runs next, and the writes a running command drops, performs or ignores. -/

namespace Sys2Proof.Machine

/-! ### Acceptance and the step after it -/

/-- Settles O21: a write to CMD is performed while IDLE, and performing it is the acceptance. -/
theorem acceptanceOfCommand : Obligations.AcceptanceOfCommand := fun _ _ w hc ha =>
  exec_wr_writeReg w ha (.inl hc)

/-- A CMD word's number is its own word again, whole (30_encoding.md R100). -/
theorem withFetchWord_toNat (s : State) (w : Word) : s.withFetchWord 32 w.toNat = acceptThenTurn w s := by
  have hw : BitVec.ofNat 32 (w.toNat % 2 ^ min 32 32) = w := by
    rw [Nat.min_self, Nat.mod_eq_of_lt w.isLt, BitVec.ofNat_toNat, BitVec.setWidth_eq]
  rw [State.withFetchWord, hw]

/-- Settles O6: the word is accepted and the CORE's turn is the next pending input. -/
theorem fetchedWordRunsNext : Obligations.FetchedWordRunsNext := by
  intro s w
  rw [withFetchWord_toNat]
  exact (step_coreTurn rfl).2 w rfl

/-! ### NOP -/

/-- NOP is the completion that reports success, with no body before it (40_command_control.md R131, R135). -/
theorem exec_nop (s : State) : exec .nop s = .next (completeOk s) := rfl

/-- Settles O24: the report of a success, field by field. -/
theorem nopReportsSuccess : Obligations.NopReportsSuccess := exec_nop

/-! ### Writes while a command runs -/

/-- A write to one of the registers the running command guards is dropped: only REJECT is set (40_command_control.md R133). -/
theorem exec_wr_dropped {s : State} {a : BitVec 8} {r : Reg} {w : Word} (d : Word) (hr : regAt a = some r)
    (hw : s.core = .running w) (hd : droppedWhileRunning r = true) : exec (.wr a d) s = .next (rejectWrite s) := by
  show execWr a d s = _
  simp [execWr, hr, busy_of_running hw, hd]

/-- Settles O15: by the kind of register the offset reaches. Only the dropped writes need the command to be running. -/
theorem writesWhileRunning : Obligations.WritesWhileRunning := by
  intro s w a d hw
  refine ⟨fun r hr hset => ?dropped, fun ha => ?status, fun ha => ?irqEn, fun r hr hset => ?readOnly, fun ha => ?unmapped⟩
  case dropped =>
    have hd : droppedWhileRunning r = true := by
      rcases hset with rfl | rfl | rfl | rfl | rfl | rfl | rfl | rfl <;> rfl
    exact exec_wr_dropped d hr hw hd
  case status => exact exec_wr_writeReg d ha (.inr rfl)
  case irqEn => exact exec_wr_writeReg d ha (.inr rfl)
  case readOnly => exact idleWritesToReadOnlyIgnored s a r d hr hset
  case unmapped => exact (unmappedOffsets s a d ha).2

end Sys2Proof.Machine

/-! SUPPORT. The proofs of the family 41_frequency.md: lengths beyond capacity, the table FREQ leaves and BUILD on it, and what ENCODE makes of its input. -/

namespace Sys2Proof.Machine

/-! ### Lengths beyond capacity -/

/-- Settles O34: the comparison with the capacity is the first test of FREQ, BUILD and ENCODE, and DECODE's first after the absent tree. -/
theorem lengthBeyondCapacity : Obligations.LengthBeyondCapacity := by
  intro s
  refine ⟨fun h => ⟨?freq, ?encode⟩, fun h => ?build, fun hr h => ?decode⟩
  case freq =>
    show complete (freqCmd s) = _
    rw [freqCmd, if_pos h]
    rfl
  case encode =>
    show complete (encodeCmd s) = _
    rw [encodeCmd, encodeSteps, if_pos h]
    rfl
  case build =>
    show complete (buildCmd s) = _
    rw [buildCmd, if_pos h]
    rfl
  case decode =>
    show complete (decodeCommand s) = _
    rw [decodeCommand, decodeSteps, if_neg hr, if_pos h]
    rfl

/-! ### The table of an input -/

/-- The entries (ESYM[k], ECNT[k]) FREQ writes for an input: each distinct symbol with its count, in order of first appearance (41_frequency.md R160, R161). -/
def freqEntries (xs : List Sym) : List (Sym × Word) :=
  xs.eraseDups.map fun x => (x, BitVec.ofNat 32 (xs.count x))

@[simp] theorem freqEntries_length (xs : List Sym) : (freqEntries xs).length = xs.eraseDups.length := by simp [freqEntries]

@[simp] theorem freqEntries_syms (xs : List Sym) : (freqEntries xs).map (·.1) = xs.eraseDups := by
  simp [freqEntries, Function.comp_def]

/-- No symbol count of an input a word can count wraps (41_frequency.md R162). -/
theorem toNat_count {xs : List Sym} (h : xs.length < 2 ^ 32) (x : Sym) : (BitVec.ofNat 32 (xs.count x)).toNat = xs.count x := by
  have : xs.count x ≤ xs.length := List.count_le_length
  rw [BitVec.toNat_ofNat, Nat.mod_eq_of_lt (by omega)]

/-- The counts add up to the length of the input (41_frequency.md R163). -/
theorem totalCount_freqEntries {xs : List Sym} (h : xs.length < 2 ^ 32) : totalCount (freqEntries xs) = xs.length := by
  rw [← sum_count_eraseDups xs, totalCount, freqEntries, List.map_map]
  exact congrArg List.sum (List.map_congr_left fun x _ => toNat_count h x)

/-- The table of an input is one BUILD accepts (41_frequency.md R163). -/
theorem freqEntries_valid {xs : List Sym} (h : xs.length < 2 ^ 32) : ValidEntries (freqEntries xs) := by
  refine ⟨fun e he h0 => ?_, by rw [freqEntries_syms]; exact nodup_eraseDups xs, by rwa [totalCount_freqEntries h]⟩
  obtain ⟨x, hx, rfl⟩ := List.mem_map.mp he
  have hpos : 0 < xs.count x := List.count_pos_iff.mpr (List.mem_eraseDups.mp hx)
  have hcount := toNat_count h x
  simp only at h0
  rw [h0] at hcount
  exact hpos.ne hcount

/-! ### FREQ -/

/-- FREQ_BODY writes the entries of the input from index 0 on (41_frequency.md R160). -/
theorem freqBody_eq (xs : List Sym) (s : State) :
    freqBody xs s = { s with
      regs := { s.regs with nEntries := BitVec.ofNat 32 xs.eraseDups.length }
      mems := { s.mems with
        esym := s.mems.esym.writeList 0 ((freqEntries xs).map (·.1))
        ecnt := s.mems.ecnt.writeList 0 ((freqEntries xs).map (·.2)) } } := by
  simp [freqBody, freqTable_eq, freqEntries, Function.comp_def]

/-- On a written input within capacity FREQ is FREQ_BODY on it (41_frequency.md R160). -/
theorem exec_freq_input {s : State} {xs : List Sym} (hl : s.regs.symLen ≤ s.params.symDepth)
    (hn : s.regs.symLen.toNat = xs.length) (hx : Holds s.mems.sym 0 xs) : exec .freq s = .next (completeOk (freqBody xs s)) := by
  have hr : readRange .sym s.mems.sym 0 s.regs.symLen.toNat = .ok xs := readRange_ok.mpr ⟨hn.symm, hx⟩
  show complete (freqCmd s) = _
  rw [freqCmd, if_neg (BitVec.not_lt.mpr hl), hr]
  rfl

/-- The table FREQ_BODY leaves, as BUILD reads it (41_frequency.md R163). -/
theorem freqBody_entriesAre {s : State} {xs : List Sym} (hs : Inv s) (h : xs.length < 2 ^ 32) :
    EntriesAre (freqBody xs s) (freqEntries xs) := by
  have hlen : xs.eraseDups.length ≤ xs.length :=
    ((nodup_eraseDups xs).subperm fun _ => List.mem_eraseDups.mp).length_le
  rw [freqBody_eq]
  refine ⟨?_, read_writeList_in _ 0 _ (memOk_iff.mp hs.esym).1, read_writeList_in _ 0 _ (memOk_iff.mp hs.ecnt).1⟩
  simp only [freqEntries_length, BitVec.toNat_ofNat]
  omega

/-- FREQ_BODY keeps the cells above the table (41_frequency.md R164). -/
theorem freqBody_keepsAbove {s : State} {xs : List Sym} (hs : Inv s) {k : Nat} (hk : xs.eraseDups.length ≤ k) :
    (freqBody xs s).mems.esym.read k = s.mems.esym.read k ∧ (freqBody xs s).mems.ecnt.read k = s.mems.ecnt.read k := by
  rw [freqBody_eq]
  exact ⟨read_writeList_above _ _ (memOk_iff.mp hs.esym).1 (by simpa using hk),
    read_writeList_above _ _ (memOk_iff.mp hs.ecnt).1 (by simpa using hk)⟩

/-- Settles O35: the table is `freqEntries` of the input, read back from ESYM and ECNT. -/
theorem freqCountsInOrderOfFirstAppearance : Obligations.FreqCountsInOrderOfFirstAppearance := by
  intro s xs hs hl hn hx
  have h32 : xs.length < 2 ^ 32 := hn ▸ s.regs.symLen.isLt
  obtain ⟨hlen, hsyms, hcounts⟩ := freqBody_entriesAre hs h32
  rw [freqEntries_length] at hlen
  rw [freqEntries_syms] at hsyms
  refine ⟨_, exec_freq_input hl hn hx, ?_, hlen, hsyms, fun k hk => ?_, fun k hk => freqBody_keepsAbove hs hk⟩
  · rw [freqBody_eq]
    rfl
  · have := hcounts k (by simpa using hk)
    simp only [Nat.zero_add, freqEntries, List.getElem_map] at this
    exact ⟨_, this, toNat_count h32 _⟩

/-- Settles O36: FREQ that completes without error left the table of its input, which is valid and within BUILD's capacity. -/
theorem freqTableBuildsWithoutError : Obligations.FreqTableBuildsWithoutError := by
  intro s t hs h h0
  obtain ⟨xs, hr, -, rfl⟩ | ⟨e, rfl⟩ := execFreq_next h
  · obtain ⟨hn, -, hfit⟩ := readRange_fits hs.sym hr
    obtain ⟨-, hx⟩ := readRange_ok.mp hr
    have h32 : xs.length < 2 ^ 32 := hn ▸ s.regs.symLen.isLt
    have hes : EntriesAre (completeOk (freqBody xs s)) (freqEntries xs) := freqBody_entriesAre hs h32
    have hv := freqEntries_valid h32
    have hcap : (freqEntries xs).length ≤ nMax s.params := by
      rw [freqEntries_length]
      exact eraseDups_length_le xs fun x hx => of_decide_eq_true (hfit x hx)
    refine ⟨freqEntries xs, xs, _, hes, hv, hcap, (totalCount_freqEntries h32).trans hn, hx, hn, fun x => ?_,
      exec_build_valid hes hv hcap, rfl⟩
    rw [freqEntries_syms, List.mem_eraseDups]
  · have := (code_range e).1
    simp only [completeError_regs] at h0
    simp [h0] at this

/-! ### The tree BUILD_BODY leaves depends on the table alone -/

/-- Memories that agree on a tree's nodes hold the same tree. -/
theorem BTree.matches_congr {m m' : Mems} {d : Nat} : ∀ {t : BTree},
    (∀ q ∈ t.nodes, m'.nodeLr.read q.toNat = m.nodeLr.read q.toNat ∧ m'.nodeSym.read q.toNat = m.nodeSym.read q.toNat) →
    t.Matches m d → t.Matches m' d
  | .leaf q x, hag, ⟨hq, hlr, hns⟩ => by
    obtain ⟨e1, e2⟩ := hag q (by simp [BTree.nodes])
    exact ⟨hq, e1.trans hlr, e2.trans hns⟩
  | .node q l r, hag, ⟨hq, hlr, hl, hr, ⟨x, hns⟩, hml, hmr⟩ => by
    obtain ⟨e1, e2⟩ := hag q (by simp [BTree.nodes])
    exact ⟨hq, e1.trans hlr, hl, hr, ⟨x, e2.trans hns⟩,
      matches_congr (fun p hp => hag p (by simp [BTree.nodes, hp])) hml,
      matches_congr (fun p hp => hag p (by simp [BTree.nodes, hp])) hmr⟩

/-- The nodes BUILD_BODY writes read the same whatever memory they are written to. -/
theorem writeNodes_read_eq {m m' : Mems} (h : NodeWf m) (h' : NodeWf m') (ns : List Node) {i : Nat} (hi : i < ns.length) :
    (writeNodes ns m').nodeLr.read i = (writeNodes ns m).nodeLr.read i ∧
      (writeNodes ns m').nodeWt.read i = (writeNodes ns m).nodeWt.read i ∧
      (writeNodes ns m').nodeSym.read i = (writeNodes ns m).nodeSym.read i := by
  obtain ⟨hlr, hwt, hns⟩ := (writeNodes_read h ns).1 i hi
  obtain ⟨hlr', hwt', hns'⟩ := (writeNodes_read h' ns).1 i hi
  exact ⟨hlr'.trans hlr.symm, hwt'.trans hwt.symm, hns'.trans hns.symm⟩

/-- The indices below a bound within 16 bits are distinct node indices. -/
theorem nodup_nodeIndices {n : Nat} (h : n ≤ 65535) : ((List.range n).map (BitVec.ofNat 16)).Nodup := by
  refine List.Nodup.map_on (fun a ha b hb e => ?_) List.nodup_range
  have := congrArg BitVec.toNat e
  rwa [toNat_ofNat_ix (by have := List.mem_range.mp ha; omega), toNat_ofNat_ix (by have := List.mem_range.mp hb; omega)] at this

/-- BUILD_BODY leaves one and the same tree in every memory it writes to (42_tree_build.md R184). -/
theorem built_tree_uniform {p : Params} {es : List (Sym × Word)} (he : es ≠ []) (hl : es.length ≤ nMax p) :
    ∃ t : BTree, t.top = BitVec.ofNat 16 (2 * es.length - 2) ∧ t.nodes.Nodup ∧ t.syms.Perm (es.map (·.1)) ∧
      ∀ m, NodeWf m → t.Matches (writeNodes (buildNodes es) m) (nodeDepth p) := by
  have hd : 2 * es.length - 1 ≤ 65535 := by
    have := nodeDepth_le p
    simp only [nodeDepth] at this
    omega
  have h0 : NodeWf Mems.reset := ⟨rfl, rfl, rfl⟩
  obtain ⟨t, htop, hm, hnodes, hsyms⟩ := built_tree (p := p) h0 he hl
  refine ⟨t, htop, hnodes.nodup_iff.mpr (nodup_nodeIndices hd), hsyms, fun m hw => BTree.matches_congr (fun q hq => ?_) hm⟩
  obtain ⟨i, hi, rfl⟩ := List.mem_map.mp (hnodes.mem_iff.mp hq)
  have hi := List.mem_range.mp hi
  rw [toNat_ofNat_ix (by omega)]
  obtain ⟨hlr, -, hns⟩ := writeNodes_read_eq h0 hw (buildNodes es) (i := i) (by rw [buildNodes_length he]; exact hi)
  exact ⟨hlr, hns⟩

/-- The codes of the tree BUILD_BODY leaves are a function of the table and the build (43_code_table.md R203). -/
theorem treeCodes_buildTree {p : Params} {es : List (Sym × Word)} (hl : es.length ≤ nMax p) :
    ∃ codes, ∀ u : State, u.params = p → NodeWf u.mems →
      treeCodes (buildTree es u).params (buildTree es u).mems (buildTree es u).regs.root = .ok codes := by
  by_cases he : es = []
  · subst he
    exact ⟨[], fun _ _ _ => rfl⟩
  · obtain ⟨t, htop, hn, -, hm⟩ := built_tree_uniform he hl
    refine ⟨t.tableCodes, fun u hu hw => ?_⟩
    rw [buildTree_params, hu, buildTree_of_ne_nil he, ← htop]
    exact treeCodes_tree (hm u.mems hw) hn

/-- TREE and the nodes BUILD_BODY leaves are a function of the table. -/
theorem buildTree_congr (es : List (Sym × Word)) {u u' : State} (h : NodeWf u.mems) (h' : NodeWf u'.mems) :
    (buildTree es u).regs.root = (buildTree es u').regs.root ∧ (buildTree es u).regs.nNodes = (buildTree es u').regs.nNodes ∧
      ∀ k, k < (buildTree es u).regs.nNodes.toNat →
        (buildTree es u).mems.nodeLr.read k = (buildTree es u').mems.nodeLr.read k ∧
          (buildTree es u).mems.nodeWt.read k = (buildTree es u').mems.nodeWt.read k ∧
          (buildTree es u).mems.nodeSym.read k = (buildTree es u').mems.nodeSym.read k := by
  cases es with
  | nil => exact ⟨rfl, rfl, fun k hk => absurd hk (Nat.not_lt_zero k)⟩
  | cons e rest =>
    refine ⟨rfl, rfl, fun k hk => writeNodes_read_eq h' h _ (lt_of_lt_of_le hk ?_)⟩
    exact (BitVec.toNat_ofNat _ 16).trans_le (Nat.mod_le _ _)

/-! ### The code table and the emission depend on the codes alone -/

/-- Writing codes one after the other makes of equal tables equal tables. -/
theorem foldl_writeCode_table {p : Params} (codes : List (Sym × List CodeBit)) {m m' : Mems}
    (h : m.clen = m'.clen ∧ m.cbits = m'.cbits) :
    (codes.foldl (writeCode p) m).clen = (codes.foldl (writeCode p) m').clen ∧
      (codes.foldl (writeCode p) m).cbits = (codes.foldl (writeCode p) m').cbits := by
  induction codes generalizing m m' with
  | nil => exact h
  | cons c rest ih =>
    obtain ⟨hlen, hbits⟩ := h
    exact ih ⟨by simp only [writeCode, hlen], by simp only [writeCode, hbits]⟩

/-- The table is cleared first, so what it held does not matter (43_code_table.md R203). -/
theorem writeTable_table {p p' : Params} (hp : p = p') (codes : List (Sym × List CodeBit)) (m m' : Mems) :
    (writeTable p m codes).clen = (writeTable p' m' codes).clen ∧
      (writeTable p m codes).cbits = (writeTable p' m' codes).cbits := by
  subst hp
  exact foldl_writeCode_table codes ⟨rfl, rfl⟩

/-- The emission reads the code table and no other memory (44_encode.md R230 step 3). -/
theorem emitLoop_congr {p : Params} {m m' : Mems} (h : m.clen = m'.clen ∧ m.cbits = m'.cbits) (xs : List Sym) (i pos : Nat) :
    emitLoop p m xs i pos = emitLoop p m' xs i pos := by
  obtain ⟨hlen, hbits⟩ := h
  induction xs generalizing i pos with
  | nil => rfl
  | cons x xs ih => simp only [emitLoop, hlen, hbits, ih]

/-! ### ENCODE on a written input -/

/-- The state ENCODE's FREQ_BODY and BUILD_BODY leave for an input (44_encode.md R230). -/
def inputTree (xs : List Sym) (s : State) : State := buildTree (freqEntries xs) (freqBody xs s)

/-- The state ENCODE's emission starts from: the input's table and tree, and the codes GENTAB_BODY writes (44_encode.md R230). -/
def inputTables (xs : List Sym) (codes : List (Sym × List CodeBit)) (s : State) : State :=
  { inputTree xs s with mems := writeTable (inputTree xs s).params (inputTree xs s).mems codes }

/-- The state ENCODE leaves after emitting the tokens `ts`: BIT_LEN is their number on success and 0 on an error (44_encode.md R230 step 5, 60_exceptions.md R283). -/
def emitted (ts : List Token) (e : Option CmdError) (u : State) : State :=
  let v := { u with mems := { u.mems with bit := u.mems.bit.writeList 0 ts } }
  match e with
  | none => completeOk { v with regs := { v.regs with bitLen := BitVec.ofNat 32 ts.length } }
  | some e => completeError e { v with regs := { v.regs with bitLen := 0 } }

@[simp] theorem inputTables_params (xs : List Sym) (codes : List (Sym × List CodeBit)) (s : State) :
    (inputTables xs codes s).params = s.params := buildTree_params _ _

@[simp] theorem emitted_mems (ts : List Token) (e : Option CmdError) (u : State) :
    (emitted ts e u).mems = { u.mems with bit := u.mems.bit.writeList 0 ts } := by
  cases e <;> rfl

/-- Everything the emission answers with a next state (44_encode.md R230, 60_exceptions.md R283). -/
theorem emitBits_completed {xs : List Sym} {u t : State}
    (h : complete (onRaise (fun v => { v with regs := { v.regs with bitLen := 0 } }) (emitBits xs u)) = .next t) :
    ∃ ts e, emitLoop u.params u.mems xs 0 0 = .ok (ts, e) ∧ t = emitted ts e u := by
  obtain ⟨f, hf⟩ | ⟨ts, hts, hf⟩ | ⟨ts, e, hts, hf⟩ := emitBits_cases xs u <;> rw [hf] at h <;> cases h
  · exact ⟨ts, none, hts, rfl⟩
  · exact ⟨ts, some e, hts, rfl⟩

section
variable {s : State} {xs : List Sym} {codes : List (Sym × List CodeBit)} (hs : Inv s)
  (hl : s.regs.symLen ≤ s.params.symDepth) (hn : s.regs.symLen.toNat = xs.length) (hx : Holds s.mems.sym 0 xs)
  (hc : treeCodes (inputTree xs s).params (inputTree xs s).mems (inputTree xs s).regs.root = .ok codes)
include hs hl hn hx hc

/-- On a written input within capacity ENCODE comes to its emission (44_encode.md R230). -/
theorem encodeSteps_input : encodeSteps s = emitBits xs (inputTables xs codes s) := by
  have hr : readRange .sym s.mems.sym 0 s.regs.symLen.toNat = .ok xs := readRange_ok.mpr ⟨hn.symm, hx⟩
  obtain ⟨hlen, hes⟩ := entriesAre_holds (freqBody_entriesAre hs (hn ▸ s.regs.symLen.isLt))
  have hb : buildBody (freqBody xs s).regs.nEntries.toNat (freqBody xs s) = .ok (inputTree xs s) := by
    rw [hlen, buildBody_of_entries hes, inputTree]
  have hg : gentabBody (inputTree xs s) = .ok (inputTables xs codes s) := by rw [gentabBody, hc, inputTables]
  simp only [encodeSteps, if_neg (BitVec.not_lt.mpr hl), hr, hb, hg]

/-- Everything ENCODE answers on a written input within capacity (44_encode.md R230). -/
theorem execEncode_input {t : State} (h : exec .encode s = .next t) :
    ∃ ts e, emitLoop (inputTables xs codes s).params (inputTables xs codes s).mems xs 0 0 = .ok (ts, e) ∧
      t = emitted ts e (inputTables xs codes s) := by
  refine emitBits_completed ?_
  rw [← encodeSteps_input hs hl hn hx hc]
  exact h

end

/-! ### ENCODE's results depend on its input alone -/

/-- Two states hold the same frequency table, tree and code table: the registers and the cells those say are in use. -/
structure SameTables (u u' : State) : Prop where
  nEntries : u.regs.nEntries = u'.regs.nEntries
  root : u.regs.root = u'.regs.root
  nNodes : u.regs.nNodes = u'.regs.nNodes
  clen : u.mems.clen = u'.mems.clen
  cbits : u.mems.cbits = u'.mems.cbits
  entries : ∀ k, k < u.regs.nEntries.toNat → u.mems.esym.read k = u'.mems.esym.read k ∧ u.mems.ecnt.read k = u'.mems.ecnt.read k
  nodes : ∀ k, k < u.regs.nNodes.toNat → u.mems.nodeLr.read k = u'.mems.nodeLr.read k ∧
    u.mems.nodeWt.read k = u'.mems.nodeWt.read k ∧ u.mems.nodeSym.read k = u'.mems.nodeSym.read k

/-- Two states with one entry table read alike on its entries. -/
theorem entriesAre_congr {u u' : State} {es : List (Sym × Word)} (h : EntriesAre u es) (h' : EntriesAre u' es) {k : Nat}
    (hk : k < u.regs.nEntries.toNat) :
    u.mems.esym.read k = u'.mems.esym.read k ∧ u.mems.ecnt.read k = u'.mems.ecnt.read k := by
  obtain ⟨hlen, hes⟩ := entriesAre_holds h
  obtain ⟨-, hes'⟩ := entriesAre_holds h'
  rw [hlen] at hk
  obtain ⟨hsym, hcount⟩ := hes k hk
  obtain ⟨hsym', hcount'⟩ := hes' k hk
  exact ⟨hsym.trans hsym'.symm, hcount.trans hcount'.symm⟩

/-- BUILD_BODY and GENTAB_BODY keep the entries FREQ_BODY wrote. -/
theorem inputTables_entriesAre {s : State} {xs : List Sym} (codes : List (Sym × List CodeBit)) (hs : Inv s)
    (h : xs.length < 2 ^ 32) : EntriesAre (inputTables xs codes s) (freqEntries xs) := by
  have hf := freqBody_entriesAre hs h
  rw [inputTables, writeTable_frame, inputTree, buildTree_frame]
  exact hf

/-- GENTAB_BODY keeps the nodes BUILD_BODY wrote. -/
theorem inputTables_nodes (xs : List Sym) (codes : List (Sym × List CodeBit)) (s : State) :
    (inputTables xs codes s).mems.nodeLr = (inputTree xs s).mems.nodeLr ∧
      (inputTables xs codes s).mems.nodeWt = (inputTree xs s).mems.nodeWt ∧
      (inputTables xs codes s).mems.nodeSym = (inputTree xs s).mems.nodeSym := by
  rw [inputTables, writeTable_frame]
  exact ⟨rfl, rfl, rfl⟩

theorem freqBody_nodeWf {s : State} (hs : Inv s) (xs : List Sym) : NodeWf (freqBody xs s).mems := by
  have hw := inv_nodeWf hs
  exact hw

/-- For one input and one list of codes ENCODE's tables are the same in every state of the build. -/
theorem inputTables_same {s s' : State} {xs : List Sym} (codes : List (Sym × List CodeBit)) (hs : Inv s) (hs' : Inv s')
    (hp : s.params = s'.params) (h : xs.length < 2 ^ 32) : SameTables (inputTables xs codes s) (inputTables xs codes s') := by
  have hes := inputTables_entriesAre codes hs h
  have hes' := inputTables_entriesAre codes hs' h
  have hps : (inputTree xs s).params = (inputTree xs s').params := by simpa [inputTree] using hp
  obtain ⟨hroot, hcount, hnodes⟩ := buildTree_congr (freqEntries xs) (freqBody_nodeWf hs xs) (freqBody_nodeWf hs' xs)
  obtain ⟨hclen, hcbits⟩ := writeTable_table hps codes (inputTree xs s).mems (inputTree xs s').mems
  obtain ⟨hlr, hwt, hns⟩ := inputTables_nodes xs codes s
  obtain ⟨hlr', hwt', hns'⟩ := inputTables_nodes xs codes s'
  have hentries : (inputTables xs codes s).regs.nEntries = (inputTables xs codes s').regs.nEntries :=
    BitVec.eq_of_toNat_eq ((entriesAre_holds hes).1.trans (entriesAre_holds hes').1.symm)
  refine ⟨hentries, hroot, hcount, hclen, hcbits,
    fun k hk => entriesAre_congr hes hes' hk, fun k hk => ?_⟩
  rw [hlr, hwt, hns, hlr', hwt', hns']
  exact hnodes k hk

/-- The codes of an input are a function of the input and the build (44_encode.md R234). -/
theorem inputTree_codes {p : Params} {xs : List Sym} (h : ∀ x ∈ xs, x.toNat < nMax p) :
    ∃ codes, ∀ s, Inv s → s.params = p →
      treeCodes (inputTree xs s).params (inputTree xs s).mems (inputTree xs s).regs.root = .ok codes := by
  obtain ⟨codes, hc⟩ := treeCodes_buildTree (p := p) (es := freqEntries xs) (by simpa using eraseDups_length_le xs h)
  exact ⟨codes, fun s hs hp => hc (freqBody xs s) hp (freqBody_nodeWf hs xs)⟩

/-- The symbols of a written input are symbols of the build. -/
theorem Holds.mem_lt_nMax {s : State} {xs : List Sym} (hs : Inv s) (hx : Holds s.mems.sym 0 xs) :
    ∀ x ∈ xs, x.toNat < nMax s.params := by
  intro x hmem
  obtain ⟨k, hk, rfl⟩ := List.mem_iff_getElem.mp hmem
  exact of_decide_eq_true (read_memOk hs.sym (hx k hk)).2

/-- The emission keeps the tables. -/
theorem sameTables_emitted {u u' : State} (h : SameTables u u') (ts : List Token) (e : Option CmdError) :
    SameTables (emitted ts e u) (emitted ts e u') := by
  cases e <;> exact ⟨h.nEntries, h.root, h.nNodes, h.clen, h.cbits, h.entries, h.nodes⟩

/-- The report and BIT_LEN are a function of the emission. -/
theorem emitted_report (ts : List Token) (e : Option CmdError) (u u' : State) :
    (emitted ts e u).regs.errCode = (emitted ts e u').regs.errCode ∧
      (emitted ts e u).regs.errInfo = (emitted ts e u').regs.errInfo ∧
      (emitted ts e u).regs.bitLen = (emitted ts e u').regs.bitLen := by
  cases e <;> exact ⟨rfl, rfl, rfl⟩

theorem emitted_bitLen_le (ts : List Token) (e : Option CmdError) (u : State) :
    (emitted ts e u).regs.bitLen.toNat ≤ ts.length := by
  cases e with
  | none => exact (BitVec.toNat_ofNat _ 32).trans_le (Nat.mod_le _ _)
  | some e => exact Nat.zero_le _

/-- BIT holds the tokens emitted, up to BIT_LEN (44_encode.md R231). -/
theorem emitted_bit {u : State} (hw : u.mems.bit.wf = true) (ts : List Token) (e : Option CmdError) {k : Nat}
    (hk : k < (emitted ts e u).regs.bitLen.toNat) : (emitted ts e u).mems.bit.read k = ts[k]? := by
  have hk : k < ts.length := lt_of_lt_of_le hk (emitted_bitLen_le ts e u)
  have := read_writeList_in _ 0 ts hw k hk
  rw [Nat.zero_add] at this
  rw [emitted_mems, this, List.getElem?_eq_getElem hk]

theorem inputTables_bit_wf {s : State} (hs : Inv s) (xs : List Sym) (codes : List (Sym × List CodeBit)) :
    (inputTables xs codes s).mems.bit.wf = true := by
  rw [inputTables, writeTable_frame, inputTree, buildTree_frame]
  exact (memOk_iff.mp hs.bit).1

/-- Settles O52: the codes and the emission are functions of the input, and the tables of both runs agree. -/
theorem encodeDependsOnInputOnly : Obligations.EncodeDependsOnInputOnly := by
  intro s s' t t' xs hs hs' hp hlen hn hx hx' hl h h'
  have h32 : xs.length < 2 ^ 32 := hn ▸ s.regs.symLen.isLt
  obtain ⟨codes, hc⟩ := inputTree_codes (hx.mem_lt_nMax hs)
  obtain ⟨ts, e, hts, rfl⟩ := execEncode_input hs hl hn hx (hc s hs rfl) h
  obtain ⟨ts', e', hts', rfl⟩ := execEncode_input hs' (hlen ▸ hp ▸ hl) (hlen ▸ hn) hx' (hc s' hs' hp.symm) h'
  have hsame := inputTables_same codes hs hs' hp h32
  rw [inputTables_params] at hts hts'
  rw [← hp, ← emitLoop_congr ⟨hsame.clen, hsame.cbits⟩, hts] at hts'
  cases hts'
  obtain ⟨herr, hinfo, hbits⟩ := emitted_report ts e (inputTables xs codes s) (inputTables xs codes s')
  obtain ⟨hentries, hroot, hnodes, hclen, hcbits, hecells, hncells⟩ := sameTables_emitted hsame ts e
  refine ⟨herr, hinfo, hbits, hentries, hroot, hnodes, hclen, hcbits, fun k hk => ?_, hecells, hncells⟩
  rw [emitted_bit (inputTables_bit_wf hs xs codes) ts e hk,
    emitted_bit (inputTables_bit_wf hs' xs codes) ts e (hbits ▸ hk)]

end Sys2Proof.Machine

/-! SUPPORT. The proofs of the family 42_tree_build.md: the tree BUILD leaves, its errors, and the tables of none and one entry. -/

namespace Sys2Proof.Machine

/-! ### The tree BUILD leaves -/

/-- The root of a subtree is a node of the tree. -/
theorem BTree.top_mem_of_sub : ∀ {t u : BTree} {path : List CodeBit}, t.sub path = some u → u.top ∈ t.nodes
  | t, _, [], h => by
    cases h
    exact t.top_mem_nodes
  | .node q l r, u, b :: bs, h => by
    have hsub : (if b = 0 then l else r).sub bs = some u := h
    have hmem := BTree.top_mem_of_sub hsub
    split at hmem <;> simp [BTree.nodes, hmem]

/-- The nodes reachable from the root of a tree in memory are the tree's (43_code_table.md R200). -/
theorem reachable_iff_mem_nodes {m : Mems} {d : Nat} {t : BTree} (h : t.Matches m d) (q : NodeIx) :
    Reachable m t.top q ↔ q ∈ t.nodes := by
  constructor
  · rintro ⟨path, hq⟩
    rw [walkPath_tree path t h] at hq
    obtain ⟨u, hu, rfl⟩ := Option.map_eq_some_iff.mp hq
    exact BTree.top_mem_of_sub hu
  · intro hq
    obtain ⟨path, u, hu, rfl⟩ := t.mem_nodes_sub q hq
    exact ⟨path, by rw [walkPath_tree path t h, hu]; rfl⟩

theorem mem_nodeIndices {n : Nat} (h : n ≤ 65535) (q : NodeIx) :
    q ∈ (List.range n).map (BitVec.ofNat 16) ↔ q.toNat < n := by
  simp only [List.mem_map, List.mem_range]
  constructor
  · rintro ⟨i, hi, rfl⟩
    rwa [toNat_ofNat_ix (by omega)]
  · exact fun hq => ⟨q.toNat, hq, by simp⟩

/-- The nodes BUILD writes within a build's capacity have indices below NIL (00_scope.md R7). -/
theorem nodeCount_le {p : Params} {n : Nat} (h : n ≤ nMax p) : 2 * n - 1 ≤ 65535 := by
  have := nodeDepth_le p
  simp only [nodeDepth] at this
  omega

/-- The last node BUILD writes carries the total of the counts: the only leaf, or the last merge (42_tree_build.md R184). -/
theorem BuiltNodes.rootWeight {m : Mems} {es : List (Sym × Word)} (hb : BuiltNodes m es) (hv : ValidEntries es) (he : es ≠ []) :
    ∃ w, m.nodeWt.read (2 * es.length - 2) = some w ∧ w.toNat = totalCount es := by
  have hpos := List.length_pos_iff.mpr he
  have hlen := mergedNodes_length he
  by_cases h1 : es.length = 1
  · obtain ⟨e, rfl⟩ := List.length_eq_one_iff.mp h1
    exact ⟨e.2, (hb.leaf 0 hpos).2.1, by simp [totalCount]⟩
  · obtain ⟨hnd, hlt, htot⟩ := startSet_facts es
    have hj : es.length - 2 < (mergedNodes es).length := by omega
    have hlast : (mergedNodes es).getLast? = some (mergedNodes es)[es.length - 2] := by
      rw [List.getLast?_eq_getElem?, List.getElem?_eq_getElem (by omega)]
      congr 2
      omega
    have hroot := mergeLoop_root _ _ es.length (by simp; omega) hnd hlt (by rw [htot]; exact hv.2.2) _ hlast
    refine ⟨_, ?_, hroot.trans htot⟩
    rw [show 2 * es.length - 2 = es.length + (es.length - 2) by omega]
    exact (hb.merge _ hj).2.1

/-- Settles O40: the nodes BUILD writes are those of one tree over all of them, its leaves the entries. -/
theorem builtTreeIsWellFormed : Obligations.BuiltTreeIsWellFormed := by
  intro s t es hs hes hv he hl h
  have hw := inv_nodeWf hs
  have hpos := List.length_pos_iff.mpr he
  have hd := nodeCount_le hl
  obtain ⟨bt, htop, hm, hnodes, hsyms⟩ := built_tree hw he hl
  have hg : GoodTree s.params (writeNodes (buildNodes es) s.mems) bt.top :=
    goodTree_of_tree hm (hnodes.nodup_iff.mpr (nodup_nodeIndices hd)) (hsyms.nodup_iff.mpr hv.2.1)
  have ht : t = completeOk (buildTree es s) := by
    rw [exec_build_valid hes hv hl] at h
    exact (Host.Outcome.next.inj h).symm
  rw [ht, buildTree_of_ne_nil he]
  simp only [completeOk_params, completeOk_mems, completeOk_regs, ← htop]
  refine ⟨hg, (wfTree_ok_iff_goodTree (BTree.top_ne_nil hm)).mpr hg, fun q => ?nodes, ?weight⟩
  case nodes =>
    rw [reachable_iff_mem_nodes hm, hnodes.mem_iff, mem_nodeIndices hd]
    omega
  case weight =>
    rw [htop, toNat_ofNat_ix (by omega)]
    exact (writeNodes_built hw he).rootWeight hv he

/-! ### The errors of BUILD -/

/-- BUILD ends with the error BUILD_CHECK finds, and with no write before it (42_tree_build.md R180, R181). -/
theorem exec_build_bad {s : State} {es : List (Sym × Word)} {e : CmdError} (hes : EntriesAre s es) (hl : es.length ≤ nMax s.params)
    (hc : checkEntries s.mems es.length 0 [] 0 = .ok (some e)) : exec .build s = .next (reportError e.code e.info s) := by
  obtain ⟨hn, -⟩ := hes
  show complete (buildCmd s) = _
  rw [buildCmd, hn, if_neg (by omega), hc]
  rfl

/-- Settles O37: BUILD_CHECK from entry 0 on answers the first bad entry's error. -/
theorem buildReportsFirstBadEntry : Obligations.BuildReportsFirstBadEntry := by
  intro s es k hk hes hl invalid exceeds hgood
  have hm := (entriesAre_holds hes).2
  obtain ⟨hinvalid, hexceeds⟩ := (checkEntries_spec hm es.length 0 [] 0 (by simp) (by simp [SeenBefore]) (by simp [totalCount])).2
    k hk (Nat.zero_le k) fun j hj _ => hgood j hj
  exact ⟨fun hi => exec_build_bad hes hl (hinvalid hi), fun hi he => exec_build_bad hes hl (hexceeds hi he)⟩

/-! ### Tables of none and one entry -/

/-- An empty table has no entry that could be bad or unwritten (42_tree_build.md R180). -/
theorem exec_build_empty {s : State} (h : s.regs.nEntries = 0) : exec .build s = .next (completeOk (buildTree [] s)) :=
  have hn : s.regs.nEntries.toNat = 0 := by simp [h]
  exec_build_valid (es := []) ⟨hn, by simp [Holds], by simp [Holds]⟩ (by simp [ValidEntries, totalCount]) (Nat.zero_le _)

theorem validEntries_singleton {x : Sym} {c : Word} (hc : c ≠ 0) : ValidEntries [(x, c)] :=
  ⟨by simpa using hc, by simp, by simpa [totalCount] using c.isLt⟩

/-- BUILD_BODY on one entry leaves a single leaf at index 0 (42_tree_build.md R186). -/
theorem buildTree_singleton {s : State} (hw : NodeWf s.mems) (x : Sym) (c : Word) :
    (buildTree [(x, c)] s).regs.root = 0 ∧ (buildTree [(x, c)] s).regs.nNodes = 1 ∧
      (buildTree [(x, c)] s).mems.nodeLr.read 0 = some ⟨NIL, NIL⟩ ∧ (buildTree [(x, c)] s).mems.nodeWt.read 0 = some c ∧
      (buildTree [(x, c)] s).mems.nodeSym.read 0 = some ⟨x, true⟩ :=
  ⟨rfl, rfl, (writeNodes_built hw (List.cons_ne_nil (x, c) [])).leaf 0 Nat.one_pos⟩

/-- Settles O39: BUILD_BODY on no entry and on one. -/
theorem buildOfNoneAndOne : Obligations.BuildOfNoneAndOne := by
  refine ⟨fun s h => exec_build_empty h, fun s x c hs hes hc => ?_⟩
  have hcap : 1 ≤ nMax s.params := nsym_pos s.params
  exact ⟨_, exec_build_valid hes (validEntries_singleton hc) hcap, rfl, buildTree_singleton (inv_nodeWf hs) x c⟩

/-! ### ENCODE of one distinct symbol -/

/-- An emission that answers is how ENCODE completes on a written input within capacity (44_encode.md R230). -/
theorem exec_encode_emitted {s : State} {xs : List Sym} {codes : List (Sym × List CodeBit)} {ts : List Token} {e : Option CmdError}
    (hs : Inv s) (hl : s.regs.symLen ≤ s.params.symDepth) (hn : s.regs.symLen.toNat = xs.length) (hx : Holds s.mems.sym 0 xs)
    (hc : treeCodes (inputTree xs s).params (inputTree xs s).mems (inputTree xs s).regs.root = .ok codes)
    (he : emitLoop (inputTables xs codes s).params (inputTables xs codes s).mems xs 0 0 = .ok (ts, e)) :
    exec .encode s = .next (emitted ts e (inputTables xs codes s)) := by
  show complete (encodeCmd s) = _
  rw [encodeCmd, encodeSteps_input hs hl hn hx hc, emitBits, he]
  cases e <;> rfl

/-- One symbol repeated is one entry, its count the length of the input (41_frequency.md R161). -/
theorem freqEntries_replicate (x : Sym) {n : Nat} (hn : 1 ≤ n) :
    freqEntries (List.replicate n x) = [(x, BitVec.ofNat 32 n)] := by
  obtain ⟨k, rfl⟩ := Nat.exists_eq_add_of_le' hn
  have herase : (List.replicate (k + 1) x).eraseDups = [x] := by
    simp [List.replicate_succ, List.eraseDups_cons]
  simp [freqEntries, herase]

/-- The code of a single leaf is "0" (43_code_table.md R204). -/
theorem treeCodes_leaf {p : Params} {m : Mems} {r : NodeIx} {x : Sym} (hr : r ≠ NIL)
    (h : m.nodeSym.read r.toNat = some ⟨x, true⟩) : treeCodes p m r = .ok [(x, [0])] := by
  rw [treeCodes, if_neg hr, readCell_ok.mpr h]
  rfl

/-- A table written with the one code "0" holds it (43_code_table.md R203, R204). -/
theorem writeTable_zeroCode (p : Params) (m : Mems) (x : Sym) :
    (writeTable p m [(x, [0])]).clen.read x.toNat = some 1 ∧
      (writeTable p m [(x, [0])]).cbits.read (x.toNat * nMax p) = some 0 := by
  have hcap : 1 ≤ nMax p := nsym_pos p
  obtain ⟨hlen, hbits⟩ := (writeTable_spec (p := p) (m := m) (codes := [(x, [0])]) (by simp) (by simpa using hcap)).2.1 _
    (List.mem_singleton_self _)
  exact ⟨hlen, hbits 0 hcap⟩

/-- The tables of one distinct symbol `x` that occurs `c` times: one entry, one leaf, the code "0" (44_encode.md R236). -/
structure OneSymbolTables (u : State) (x : Sym) (c : Word) : Prop where
  nEntries : u.regs.nEntries = 1
  esym : u.mems.esym.read 0 = some x
  ecnt : u.mems.ecnt.read 0 = some c
  root : u.regs.root = 0
  nNodes : u.regs.nNodes = 1
  nodeLr : u.mems.nodeLr.read 0 = some ⟨NIL, NIL⟩
  nodeSym : u.mems.nodeSym.read 0 = some ⟨x, true⟩
  clen : u.mems.clen.read x.toNat = some 1
  cbits : u.mems.cbits.read (x.toNat * nMax u.params) = some 0

section
variable {s : State} {xs : List Sym} {x : Sym} {c : Word} (hs : Inv s) (hes : freqEntries xs = [(x, c)])
include hs hes

/-- The tree of an input of one distinct symbol is the single leaf of its entry (42_tree_build.md R186). -/
theorem inputTree_oneSymbol :
    (inputTree xs s).regs.root = 0 ∧ (inputTree xs s).regs.nNodes = 1 ∧ (inputTree xs s).mems.nodeLr.read 0 = some ⟨NIL, NIL⟩ ∧
      (inputTree xs s).mems.nodeSym.read 0 = some ⟨x, true⟩ := by
  obtain ⟨hroot, hnodes, hlr, -, hns⟩ := buildTree_singleton (freqBody_nodeWf hs xs) x c
  rw [inputTree, hes]
  exact ⟨hroot, hnodes, hlr, hns⟩

/-- Its one code is "0" (43_code_table.md R204). -/
theorem inputTree_codes_oneSymbol :
    treeCodes (inputTree xs s).params (inputTree xs s).mems (inputTree xs s).regs.root = .ok [(x, [0])] := by
  obtain ⟨hroot, -, -, hns⟩ := inputTree_oneSymbol hs hes
  rw [hroot]
  exact treeCodes_leaf (by decide) hns

theorem inputTables_oneSymbol (h32 : xs.length < 2 ^ 32) : OneSymbolTables (inputTables xs [(x, [0])] s) x c := by
  obtain ⟨hroot, hnodes, hlr, hns⟩ := inputTree_oneSymbol hs hes
  obtain ⟨elr, -, ens⟩ := inputTables_nodes xs [(x, [0])] s
  have hentries := inputTables_entriesAre [(x, [0])] hs h32
  rw [hes] at hentries
  obtain ⟨hone, hcells⟩ := entriesAre_holds hentries
  obtain ⟨hesym, hecnt⟩ := hcells 0 Nat.one_pos
  obtain ⟨hclen, hcbits⟩ := writeTable_zeroCode (inputTree xs s).params (inputTree xs s).mems x
  exact ⟨BitVec.eq_of_toNat_eq hone, hesym, hecnt, hroot, hnodes, elr ▸ hlr, ens ▸ hns, hclen, hcbits⟩

end

/-- A symbol with the code "0" is emitted as a zero each time, while the zeros fit (44_encode.md R236). -/
theorem emitLoop_zeros {u : State} {x : Sym} {c : Word} (hu : OneSymbolTables u x c) {n : Nat} (hn : n ≤ u.params.bitDepth.toNat) :
    emitLoop u.params u.mems (List.replicate n x) 0 0 = .ok (List.replicate n 0, none) := by
  have hcode : HasCode u.params u.mems x [0] := ⟨by simp, by simp, hu.clen, fun j hj => by
    obtain rfl : j = 0 := by simpa using hj
    exact hu.cbits⟩
  have hzeros : (List.replicate n x).flatMap (fun _ => ([0] : List CodeBit)) = List.replicate n 0 := by
    rw [List.flatMap_replicate, List.flatten_replicate_singleton]
  rw [emitLoop_fits (fun _ => [0]) _ 0 0 (fun y hy => List.eq_of_mem_replicate hy ▸ hcode) (by simpa [hzeros] using hn), hzeros,
    List.map_replicate]
  rfl

/-- Settles O51: the input's one entry makes one leaf, whose code "0" is emitted for every symbol. -/
theorem encodeOfOneDistinctSymbol : Obligations.EncodeOfOneDistinctSymbol := by
  intro s x n hs hl hlen hn hfit hx
  have hcount : BitVec.ofNat 32 n = s.regs.symLen := by rw [← hlen]; simp
  have hes : freqEntries (List.replicate n x) = [(x, s.regs.symLen)] := hcount ▸ freqEntries_replicate x hn
  have hu : OneSymbolTables (inputTables (List.replicate n x) [(x, [0])] s) x s.regs.symLen :=
    inputTables_oneSymbol hs hes (by simpa [← hlen] using s.regs.symLen.isLt)
  have hemit := emitLoop_zeros hu (n := n) (by simpa using hfit)
  refine ⟨_, exec_encode_emitted hs hl (by simpa using hlen) hx (inputTree_codes_oneSymbol hs hes) hemit, rfl, hu.nEntries, hu.esym,
    hu.ecnt, hu.root, hu.nNodes, hu.nodeLr, hu.nodeSym, hu.clen, ?cbits, ?bit, ?bitLen⟩
  case cbits => simpa using hu.cbits
  case bit => exact read_writeList_in _ 0 _ (inputTables_bit_wf hs _ _)
  case bitLen => simpa [emitted] using hcount

end Sys2Proof.Machine

/-! SUPPORT. The proofs of the family 43_code_table.md: the bound on paths, the empty table, refused trees, codes none of which begins another. -/

namespace Sys2Proof.Machine

/-! ### Paths of a well-formed tree -/

/-- Settles O42: a path leaves a leaf behind at each edge, and the leaves carry distinct symbols of the build. -/
theorem treePathsAreShort : Obligations.TreePathsAreShort := by
  intro s path q hi hg hq
  obtain ⟨t, htop, hm, -, hs⟩ := goodTree_iff_tree.mp hg
  rw [← htop, walkPath_tree path t hm] at hq
  obtain ⟨u, hu, -⟩ := Option.map_eq_some_iff.mp hq
  have hpath : path.length + 1 ≤ t.syms.length := t.path_length_lt path u hu
  have hsyms : t.syms.length ≤ nMax s.params := length_le_of_nodup_syms hs (BTree.syms_fit hm hi.nodeSym)
  omega

/-! ### The table of no tree -/

/-- GENTAB with no tree only clears the table (43_code_table.md R203). -/
theorem exec_gentab_absent {s : State} (hr : s.regs.root = NIL) :
    exec .gentab s = .next (completeOk { s with mems := writeTable s.params s.mems [] }) := by
  have hw : wfTree s.params s.mems s.regs.root = .ok none := if_pos hr
  have hc : treeCodes s.params s.mems s.regs.root = .ok [] := if_pos hr
  show complete (gentabCmd s) = _
  rw [gentabCmd, hw, gentabBody, hc]
  rfl

/-- Settles O44: every cell of the cleared table reads 0. -/
theorem gentabOfAbsentTree : Obligations.GentabOfAbsentTree :=
  fun _ hr => ⟨_, exec_gentab_absent hr, rfl, fun i _ => read_fill 0 i, fun i _ => read_fill 0 i⟩

/-! ### Trees that are refused -/

/-- No node of a well-formed tree is one WF_TREE's checks fail at (43_code_table.md R201). -/
theorem GoodTree.not_badNode {p : Params} {m : Mems} {r q : NodeIx} {path : List CodeBit} (h : GoodTree p m r) :
    ¬ BadNode p m r path q := by
  rintro ⟨hq, hout | ⟨b, hlt, hb⟩ | hshape | ⟨b, x, hlt, hb, hx⟩⟩
  · exact Nat.not_lt.mpr hout (h.inside q ⟨path, hq⟩)
  · exact path_lt_irrefl path (h.onePath b path q hb hq ▸ hlt)
  · exact hshape (h.shape q ⟨path, hq⟩)
  · exact path_lt_irrefl path (h.oneLeaf b path x hb hx ▸ hlt)

section
variable {p : Params} {m : Mems} {r : NodeIx} (hr : r ≠ NIL) (hw : TreeWritten p m r)
include hr hw

/-- A written tree that is not well formed has a first failing node (43_code_table.md R201). -/
theorem exists_firstBadNode (hg : ¬ GoodTree p m r) : ∃ path q, FirstBadNode p m r path q := by
  obtain ⟨res, hres, hfirst⟩ := wfTree_first hr hw
  cases res with
  | none => exact absurd ((wfTree_ok_iff_goodTree hr).mp hres) hg
  | some q =>
    obtain ⟨path, hq⟩ := hfirst q rfl
    exact ⟨path, q, hq⟩

/-- WF_TREE fails at the first failing node (43_code_table.md R201). -/
theorem wfTree_firstBadNode {q : NodeIx} {path : List CodeBit} (hq : FirstBadNode p m r path q) : wfTree p m r = .ok (some q) := by
  obtain ⟨res, hres, hfirst⟩ := wfTree_first hr hw
  cases res with
  | none => exact absurd hq.1 ((wfTree_ok_iff_goodTree hr).mp hres).not_badNode
  | some q' =>
    obtain ⟨path', hq'⟩ := hfirst q' rfl
    rw [hres, firstBadNode_unique hq' hq]

end

/-- GENTAB on a tree that fails the check at `q` (43_code_table.md R203). -/
theorem exec_gentab_refused {s : State} {q : NodeIx} (hw : wfTree s.params s.mems s.regs.root = .ok (some q)) :
    exec .gentab s = .next (reportError 8 (q.setWidth 32) s) := by
  show complete (gentabCmd s) = _
  rw [gentabCmd, hw]
  rfl

/-- DECODE on a tree that fails the check at `q` (45_decode.md R250, 60_exceptions.md R283). -/
theorem exec_decode_refused {s : State} {q : NodeIx} (hr : s.regs.root ≠ NIL) (hb : s.regs.bitLen ≤ s.params.bitDepth)
    (hw : wfTree s.params s.mems s.regs.root = .ok (some q)) :
    exec .decode s = .next (reportError 8 (q.setWidth 32) { s with regs := { s.regs with outLen := 0 } }) := by
  show complete (decodeCommand s) = _
  rw [decodeCommand, decodeSteps, if_neg hr, if_neg (BitVec.not_lt.mpr hb), hw]
  rfl

/-- Settles O45: WF_TREE answers the first failing node, which both commands report. -/
theorem gentabRefusesBadTree : Obligations.GentabRefusesBadTree := by
  intro s _ hr hw
  refine ⟨exists_firstBadNode hr hw, fun path q hq => ?_⟩
  have hfail := wfTree_firstBadNode hr hw hq
  exact ⟨exec_gentab_refused hfail, fun hb => exec_decode_refused hr hb hfail⟩

/-! ### No code begins another -/

theorem BTree.sub_append : ∀ (t : BTree) (a b : List CodeBit), t.sub (a ++ b) = (t.sub a).bind fun u => u.sub b
  | _, [], _ => rfl
  | .leaf _ _, _ :: _, _ => rfl
  | .node _ l r, c :: a, b => (if c = 0 then l else r).sub_append a b

/-- No leaf lies on the path to another (43_code_table.md R206). -/
theorem BTree.sym_eq_of_isPrefix {t : BTree} {a b : List CodeBit} {x y : Sym} (ha : (a, x) ∈ t.codes) (hb : (b, y) ∈ t.codes)
    (h : a <+: b) : x = y := by
  obtain ⟨p, hp⟩ := (t.mem_codes a x).mp ha
  obtain ⟨q, hq⟩ := (t.mem_codes b y).mp hb
  obtain ⟨c, rfl⟩ := h
  rw [t.sub_append, hp] at hq
  cases c with
  | nil => cases hq; rfl
  | cons => cases hq

/-- Below an internal root the table's codes are the paths to the leaves (43_code_table.md R205). -/
theorem BTree.mem_tableCodes_node {p : NodeIx} {l r : BTree} {a : List CodeBit} {x : Sym} :
    (x, a) ∈ (BTree.node p l r).tableCodes ↔ (a, x) ∈ (BTree.node p l r).codes := by
  rw [BTree.tableCodes_node]
  simp

/-- The table's codes of two symbols: neither begins the other (43_code_table.md R204, R206). -/
theorem BTree.tableCodes_not_isPrefix {t : BTree} {a b : List CodeBit} {x y : Sym} (ha : (x, a) ∈ t.tableCodes)
    (hb : (y, b) ∈ t.tableCodes) (hxy : x ≠ y) : ¬ a <+: b := by
  cases t with
  | leaf p z =>
    cases List.mem_singleton.mp ha
    cases List.mem_singleton.mp hb
    exact absurd rfl hxy
  | node p l r =>
    exact fun h => hxy (BTree.sym_eq_of_isPrefix (BTree.mem_tableCodes_node.mp ha) (BTree.mem_tableCodes_node.mp hb) h)

/-- No code of the table is empty: a leaf root's is "0", and an internal root is no leaf (43_code_table.md R204, R205). -/
theorem BTree.tableCodes_ne_nil {t : BTree} {a : List CodeBit} {x : Sym} (h : (x, a) ∈ t.tableCodes) : a ≠ [] := by
  cases t with
  | leaf p z =>
    cases List.mem_singleton.mp h
    exact List.cons_ne_nil _ _
  | node p l r =>
    rintro rfl
    obtain ⟨q, hq⟩ := ((BTree.node p l r).mem_codes [] x).mp (BTree.mem_tableCodes_node.mp h)
    cases hq

/-- The code a symbol has is the one `codeOf` reads. -/
theorem codeOf_eq {p : Params} {m : Mems} {x : Sym} {c : List CodeBit} (h : HasCode p m x c) : codeOf p m x = c := by
  obtain ⟨hlen, -⟩ := hasCode_len h
  obtain ⟨-, -, hclen, hcbits⟩ := h
  rw [codeOf, hclen, Option.getD_some, hlen]
  refine List.ext_getElem (by simp) fun j _ hj => ?_
  simp [hcbits j hj]

/-- A table of the codes of a tree: who has a length has a code of the tree, which `codeOf` reads (43_code_table.md R205). -/
theorem codeOf_writeTable {p : Params} {m : Mems} {t : BTree} {x : Sym} {c : BitVec 16} (hs : t.syms.Nodup)
    (hfit : ∀ y ∈ t.syms, y.toNat < nsym p) (hc : (writeTable p m t.tableCodes).clen.read x.toNat = some c) (hne : c ≠ 0) :
    (x, codeOf p (writeTable p m t.tableCodes) x) ∈ t.tableCodes := by
  have hlen : ∀ e ∈ t.tableCodes, e.2.length ≤ nMax p := fun e he =>
    (BTree.tableCodes_length he).trans (length_le_of_nodup_syms hs hfit)
  obtain ⟨-, hin, hout⟩ := writeTable_spec (m := m) (by rw [t.tableCodes_syms]; exact hs) hlen
  by_cases hx : x ∈ t.tableCodes.map (·.1)
  · obtain ⟨⟨x, a⟩, ha, rfl⟩ := List.mem_map.mp hx
    obtain ⟨hclen, hcbits⟩ := hin _ ha
    have hla : a.length ≤ nMax p := hlen _ ha
    have hcode : HasCode p (writeTable p m t.tableCodes) x a :=
      ⟨BTree.tableCodes_ne_nil ha, lt_of_le_of_lt (hla.trans (nsym_le p)) (by decide), hclen, fun j hj => by
        simpa [hj] using hcbits j (hj.trans_le hla)⟩
    rwa [codeOf_eq hcode]
  · rw [(hout x hx).1] at hc
    cases hc
    exact absurd rfl hne

/-- GENTAB without an error has passed the check (43_code_table.md R203). -/
theorem wfTree_of_gentab {s t : State} (h : exec .gentab s = .next t) (he : t.regs.errCode = 0) :
    wfTree s.params s.mems s.regs.root = .ok none := by
  obtain ⟨_, -, hw, -⟩ | ⟨e, rfl⟩ := execGentab_next h
  · exact hw
  · have hcode := (code_range e).1
    rw [show e.code = 0 from he] at hcode
    exact absurd hcode (by decide)

/-- Settles O46: the codes of the table are the paths to distinct leaves, and without a tree no symbol has one. -/
theorem codesArePrefixFree : Obligations.CodesArePrefixFree := by
  rintro s t x y hi h he hxy ⟨c, hc, hc0⟩ ⟨d, hd, hd0⟩
  by_cases hr : s.regs.root = NIL
  · rw [exec_gentab_absent hr] at h
    cases h
    cases hc
    exact absurd rfl hc0
  · obtain ⟨bt, htop, hm, hn, hs⟩ := (wfTree_ok_iff_tree hr).mp (wfTree_of_gentab h he)
    rw [exec_gentab_tree htop hm hn hs] at h
    cases h
    have hfit := BTree.syms_fit hm hi.nodeSym
    have hx := codeOf_writeTable hs hfit hc hc0
    have hy := codeOf_writeTable hs hfit hd hd0
    exact ⟨BTree.tableCodes_ne_nil hx, BTree.tableCodes_not_isPrefix hx hy hxy⟩

end Sys2Proof.Machine

/-! SUPPORT. The proofs of the family 44_encode.md: ENCODE as the composite of FREQ, BUILD and GENTAB, the bitstring it emits, and the first code that does not fit. -/

namespace Sys2Proof.Machine

/-! ### The codes of the tree BUILD_BODY leaves -/

/-- One non-empty code for each symbol of a list, none longer than the table's rows (43_code_table.md R203 to R206). -/
structure CodesFor (p : Params) (syms : List Sym) (codes : List (Sym × List CodeBit)) : Prop where
  perm : (codes.map (·.1)).Perm syms
  ne_nil : ∀ e ∈ codes, e.2 ≠ []
  length_le : ∀ e ∈ codes, e.2.length ≤ nMax p

/-- The codes of a tree are codes for its leaves, when these are no more than the symbols of the build. -/
theorem BTree.tableCodes_codesFor {p : Params} {t : BTree} {syms : List Sym} (hs : t.syms.Perm syms) (hl : syms.length ≤ nMax p) :
    CodesFor p syms t.tableCodes where
  perm := t.tableCodes_syms ▸ hs
  ne_nil _ he := BTree.tableCodes_ne_nil he
  length_le _ he := (BTree.tableCodes_length he).trans (hs.length_eq.trans_le hl)

/-- The tree BUILD_BODY leaves passes WF_TREE and gives each symbol of the table a code (42_tree_build.md R184, 43_code_table.md R201, R203). -/
theorem buildTree_codesFor {es : List (Sym × Word)} {u : State} (hw : NodeWf u.mems) (hn : (es.map (·.1)).Nodup)
    (hl : es.length ≤ nMax u.params) :
    ∃ codes, wfTree (buildTree es u).params (buildTree es u).mems (buildTree es u).regs.root = .ok none ∧
      treeCodes (buildTree es u).params (buildTree es u).mems (buildTree es u).regs.root = .ok codes ∧
      CodesFor u.params (es.map (·.1)) codes := by
  by_cases he : es = []
  · subst he
    exact ⟨[], rfl, rfl, .refl _, by simp, by simp⟩
  · obtain ⟨t, htop, hnodes, hsyms, hm⟩ := built_tree_uniform he hl
    have hm := hm u.mems hw
    rw [buildTree_params, buildTree_of_ne_nil he, ← htop]
    exact ⟨t.tableCodes, (wfTree_ok_iff_tree (BTree.top_ne_nil hm)).mpr ⟨t, rfl, hm, hnodes, hsyms.nodup_iff.mpr hn⟩,
      treeCodes_tree hm hnodes, BTree.tableCodes_codesFor hsyms (by simpa using hl)⟩

/-- Each symbol with a code has it in the table GENTAB_BODY writes (43_code_table.md R203). -/
theorem writeTable_hasCode {p : Params} {syms : List Sym} {codes : List (Sym × List CodeBit)} (h : CodesFor p syms codes)
    (hn : syms.Nodup) (m : Mems) {x : Sym} (hx : x ∈ syms) :
    HasCode p (writeTable p m codes) x (codeOf p (writeTable p m codes) x) := by
  obtain ⟨⟨x, c⟩, hmem, rfl⟩ := List.mem_map.mp (h.perm.mem_iff.mpr hx)
  have hlen : c.length ≤ nMax p := h.length_le _ hmem
  obtain ⟨hclen, hcbits⟩ := (writeTable_spec (m := m) (h.perm.nodup_iff.mpr hn) h.length_le).2.1 _ hmem
  have hcode : HasCode p (writeTable p m codes) x c :=
    ⟨h.ne_nil _ hmem, lt_of_le_of_lt (hlen.trans (nsym_le p)) (by decide), hclen, fun j hj => by
      simpa [hj] using hcbits j (hj.trans_le hlen)⟩
  rwa [codeOf_eq hcode]

/-! ### ENCODE's tables are those of the three commands -/

/-- GENTAB on a tree that passes the check is GENTAB_BODY (43_code_table.md R203). -/
theorem exec_gentab_passed {s : State} {codes : List (Sym × List CodeBit)}
    (hw : wfTree s.params s.mems s.regs.root = .ok none) (hc : treeCodes s.params s.mems s.regs.root = .ok codes) :
    exec .gentab s = .next (completeOk { s with mems := writeTable s.params s.mems codes }) := by
  show complete (gentabCmd s) = _
  rw [gentabCmd, hw, gentabBody, hc]
  rfl

/-- A completion before BUILD_BODY leaves no trace in the memories or in TREE. -/
theorem buildTree_completeOk (es : List (Sym × Word)) (s : State) :
    buildTree es (completeOk s) = completeOk (buildTree es s) := by
  cases es <;> rfl

/-- What the input of ENCODE makes of its tables: the three commands leave them one after the other, and each symbol of the input has a code (44_encode.md R230, R232). -/
structure EncodesWith (xs : List Sym) (codes : List (Sym × List CodeBit)) (s : State) : Prop where
  freq : exec .freq s = .next (completeOk (freqBody xs s))
  build : exec .build (completeOk (freqBody xs s)) = .next (completeOk (inputTree xs s))
  gentab : exec .gentab (completeOk (inputTree xs s)) = .next (completeOk (inputTables xs codes s))
  treeCodes_eq : treeCodes (inputTree xs s).params (inputTree xs s).mems (inputTree xs s).regs.root = .ok codes
  hasCode : ∀ x ∈ xs, HasCode (inputTables xs codes s).params (inputTables xs codes s).mems x
    (codeOf (inputTables xs codes s).params (inputTables xs codes s).mems x)

theorem encodesWith_input {s : State} {xs : List Sym} (hs : Inv s) (hl : s.regs.symLen ≤ s.params.symDepth)
    (hn : s.regs.symLen.toNat = xs.length) (hx : Holds s.mems.sym 0 xs) : ∃ codes, EncodesWith xs codes s := by
  have h32 : xs.length < 2 ^ 32 := hn ▸ s.regs.symLen.isLt
  have hv := freqEntries_valid h32
  have hcap : (freqEntries xs).length ≤ nMax s.params := by
    simpa using eraseDups_length_le xs (hx.mem_lt_nMax hs)
  obtain ⟨codes, hw, hc, hfor⟩ := buildTree_codesFor (u := freqBody xs s) (freqBody_nodeWf hs xs) hv.2.1 hcap
  refine ⟨codes, exec_freq_input hl hn hx, ?build, exec_gentab_passed hw hc, hc, fun x hmem => ?hasCode⟩
  case build =>
    have hes : EntriesAre (completeOk (freqBody xs s)) (freqEntries xs) := freqBody_entriesAre hs h32
    rw [exec_build_valid hes hv hcap, buildTree_completeOk]
    rfl
  case hasCode =>
    have hp : (inputTree xs s).params = s.params := buildTree_params _ _
    rw [inputTables_params, inputTables, hp]
    rw [freqEntries_syms] at hfor
    exact writeTable_hasCode hfor (nodup_eraseDups xs) _ (List.mem_eraseDups.mpr hmem)

/-- The emission keeps the codes. -/
@[simp] theorem codeOf_emitted (ts : List Token) (e : Option CmdError) (u : State) :
    codeOf (emitted ts e u).params (emitted ts e u).mems = codeOf u.params u.mems := by
  cases e <;> rfl

/-- The emission keeps N_ENTRIES and TREE (44_encode.md R230). -/
theorem emitted_tables (ts : List Token) (e : Option CmdError) (u : State) :
    (emitted ts e u).regs.nEntries = u.regs.nEntries ∧ (emitted ts e u).regs.root = u.regs.root ∧
      (emitted ts e u).regs.nNodes = u.regs.nNodes := by
  cases e <;> exact ⟨rfl, rfl, rfl⟩

/-- Settles O47: ENCODE comes to its emission with the tables of the three commands, and every symbol has a code to emit. -/
theorem encodeIsTheComposite : Obligations.EncodeIsTheComposite := by
  intro s xs hs hl hn hx
  obtain ⟨codes, h⟩ := encodesWith_input hs hl hn hx
  obtain ⟨ts, e, he⟩ := emitLoop_total _ xs 0 0 h.hasCode
  obtain ⟨hentries, hroot, hnodes⟩ := emitted_tables ts e (inputTables xs codes s)
  refine ⟨_, _, _, _, exec_encode_emitted hs hl hn hx h.treeCodes_eq he, h.freq, h.build, h.gentab, rfl, rfl, rfl, ?mems,
    hentries, hroot, hnodes, fun x hmem => ?code⟩
  case mems =>
    rw [emitted_mems]
    rfl
  case code =>
    rw [codeOf_emitted]
    exact (h.hasCode x hmem).1

/-! ### The bitstring -/

/-- ENCODE up to its emission leaves BIT alone (44_encode.md R230). -/
theorem inputTables_bit (xs : List Sym) (codes : List (Sym × List CodeBit)) (s : State) :
    (inputTables xs codes s).mems.bit = s.mems.bit := by
  rw [inputTables, writeTable_frame, inputTree, buildTree_frame]
  rfl

theorem inputTables_err (xs : List Sym) (codes : List (Sym × List CodeBit)) (s : State) :
    (inputTables xs codes s).regs.err = s.regs.err := by
  rw [inputTables, inputTree, buildTree_frame]
  rfl

/-- BIT holds the tokens emitted, however the emission ends, and keeps the cells above (44_encode.md R231, R233). -/
theorem emitted_bits {s : State} (hs : Inv s) (xs : List Sym) (codes : List (Sym × List CodeBit)) (ts : List Token)
    (e : Option CmdError) :
    Holds (emitted ts e (inputTables xs codes s)).mems.bit 0 ts ∧
      ∀ k, ts.length ≤ k → (emitted ts e (inputTables xs codes s)).mems.bit.read k = s.mems.bit.read k := by
  have hw := (memOk_iff.mp hs.bit).1
  rw [emitted_mems, inputTables_bit]
  exact ⟨read_writeList_in _ 0 ts hw, fun k hk => read_writeList_above _ ts hw (by omega)⟩

/-- Settles O48: the emission of codes that fit is their concatenation. -/
theorem encodeEmitsTheCodes : Obligations.EncodeEmitsTheCodes := by
  intro s t xs hs hl hn hx ht hfit
  obtain ⟨codes, h⟩ := encodesWith_input hs hl hn hx
  obtain ⟨ts, e, he, rfl⟩ := execEncode_input hs hl hn hx h.treeCodes_eq ht
  rw [codeOf_emitted] at hfit ⊢
  rw [emitLoop_fits _ xs 0 0 h.hasCode (by simpa using hfit)] at he
  cases he
  obtain ⟨hbits, habove⟩ := emitted_bits hs xs codes _ none
  refine ⟨rfl, inputTables_err xs codes s, ?_, hbits, fun k hk => habove k (by simpa using hk)⟩
  have := s.params.bitDepth.isLt
  simp only [emitted, completeOk_regs, List.length_map, BitVec.toNat_ofNat]
  omega

/-- Settles O49: the emission stops at the first code that does not fit. -/
theorem encodeReportsFirstOverflow : Obligations.EncodeReportsFirstOverflow := by
  rintro s t _ ys zs x hs hl hn hx ht rfl hfit hover
  obtain ⟨codes, h⟩ := encodesWith_input hs hl hn hx
  obtain ⟨ts, e, he, rfl⟩ := execEncode_input hs hl hn hx h.treeCodes_eq ht
  rw [codeOf_emitted] at hfit hover ⊢
  rw [emitLoop_overflow _ x zs (h.hasCode x (by simp)) ys 0 0 (fun y hy => h.hasCode y (by simp [hy])) (by simpa using hfit)
    (by simpa using hover)] at he
  cases he
  obtain ⟨hbits, habove⟩ := emitted_bits hs (ys ++ x :: zs) codes _ (some (.bitOverflow (0 + ys.length)))
  refine ⟨rfl, rfl, ?_, rfl, hbits, fun k hk => habove k (by simpa using hk)⟩
  have := s.regs.symLen.isLt
  simp only [List.length_append, List.length_cons] at hn
  simp only [emitted, completeError_regs, CmdError.info, BitVec.toNat_ofNat]
  omega

/-! ### The empty input -/

/-- ENCODE of no symbol reads no cell and emits no token (44_encode.md R235). -/
theorem exec_encode_empty {s : State} (h : s.regs.symLen = 0) : exec .encode s = .next (emitted [] none (inputTables [] [] s)) := by
  have hl : ¬ s.params.symDepth < s.regs.symLen := by simp [h]
  show complete (encodeCmd s) = _
  rw [encodeCmd, encodeSteps, if_neg hl, h]
  rfl

/-- Settles O50: no entry, no tree and no code, so the table is only cleared. -/
theorem encodeOfEmptyInput : Obligations.EncodeOfEmptyInput :=
  fun _ h => ⟨_, exec_encode_empty h, rfl, fun i _ => read_fill 0 i, fun i _ => read_fill 0 i⟩

end Sys2Proof.Machine

/-! SUPPORT. The proofs of the family 45_decode.md: the absent tree, the walk over codes and what ends it, the single leaf, the round trip. -/

namespace Sys2Proof.Machine

/-! ### The absent tree -/

/-- Settles O53: the absent tree is the first case of the pseudocode. -/
theorem decodeOfAbsentTree : Obligations.DecodeOfAbsentTree := by
  intro s hr
  show complete (decodeCommand s) = _
  rw [decodeCommand, decodeSteps, if_pos hr]
  rfl

/-! ### What the walk leaves -/

/-- OUT after the walk: the symbols emitted, and above them the cells as they were (45_decode.md R250). -/
theorem out_walked {s : State} (hs : Inv s) (xs : List Sym) : Holds (s.mems.out.writeList 0 xs) 0 xs ∧
    ∀ k, xs.length ≤ k → (s.mems.out.writeList 0 xs).read k = s.mems.out.read k :=
  have hw := (memOk_iff.mp hs.out).1
  ⟨read_writeList_in _ 0 xs hw, fun _ hk => read_writeList_above _ xs hw (by omega)⟩

section
variable {s : State} {xs : List Sym} (hs : Inv s) (hr : s.regs.root ≠ NIL) (hb : s.regs.bitLen ≤ s.params.bitDepth)
  (hg : GoodTree s.params s.mems s.regs.root)
include hs hr hb hg

/-- DECODE whose walk completes: OUT_LEN is the number of symbols emitted (45_decode.md R250). -/
theorem decode_completes
    (hloop : decodeLoop s.params s.mems s.regs.root s.regs.bitLen.toNat 0 s.regs.root 0 = .ok (xs, none)) :
    ∃ t, exec .decode s = .next t ∧
      t = reportOk { s with
        regs := { s.regs with outLen := BitVec.ofNat 32 xs.length }
        mems := { s.mems with out := t.mems.out } } ∧
      Holds t.mems.out 0 xs ∧ ∀ k, xs.length ≤ k → t.mems.out.read k = s.mems.out.read k := by
  refine ⟨completeOk { s with
    regs := { s.regs with outLen := BitVec.ofNat 32 xs.length }
    mems := { s.mems with out := s.mems.out.writeList 0 xs } }, ?_, rfl, out_walked hs xs⟩
  rw [exec_decode_walk hr hb hg, decodeWalk, hloop]
  rfl

/-- DECODE whose walk ends by an error: the symbols before it stay in OUT, and OUT_LEN is 0 (45_decode.md R250, 60_exceptions.md R283). -/
theorem decode_fails {e : CmdError}
    (hloop : decodeLoop s.params s.mems s.regs.root s.regs.bitLen.toNat 0 s.regs.root 0 = .ok (xs, some e)) :
    ∃ t, exec .decode s = .next t ∧
      t = reportError e.code e.info { s with
        regs := { s.regs with outLen := 0 }
        mems := { s.mems with out := t.mems.out } } ∧
      Holds t.mems.out 0 xs ∧ ∀ k, xs.length ≤ k → t.mems.out.read k = s.mems.out.read k :=
  ⟨_, exec_decode_raise hr hb hg hloop, rfl, out_walked hs xs⟩

end

/-! ### The walk in a tree with an internal root -/

/-- BIT holds bits stored as tokens (44_encode.md R230). -/
theorem holdsBits_iff {m : Mems} {bs : List CodeBit} : HoldsBits m 0 bs ↔ Holds m.bit 0 (bs.map (BitVec.setWidth 2)) := by
  simp [HoldsBits, Holds]

/-- A well-formed tree with an internal root is a node over two subtrees. -/
theorem GoodTree.node {p : Params} {m : Mems} {r : NodeIx} {x : Sym} (hg : GoodTree p m r)
    (hx : m.nodeSym.read r.toNat = some ⟨x, false⟩) :
    ∃ a b, (BTree.node r a b).Matches m (nodeDepth p) ∧ (BTree.node r a b).nodes.Nodup := by
  obtain ⟨t, rfl, hm, hn, -⟩ := goodTree_iff_tree.mp hg
  cases t with
  | leaf q y =>
    obtain ⟨-, -, hy⟩ := hm
    rw [BTree.top_leaf, hy] at hx
    cases hx
  | node q a b => exact ⟨a, b, hm, hn⟩

/-- The root of a node over two subtrees carries no symbol. -/
theorem BTree.node_internal {m : Mems} {d : Nat} {q : NodeIx} {a b : BTree} (hm : (BTree.node q a b).Matches m d) :
    ∃ x, m.nodeSym.read q.toNat = some ⟨x, false⟩ := by
  obtain ⟨-, -, -, -, hx, -⟩ := hm
  exact hx

/-- A node's child is the subtree one bit further. -/
theorem BTree.sub_child {t : BTree} {path : List CodeBit} {q : NodeIx} {a b : BTree} (h : t.sub path = some (.node q a b))
    (c : CodeBit) : t.sub (path ++ [c]) = some (if c = 0 then a else b) := by
  rw [t.sub_append, h]
  rfl

/-- A walk that ends at a node without a symbol ends at an internal node of the tree. -/
theorem BTree.sub_of_walkPath {m : Mems} {d : Nat} {t : BTree} {path : List CodeBit} {q : NodeIx} {y : Sym} (hm : t.Matches m d)
    (hw : walkPath m t.top path = some q) (hq : m.nodeSym.read q.toNat = some ⟨y, false⟩) :
    ∃ a b, t.sub path = some (.node q a b) := by
  rw [walkPath_tree path t hm] at hw
  obtain ⟨u, hu, rfl⟩ := Option.map_eq_some_iff.mp hw
  cases u with
  | leaf q z =>
    obtain ⟨-, -, hz⟩ := BTree.sub_matches path t _ hm hu
    rw [BTree.top_leaf, hz] at hq
    cases hq
  | node q a b => exact ⟨a, b, hu⟩

theorem code_ne_zero (e : CmdError) : e.code ≠ 0 := by
  intro h
  have := (code_range e).1
  rw [h] at this
  exact absurd this (by decide)

theorem digit_of_valid : ∀ tok : Token, invalidToken tok = false → ∃ b : CodeBit, tok = b.setWidth 2 := by decide

/-- A token that moves the cursor is a digit (45_decode.md R254). -/
theorem digit_of_decodeToken {m : Mems} {r cur : NodeIx} {tok : Token} {k : Nat} {v : Option Sym × NodeIx}
    (h : decodeToken m r tok k cur = .ok (.ok v)) : ∃ b : CodeBit, tok = b.setWidth 2 := by
  refine digit_of_valid tok ?_
  by_contra hinv
  rw [decodeToken, if_pos (by simpa using hinv)] at h
  cases h

/-- A pass of a loop that completes: the token is a digit, and the cursor moves on without a symbol or with one (45_decode.md R250). -/
theorem decodeLoop_completes_succ {p : Params} {m : Mems} {r cur : NodeIx} {n k o : Nat} {xs : List Sym}
    (h : decodeLoop p m r (n + 1) k cur o = .ok (xs, none)) :
    ∃ b : CodeBit, m.bit.read k = some (b.setWidth 2) ∧
      ((∃ cur', decodeToken m r (b.setWidth 2) k cur = .ok (.ok (none, cur')) ∧
          decodeLoop p m r n (k + 1) cur' o = .ok (xs, none)) ∨
        ∃ y cur' ys, decodeToken m r (b.setWidth 2) k cur = .ok (.ok (some y, cur')) ∧ xs = y :: ys ∧
          decodeLoop p m r n (k + 1) cur' (o + 1) = .ok (ys, none)) := by
  rw [decodeLoop] at h
  split at h
  · cases h
  · rename_i tok htok
    split at h
    · cases h
    · cases h
    · rename_i cur' hmove
      obtain ⟨b, rfl⟩ := digit_of_decodeToken hmove
      exact ⟨b, readCell_ok.mp htok, .inl ⟨cur', hmove, h⟩⟩
    · rename_i y cur' hmove
      obtain ⟨b, rfl⟩ := digit_of_decodeToken hmove
      split at h
      · cases h
      · split at h
        · cases h
        · rename_i ys e hrest
          cases h
          exact ⟨b, readCell_ok.mp htok, .inr ⟨y, cur', ys, hmove, rfl, hrest⟩⟩

section
variable {p : Params} {m : Mems} {d : Nat} {r : NodeIx} {a b : BTree} (hm : (BTree.node r a b).Matches m d)
include hm

/-- A loop that completes has read a sequence of codes, the first from the cursor's place in it on (45_decode.md R250, R251). -/
theorem decodeLoop_completes (hn : (BTree.node r a b).nodes.Nodup) :
    ∀ (n k o : Nat) (path : List CodeBit) (q : NodeIx) (u v : BTree) (xs : List Sym),
      (BTree.node r a b).sub path = some (.node q u v) → decodeLoop p m r n k q o = .ok (xs, none) →
      ∃ (l : List (List CodeBit × Sym)) (rest : List CodeBit), (∀ e ∈ l, e ∈ (BTree.node r a b).codes) ∧
        l.flatMap (·.1) = path ++ rest ∧ rest.length = n ∧ HoldsBits m k rest ∧ xs = l.map (·.2)
  | 0, k, o, path, q, u, v, xs, hq, h => by
    simp only [decodeLoop, Except.ok.injEq, Prod.mk.injEq, ite_eq_left_iff, reduceCtorEq, imp_false, not_not] at h
    obtain ⟨rfl, hend⟩ := h
    obtain rfl : path = [] := BTree.sub_top_inj _ path [] _ _ hn hq rfl hend
    exact ⟨[], [], by simp, rfl, rfl, by simp [HoldsBits], rfl⟩
  | n + 1, k, o, path, q, u, v, xs, hq, h => by
    obtain ⟨x, hx⟩ := BTree.node_internal hm
    obtain ⟨c, hbit, hmove⟩ := decodeLoop_completes_succ h
    have hchild := BTree.sub_child hq c
    rw [decodeToken_node hx (BTree.sub_matches path _ _ hm hq) c k] at hmove
    cases hc : (if c = 0 then u else v) with
    | leaf q' y =>
      rw [hc] at hchild hmove
      obtain ⟨_, h', -⟩ | ⟨_, _, ys, h', rfl, hrest⟩ := hmove <;> cases h'
      obtain ⟨l, rest, hl, hflat, hlen, hbits, rfl⟩ := decodeLoop_completes hn n (k + 1) (o + 1) [] r a b ys rfl hrest
      exact ⟨(path ++ [c], y) :: l, c :: rest, List.forall_mem_cons.mpr ⟨(BTree.mem_codes _ _ _).mpr ⟨q', hchild⟩, hl⟩,
        by simp [hflat], by simp [hlen], holdsBits_cons.mpr ⟨hbit, hbits⟩, rfl⟩
    | node q' u' v' =>
      rw [hc] at hchild hmove
      obtain ⟨_, h', hrest⟩ | ⟨_, _, ys, h', -⟩ := hmove <;> cases h'
      obtain ⟨l, rest, hl, hflat, hlen, hbits, hxs⟩ := decodeLoop_completes hn n (k + 1) o _ _ _ _ xs hchild hrest
      exact ⟨l, c :: rest, hl, by simp [hflat], by simp [hlen], holdsBits_cons.mpr ⟨hbit, hbits⟩, hxs⟩

variable {l : List (List CodeBit × Sym)} (hl : ∀ e ∈ l, e ∈ (BTree.node r a b).codes)
include hl

/-- Codes that fit in OUT decode to their symbols (45_decode.md R250). -/
theorem decodeLoop_spelled (hbits : HoldsBits m 0 (l.flatMap (·.1))) (hlen : l.length ≤ p.outDepth.toNat) :
    decodeLoop p m r (l.flatMap (·.1)).length 0 r 0 = .ok (l.map (·.2), none) := by
  obtain ⟨x, hx⟩ := BTree.node_internal hm
  have h := decodeLoop_codes (p := p) hm hx l 0 0 0 hl hbits (by omega)
  simpa [decodeLoop] using h

variable {path : List CodeBit} (hbits : HoldsBits m 0 (l.flatMap (·.1) ++ path))
include hbits

/-- Tokens that end inside a code: the cursor is not at the root (45_decode.md R251, R253). -/
theorem decodeLoop_malformedEnd {q : NodeIx} {u v : BTree} (hn : (BTree.node r a b).nodes.Nodup)
    (hlen : l.length ≤ p.outDepth.toNat) (hpath : (BTree.node r a b).sub path = some (.node q u v)) (hne : path ≠ []) :
    decodeLoop p m r (l.flatMap (·.1) ++ path).length 0 r 0 =
      .ok (l.map (·.2), some (.malformedStream (l.flatMap (·.1) ++ path).length)) := by
  obtain ⟨x, hx⟩ := BTree.node_internal hm
  obtain ⟨hb1, hb2⟩ := holdsBits_append.mp hbits
  have hinside := decodeLoop_inside (p := p) hx path _ q u v 0 _ l.length hm hpath hb2
  have hcur : q ≠ r := fun h => hne (BTree.sub_top_inj _ path [] _ _ hn hpath rfl h)
  have h := decodeLoop_codes (p := p) hm hx l path.length 0 0 hl hb1 (by omega)
  simp only [Nat.zero_add, BTree.top_node, decodeLoop, if_neg hcur] at h hinside
  rw [List.length_append, Nat.add_comm, h, hinside, Nat.add_comm]
  simp

/-- A code more than OUT holds: its symbol is due at its last token (45_decode.md R250). -/
theorem decodeLoop_outOverflow {x : Sym} (hlen : l.length = p.outDepth.toNat) (hpath : (path, x) ∈ (BTree.node r a b).codes)
    (n : Nat) :
    decodeLoop p m r (n + (l.flatMap (·.1) ++ path).length) 0 r 0 =
      .ok (l.map (·.2), some (.outOverflow ((l.flatMap (·.1) ++ path).length - 1))) := by
  obtain ⟨z, hz⟩ := BTree.node_internal hm
  obtain ⟨hb1, hb2⟩ := holdsBits_append.mp hbits
  obtain ⟨q, hq⟩ := (BTree.mem_codes _ path x).mp hpath
  have hne : path ≠ [] := by rintro rfl; cases hq
  have hcode := decodeLoop_code (p := p) hz path _ q x n _ l.length hm hne hq hb2
  have h := decodeLoop_codes (p := p) hm hz l (n + path.length) 0 0 hl hb1 (by omega)
  simp only [Nat.zero_add, BTree.top_node, if_pos hlen] at h hcode
  rw [List.length_append, Nat.add_comm (l.flatMap (·.1)).length, ← Nat.add_assoc, h, hcode, Nat.add_comm path.length]
  simp

end

/-- Settles O54: the walk over codes emits their symbols, and a walk that completes has read codes. -/
theorem decodeReadsCodes : Obligations.DecodeReadsCodes := by
  rintro s hs hr hg ⟨-, x, hx⟩ hb spells
  obtain ⟨a, b, hm, hn⟩ := hg.node hx
  refine ⟨?codes, fun t ht herr => ?converse⟩
  case codes =>
    rintro l ⟨hl, hlen, hbits, hcap⟩
    have hloop := decodeLoop_spelled hm (fun e he => (codePath_tree hm e.1 e.2).mp (hl e he)) (holdsBits_iff.mpr hbits) hcap
    rw [hlen] at hloop
    obtain ⟨t, ht, hreport, hout, habove⟩ := decode_completes hs hr hb hg hloop
    rw [List.length_map] at hreport habove
    refine ⟨t, ht, hreport, ?_, hout, habove⟩
    have := s.params.outDepth.isLt
    rw [hreport]
    simp only [reportOk, BitVec.toNat_ofNat]
    omega
  case converse =>
    obtain ⟨h0, -⟩ | ⟨e, rfl⟩ | ⟨-, -, -, xs, ⟨hloop, rfl⟩ | ⟨e, -, rfl⟩⟩ := execDecode_next ht
    · exact absurd h0 hr
    · exact absurd herr (code_ne_zero e)
    · obtain ⟨l, rest, hl, hflat, hlen, hbits, rfl⟩ := decodeLoop_completes hm hn _ _ _ [] _ a b xs rfl hloop
      rw [List.nil_append] at hflat
      subst hflat
      have hcap := (walked_memsOk (inv_iff.mp hs).2.1 hloop).1
      rw [List.length_map] at hcap
      refine ⟨l, ⟨fun e he => (codePath_tree hm e.1 e.2).mpr (hl e he), hlen, holdsBits_iff.mp hbits, hcap⟩, ?_, (out_walked hs _).1⟩
      have := s.params.outDepth.isLt
      simp only [completeOk_regs, List.length_map, BitVec.toNat_ofNat]
      omega
    · exact absurd herr (code_ne_zero e)

/-- Settles O55: the walk over the codes and the part of a code ends off the root. -/
theorem decodeReportsMalformedEnd : Obligations.DecodeReportsMalformedEnd := by
  rintro s l path q hs hr hg hb hl hcap hpath hne ⟨-, y, hy⟩ hlen hbits
  obtain ⟨x, hx⟩ := walkPath_start hpath hy
  obtain ⟨a, b, hm, hn⟩ := hg.node hx
  obtain ⟨u, v, hq⟩ := BTree.sub_of_walkPath hm hpath hy
  have hloop := decodeLoop_malformedEnd hm (fun e he => (codePath_tree hm e.1 e.2).mp (hl e he)) (holdsBits_iff.mpr hbits) hn hcap
    hq hne
  rw [← hlen] at hloop
  have h := decode_fails hs hr hb hg hloop
  simpa only [CmdError.code, CmdError.info, BitVec.ofNat_toNat, BitVec.setWidth_eq, List.length_map] using h

/-- Settles O57: the walk over the codes that fill OUT comes to the next code's last token. -/
theorem decodeReportsOutOverflow : Obligations.DecodeReportsOutOverflow := by
  rintro s l path x hs hr hg ⟨-, z, hz⟩ hb hl hcap hpath hlen hbits
  obtain ⟨a, b, hm, -⟩ := hg.node hz
  have hloop := decodeLoop_outOverflow hm (fun e he => (codePath_tree hm e.1 e.2).mp (hl e he)) (holdsBits_iff.mpr hbits) hcap
    ((codePath_tree hm path x).mp hpath) (s.regs.bitLen.toNat - (l.flatMap (·.1) ++ path).length)
  rw [Nat.sub_add_cancel hlen] at hloop
  have h := decode_fails hs hr hb hg hloop
  simpa only [CmdError.code, CmdError.info, List.length_map] using h

/-! ### The walk at a leaf root -/

theorem holds_append {α : Type} {m : Mem α} {i : Nat} {xs ys : List α} (h : Holds m i (xs ++ ys)) :
    Holds m i xs ∧ Holds m (i + xs.length) ys := by
  refine ⟨fun k hk => ?_, fun k hk => ?_⟩
  · rw [h k (by simp; omega), List.getElem_append_left hk]
  · rw [Nat.add_assoc, h (xs.length + k) (by simpa using hk), List.getElem_append_right (by omega)]
    simp

theorem holds_replicate {α : Type} {m : Mem α} {i n : Nat} {x : α} (h : Holds m i (List.replicate n x)) {k : Nat} (hk : k < n) :
    m.read (i + k) = some x := by
  have := h k (by simpa using hk)
  rwa [List.getElem_replicate] at this

/-- A leaf inside NODE is a well-formed tree of one node (43_code_table.md R202). -/
theorem goodTree_leaf {p : Params} {m : Mems} {r : NodeIx} (hin : r.toNat < nodeDepth p) (h : IsLeaf m r) : GoodTree p m r := by
  obtain ⟨hlr, x, hx⟩ := h
  exact goodTree_iff_tree.mpr ⟨.leaf r x, rfl, ⟨hin, hlr, hx⟩, by simp [BTree.nodes], by simp [BTree.syms]⟩

section
variable {p : Params} {m : Mems} {r : NodeIx} {x : Sym} (hroot : m.nodeSym.read r.toNat = some ⟨x, true⟩)
include hroot

/-- The loop at a leaf root on a token that is no code, or on a code when OUT is full (45_decode.md R252, R254). -/
theorem decodeLoop_leaf_token {tok : Token} {code : BitVec 4} {o : Nat} (n k : Nat) (hk : m.bit.read k = some tok)
    (ht : (tok = 1 ∧ code = 3) ∨ (tok = 2 ∧ code = 2) ∨ (tok = 3 ∧ code = 2) ∨ (tok = 0 ∧ o = p.outDepth.toNat ∧ code = 10)) :
    ∃ e : CmdError, decodeLoop p m r (n + 1) k r o = .ok ([], some e) ∧ e.code = code ∧ e.info = BitVec.ofNat 32 k := by
  obtain ⟨rfl, rfl⟩ | ⟨rfl, rfl⟩ | ⟨rfl, rfl⟩ | ⟨rfl, ho, rfl⟩ := ht
  · exact ⟨.malformedStream k, by simp [decodeLoop, readCell_ok.mpr hk, decodeToken, invalidToken, readCell_ok.mpr hroot], rfl, rfl⟩
  · exact ⟨.invalidBit k, decodeLoop_invalid n k o hk rfl, rfl, rfl⟩
  · exact ⟨.invalidBit k, decodeLoop_invalid n k o hk rfl, rfl, rfl⟩
  · exact ⟨.outOverflow k, by simp [decodeLoop, readCell_ok.mpr hk, decodeToken, invalidToken, readCell_ok.mpr hroot, ho], rfl, rfl⟩

variable {n : Nat} (hn : n ≤ p.outDepth.toNat) (hz : Holds m.bit 0 (List.replicate n 0))
include hn hz

/-- The loop over zeros that fit in OUT (45_decode.md R252). -/
theorem decodeLoop_zeros : decodeLoop p m r n 0 r 0 = .ok (List.replicate n x, none) := by
  have h := decodeLoop_leaf (p := p) hroot n 0 0 0 (fun i hi => holds_replicate hz hi) (by omega)
  simpa [decodeLoop] using h

/-- The loop over zeros that fit in OUT and a token it stops at (45_decode.md R252, R254). -/
theorem decodeLoop_zeros_token {tok : Token} {code : BitVec 4} (rest : Nat) (hk : m.bit.read n = some tok)
    (ht : (tok = 1 ∧ code = 3) ∨ (tok = 2 ∧ code = 2) ∨ (tok = 3 ∧ code = 2) ∨ (tok = 0 ∧ n = p.outDepth.toNat ∧ code = 10)) :
    ∃ e : CmdError, decodeLoop p m r (rest + 1 + n) 0 r 0 = .ok (List.replicate n x, some e) ∧ e.code = code ∧
      e.info = BitVec.ofNat 32 n := by
  obtain ⟨e, he, hcode, hinfo⟩ := decodeLoop_leaf_token hroot rest n hk ht
  have h := decodeLoop_leaf (p := p) hroot n (rest + 1) 0 0 (fun i hi => holds_replicate hz hi) (by omega)
  simp only [Nat.zero_add, he] at h
  exact ⟨e, by simpa using h, hcode, hinfo⟩

end

/-- Settles O58: the zeros are codes, and each kind of token that can follow ends the walk with its own error. -/
theorem decodeOfSingleLeaf : Obligations.DecodeOfSingleLeaf := by
  intro s x n hs hin hleaf hx hb hcap
  have hr := ne_nil_of_inside hin
  have hg := goodTree_leaf hin hleaf
  refine ⟨fun hlen hz => ?zeros, fun hlt tok code hbits ht => ?stops⟩
  case zeros =>
    subst hlen
    have h := decode_completes hs hr hb hg (decodeLoop_zeros hx hcap hz)
    simpa only [List.length_replicate] using h
  case stops =>
    obtain ⟨hz, htok⟩ := holds_append hbits
    have hk : s.mems.bit.read n = some tok := by simpa using htok 0 (by simp)
    obtain ⟨e, hloop, rfl, hinfo⟩ := decodeLoop_zeros_token hx hcap hz (s.regs.bitLen.toNat - n - 1) hk ht
    rw [show s.regs.bitLen.toNat - n - 1 + 1 + n = s.regs.bitLen.toNat by omega] at hloop
    have h := decode_fails hs hr hb hg hloop
    rw [hinfo] at h
    simpa only [List.length_replicate] using h

/-! ### The round trip -/

/-- An emission without an error has emitted the codes of its symbols (44_encode.md R231). -/
theorem emitLoop_ok {p : Params} {m : Mems} (code : Sym → List CodeBit) :
    ∀ (xs : List Sym) (i pos : Nat) (ts : List Token), (∀ x ∈ xs, HasCode p m x (code x)) →
      emitLoop p m xs i pos = .ok (ts, none) → ts = (xs.flatMap code).map bitToken
  | [], _, _, _, _, h => by cases h; rfl
  | x :: xs, i, pos, ts, hcode, h => by
    rw [emitLoop_pass (hcode x (by simp))] at h
    split at h
    · cases h
    · split at h
      · cases h
      · rename_i ts' e hrest
        cases h
        rw [emitLoop_ok code xs _ _ ts' (fun y hy => hcode y (by simp [hy])) hrest]
        simp

/-- The table's codes of a tree in memory decode to their symbols, when these fit in OUT (45_decode.md R252, R257). -/
theorem decodeLoop_tableCodes {p : Params} {m : Mems} {d : Nat} {t : BTree} (hm : t.Matches m d) {xs : List Sym}
    {code : Sym → List CodeBit} (hcode : ∀ x ∈ xs, (x, code x) ∈ t.tableCodes) (hbits : HoldsBits m 0 (xs.flatMap code))
    (hlen : xs.length ≤ p.outDepth.toNat) :
    decodeLoop p m t.top (xs.flatMap code).length 0 t.top 0 = .ok (xs, none) := by
  cases t with
  | leaf q y =>
    obtain ⟨-, -, hy⟩ := hm
    have hone : ∀ x ∈ xs, x = y ∧ code x = [0] := fun x hx => by simpa using hcode x hx
    have hsyms : xs = List.replicate xs.length y := List.eq_replicate_iff.mpr ⟨rfl, fun x hx => (hone x hx).1⟩
    have hflat : xs.flatMap code = List.replicate xs.length 0 := by
      rw [List.flatMap_congr fun x hx => (hone x hx).2, ← List.map_eq_flatMap, List.map_const']
    rw [hflat, holdsBits_iff, List.map_replicate] at hbits
    rw [hflat, List.length_replicate, BTree.top_leaf, decodeLoop_zeros hy hlen hbits, ← hsyms]
  | node q a b =>
    have hflat : (xs.map fun x => (code x, x)).flatMap (·.1) = xs.flatMap code := by simp [List.flatMap_map]
    have h := decodeLoop_spelled (p := p) hm (l := xs.map fun x => (code x, x)) (fun e he => by
      obtain ⟨x, hx, rfl⟩ := List.mem_map.mp he
      exact BTree.mem_tableCodes_node.mp (hcode x hx)) (by rwa [hflat]) (by simpa using hlen)
    rw [hflat] at h
    simpa [Function.comp_def] using h

/-- TREE and NODE hold a well-formed tree, and it gives the symbols of `xs` their codes (43_code_table.md R203). -/
structure CodedTree (t : State) (xs : List Sym) (tree : BTree) (code : Sym → List CodeBit) : Prop where
  top : tree.top = t.regs.root
  held : tree.Matches t.mems (nodeDepth t.params)
  nodes : tree.nodes.Nodup
  syms : tree.syms.Nodup
  codes : ∀ x ∈ xs, (x, code x) ∈ tree.tableCodes

/-- The encoding of `xs`: such a tree, and the codes in input order as the bitstring (44_encode.md R231, R232). -/
structure Encoded (t : State) (xs : List Sym) (tree : BTree) (code : Sym → List CodeBit) : Prop
    extends CodedTree t xs tree code where
  bits : HoldsBits t.mems 0 (xs.flatMap code)
  bitLen : t.regs.bitLen.toNat = (xs.flatMap code).length
  fits : t.regs.bitLen ≤ t.params.bitDepth

section
variable {t v : State} {xs : List Sym} {tree : BTree} {code : Sym → List CodeBit} (hp : v.params = t.params)
  (hroot : v.regs.root = t.regs.root) (hlr : v.mems.nodeLr = t.mems.nodeLr) (hns : v.mems.nodeSym = t.mems.nodeSym)
include hp hroot hlr hns

theorem CodedTree.congr (h : CodedTree t xs tree code) : CodedTree v xs tree code where
  top := h.top.trans hroot.symm
  held := hp ▸ BTree.matches_congr (fun _ _ => ⟨by rw [hlr], by rw [hns]⟩) h.held
  nodes := h.nodes
  syms := h.syms
  codes := h.codes

/-- The encoding is in BIT, BIT_LEN, TREE and NODE alone (45_decode.md R257). -/
theorem Encoded.congr (h : Encoded t xs tree code) (hbit : v.mems.bit = t.mems.bit) (hlen : v.regs.bitLen = t.regs.bitLen) :
    Encoded v xs tree code where
  toCodedTree := h.toCodedTree.congr hp hroot hlr hns
  bits j hj := hbit ▸ h.bits j hj
  bitLen := hlen ▸ h.bitLen
  fits := hlen ▸ hp ▸ h.fits

end

/-- DECODE gives the input of an encoding back, when it fits in OUT (45_decode.md R257). -/
theorem Encoded.decode {v : State} {xs : List Sym} {tree : BTree} {code : Sym → List CodeBit} (h : Encoded v xs tree code)
    (hv : Inv v) (hcap : xs.length ≤ v.params.outDepth.toNat) :
    ∃ u, exec .decode v = .next u ∧
      u = reportOk { v with
        regs := { v.regs with outLen := BitVec.ofNat 32 xs.length }
        mems := { v.mems with out := u.mems.out } } ∧
      Holds u.mems.out 0 xs := by
  have hr : v.regs.root ≠ NIL := h.top ▸ BTree.top_ne_nil h.held
  have hg : GoodTree v.params v.mems v.regs.root := goodTree_iff_tree.mpr ⟨tree, h.top, h.held, h.nodes, h.syms⟩
  have hloop := decodeLoop_tableCodes h.held h.codes h.bits hcap
  rw [← h.bitLen, h.top] at hloop
  obtain ⟨u, hu, hreport, hout, -⟩ := decode_completes hv hr h.fits hg hloop
  exact ⟨u, hu, hreport, hout⟩

/-- ENCODE without an error had a written input within capacity (44_encode.md R230). -/
theorem encode_input {s t : State} (h : exec .encode s = .next t) (h0 : t.regs.errCode = 0) :
    s.regs.symLen ≤ s.params.symDepth ∧ ∃ xs, xs.length = s.regs.symLen.toNat ∧ Holds s.mems.sym 0 xs := by
  obtain ⟨e, rfl⟩ | ⟨xs, _, _, _, _, _, _, hr, hl, -⟩ := execEncode_next h
  · exact absurd h0 (code_ne_zero e)
  · exact ⟨hl, xs, readRange_ok.mp hr⟩

section
variable {s : State} {xs : List Sym} (hs : Inv s) (hx : Holds s.mems.sym 0 xs) (hne : xs ≠ [])
include hs hx hne

/-- ENCODE's BUILD_BODY leaves one tree of the input's symbols (42_tree_build.md R184). -/
theorem inputTree_tree :
    ∃ tree : BTree, tree.top = (inputTree xs s).regs.root ∧ tree.Matches (inputTree xs s).mems (nodeDepth s.params) ∧
      tree.nodes.Nodup ∧ tree.syms.Perm xs.eraseDups := by
  have he : freqEntries xs ≠ [] := fun h => by
    have hd : xs.eraseDups = [] := by rw [← freqEntries_syms, h]; rfl
    obtain ⟨x, hmem⟩ := List.exists_mem_of_ne_nil xs hne
    exact List.not_mem_nil (hd ▸ List.mem_eraseDups.mpr hmem)
  have hcap : (freqEntries xs).length ≤ nMax s.params := by
    simpa using eraseDups_length_le xs (hx.mem_lt_nMax hs)
  obtain ⟨tree, htop, hn, hsyms, hm⟩ := built_tree_uniform he hcap
  rw [freqEntries_syms] at hsyms
  rw [inputTree, buildTree_of_ne_nil he]
  exact ⟨tree, htop, hm _ (freqBody_nodeWf hs xs), hn, hsyms⟩

/-- The codes of ENCODE's code table are those of that tree (43_code_table.md R203). -/
theorem inputTables_codedTree {codes : List (Sym × List CodeBit)} (h : EncodesWith xs codes s) :
    ∃ tree, CodedTree (inputTables xs codes s) xs tree
      (codeOf (inputTables xs codes s).params (inputTables xs codes s).mems) := by
  obtain ⟨tree, htop, hm, hnodes, hperm⟩ := inputTree_tree hs hx hne
  have hp : (inputTree xs s).params = s.params := buildTree_params _ _
  obtain ⟨hlr, -, hns⟩ := inputTables_nodes xs codes s
  obtain rfl : codes = tree.tableCodes := by
    have hc := treeCodes_tree hm hnodes
    rw [htop, ← hp, h.treeCodes_eq] at hc
    exact Except.ok.inj hc
  have hsyms : tree.syms.Nodup := hperm.nodup_iff.mpr (nodup_eraseDups xs)
  have hfit : ∀ x ∈ tree.syms, x.toNat < nsym (inputTree xs s).params := fun x hmem =>
    hp ▸ hx.mem_lt_nMax hs x (List.mem_eraseDups.mp (hperm.mem_iff.mp hmem))
  refine ⟨tree, htop, ?held, hnodes, hsyms, fun x hmem => ?codes⟩
  case held =>
    rw [inputTables_params]
    exact BTree.matches_congr (fun _ _ => ⟨by rw [hlr], by rw [hns]⟩) hm
  case codes =>
    have hcode := h.hasCode x hmem
    obtain ⟨-, hpos⟩ := hasCode_len hcode
    obtain ⟨-, -, hclen, -⟩ := hcode
    exact codeOf_writeTable hsyms hfit hclen hpos

/-- ENCODE without an error leaves the encoding of its input (44_encode.md R230 to R232). -/
theorem encode_leaves {t : State} (hl : s.regs.symLen ≤ s.params.symDepth) (hn : s.regs.symLen.toNat = xs.length)
    (h : exec .encode s = .next t) (h0 : t.regs.errCode = 0) : ∃ tree code, Encoded t xs tree code := by
  obtain ⟨codes, he⟩ := encodesWith_input hs hl hn hx
  obtain ⟨ts, e, hemit, rfl⟩ := execEncode_input hs hl hn hx he.treeCodes_eq h
  cases e with
  | some e => exact absurd h0 (code_ne_zero e)
  | none =>
    obtain ⟨tree, htree⟩ := inputTables_codedTree hs hx hne he
    have hts := emitLoop_ok _ xs 0 0 ts he.hasCode hemit
    obtain ⟨hcap, -⟩ := emitLoop_fits_bit xs 0 0 ts none hemit (Nat.zero_le _)
    rw [Nat.zero_add] at hcap
    have hlen : (BitVec.ofNat 32 ts.length).toNat = ts.length := by
      have := (inputTables xs codes s).params.bitDepth.isLt
      rw [BitVec.toNat_ofNat, Nat.mod_eq_of_lt (by omega)]
    refine ⟨tree, _, CodedTree.congr (t := inputTables xs codes s) rfl rfl rfl rfl htree, ?bits, ?bitLen, ?fits⟩
    case bits => exact holdsBits_iff.mpr (hts ▸ (emitted_bits hs xs codes ts none).1)
    case bitLen => exact hlen.trans (by rw [hts, List.length_map])
    case fits => exact BitVec.le_def.mpr (hlen.trans_le hcap)

end

/-- Settles O60: the encoding survives whatever else the host has done, and DECODE gives it back. -/
theorem roundTrip : Obligations.RoundTrip := by
  intro s t v a hs h h0 hlen hcap hv hidle hp hbit hbitLen hroot _ hlr _ hns ha
  obtain ⟨hl, xs, hn, hx⟩ := encode_input h h0
  have hne : xs ≠ [] := by
    rintro rfl
    exact hlen (BitVec.eq_of_toNat_eq hn.symm)
  obtain ⟨tree, code, henc⟩ := encode_leaves hs hx hne hl hn.symm h h0
  have hv' : Inv (acceptCommand 5 v) := writeReg_inv hv .cmd 5
  have henc' : Encoded (acceptCommand 5 v) xs tree code := henc.congr hp hroot hlr hns hbit hbitLen
  have hout : xs.length ≤ v.params.outDepth.toNat := by
    rw [hn, hp, exec_params h]
    exact hcap
  obtain ⟨u, hu, hreport, hout⟩ := henc'.decode hv' hout
  refine ⟨_, u, acceptanceOfCommand v a 5 hidle ha, hu, by rw [hreport]; rfl, by rw [hreport]; rfl, ?len, fun i hi => ?cells⟩
  case len =>
    rw [hreport, hn]
    simp [reportOk]
  case cells =>
    rw [← hn] at hi
    have h1 := hout i hi
    have h2 := hx i hi
    rw [Nat.zero_add] at h1 h2
    rw [h1, h2]

end Sys2Proof.Machine

/-! SUPPORT. The proofs of the family 60_exceptions.md: what a failed command leaves, and when the interrupt changes. -/

namespace Sys2Proof.Machine

/-! ### Failed commands -/

/-- FREQ, BUILD and GENTAB make every check before any write, so one that fails changes only its report (60_exceptions.md R283). -/
theorem exec_failed_before_writing {i : Instr} {s t : State} (hi : i = .freq ∨ i = .build ∨ i = .gentab) (h : exec i s = .next t)
    (hf : t.regs.errCode ≠ 0) : ∃ e, t = completeError e s := by
  rcases hi with rfl | rfl | rfl
  · rcases execFreq_next h with ⟨xs, _, _, rfl⟩ | herror
    · exact absurd rfl hf
    · exact herror
  · rcases execBuild_next h with ⟨u, _, _, _, rfl⟩ | herror
    · exact absurd rfl hf
    · exact herror
  · rcases execGentab_next h with ⟨codes, _, _, rfl⟩ | herror
    · exact absurd rfl hf
    · exact herror

/-- ENCODE that fails returns no length, whether it stops at SYM_LEN or in its emission (60_exceptions.md R283). -/
theorem execEncode_failed {s t : State} (h : exec .encode s = .next t) (hf : t.regs.errCode ≠ 0) : t.regs.bitLen = 0 := by
  rcases execEncode_next h with ⟨e, rfl⟩ | ⟨xs, codes, es, ts, a, b, s3, _, _, _, _, _, _, _, ⟨_, rfl⟩ | ⟨e, _, rfl⟩⟩
  · rfl
  · exact absurd rfl hf
  · rfl

/-- DECODE that fails returns no length, whether it stops before its walk or in it (60_exceptions.md R283). -/
theorem execDecode_failed {s t : State} (h : exec .decode s = .next t) (hf : t.regs.errCode ≠ 0) : t.regs.outLen = 0 := by
  rcases execDecode_next h with ⟨_, rfl⟩ | ⟨e, rfl⟩ | ⟨_, _, _, xs, ⟨_, rfl⟩ | ⟨e, _, rfl⟩⟩
  · exact absurd rfl hf
  · rfl
  · exact absurd rfl hf
  · rfl

/-- Settles O59: a code other than 0 is `completeError`'s, so each command is in a case where it raised its error. -/
theorem errorEffects : Obligations.ErrorEffects := by
  intro s t hf
  refine ⟨fun h => execEncode_failed h hf, fun h => execDecode_failed h hf, fun h => ?_⟩
  have herror : ∃ e, t = completeError e s := by
    rcases h with h | h | h
    · exact exec_failed_before_writing (.inl rfl) h hf
    · exact exec_failed_before_writing (.inr (.inl rfl)) h hf
    · exact exec_failed_before_writing (.inr (.inr rfl)) h hf
  obtain ⟨e, rfl⟩ := herror
  rfl

/-! ### The interrupt -/

/-- irq is the OR of the two enabled flags (60_exceptions.md R286). -/
theorem irq_iff {s : State} :
    s.irq = true ↔ (s.regs.done = true ∧ s.regs.doneIe = true) ∨ (s.regs.err = true ∧ s.regs.errIe = true) := by
  simp [State.irq]

/-- A write to any register but IRQ_EN keeps the two enables (10_state.md R48). -/
theorem writeReg_enables {r : Reg} (hr : r ≠ .irqEn) (d : Word) (s : State) :
    (writeReg r d s).regs.doneIe = s.regs.doneIe ∧ (writeReg r d s).regs.errIe = s.regs.errIe := by
  cases r with
  | irqEn => exact absurd rfl hr
  | accData =>
    obtain ⟨hregs, -⟩ := portWrite_frame d s
    rw [writeReg, hregs]
    exact ⟨rfl, rfl⟩
  | _ => exact ⟨rfl, rfl⟩

/-- The two enables change only by a write to IRQ_EN and by reset, which leaves every register at its reset value (10_state.md R48). -/
theorem step_enables {s t : State} (h : step s = .next t) :
    (t.regs.doneIe = s.regs.doneIe ∧ t.regs.errIe = s.regs.errIe) ∨
    (∃ a d rest, s.pending = .access (.write .word a d) :: rest ∧ regAt a = some .irqEn) ∨
    (∃ rest, s.pending = .reset :: rest) ∧ t.regs = Regs.reset := by
  rcases step_kinds h with ⟨x, inputs, rfl⟩ | ⟨w, inputs, _, hx⟩ | ⟨a, rest, _, hx⟩ | ⟨a, d, rest, hp, hx⟩ | ⟨rest, hp, rfl⟩
  · exact .inl ⟨rfl, rfl⟩
  · obtain ⟨-, -, -, -, -, -, -, -, -, -, hdone, herr, -⟩ := completionReport _ _ _ (isCommand_decodeCmd w) hx
    exact .inl ⟨hdone, herr⟩
  · obtain ⟨-, -, hregs, -⟩ := execRd_frame hx
    rw [hregs]
    exact .inl ⟨rfl, rfl⟩
  · rcases execWr_cases a d { s with pending := rest } with ⟨_, hr⟩ | ⟨r, ha, ⟨_, _, hr⟩ | ⟨_, hr⟩⟩ <;> rw [hr] at hx <;> cases hx
    · exact .inl ⟨rfl, rfl⟩
    · exact .inl ⟨rfl, rfl⟩
    · by_cases hirq : r = .irqEn
      · exact .inr (.inl ⟨a, d, rest, hp, hirq ▸ ha⟩)
      · exact .inl (writeReg_enables hirq d _)
  · exact .inr (.inr ⟨⟨rest, hp⟩, rfl⟩)

/-- With the enables kept, irq rises only with one of the two flags (60_exceptions.md R286). -/
theorem flag_rises_of_irq {s t : State} (hdone : t.regs.doneIe = s.regs.doneIe) (herr : t.regs.errIe = s.regs.errIe)
    (h0 : s.irq = false) (h1 : t.irq = true) :
    (s.regs.done = false ∧ t.regs.done = true) ∨ (s.regs.err = false ∧ t.regs.err = true) := by
  rcases irq_iff.mp h1 with ⟨ht, hen⟩ | ⟨ht, hen⟩
  · refine .inl ⟨Bool.eq_false_iff.mpr fun hs => ?_, ht⟩
    exact absurd (irq_iff.mpr (.inl ⟨hs, hdone ▸ hen⟩)) (by simp [h0])
  · refine .inr ⟨Bool.eq_false_iff.mpr fun hs => ?_, ht⟩
    exact absurd (irq_iff.mpr (.inr ⟨hs, herr ▸ hen⟩)) (by simp [h0])

/-- With the enables kept, irq falls only with one of the two flags (60_exceptions.md R286). -/
theorem flag_falls_of_irq {s t : State} (hdone : t.regs.doneIe = s.regs.doneIe) (herr : t.regs.errIe = s.regs.errIe)
    (h1 : s.irq = true) (h0 : t.irq = false) :
    (s.regs.done = true ∧ t.regs.done = false) ∨ (s.regs.err = true ∧ t.regs.err = false) :=
  (flag_rises_of_irq hdone.symm herr.symm h0 h1).imp And.symm And.symm

/-- Settles O29: with IRQ_EN kept, irq changes only as DONE or ERR does, and each of these changes at the events 10_state.md R26 names. -/
theorem interruptChangesOnlyWhereStated : Obligations.InterruptChangesOnlyWhereStated := by
  intro s t h writes
  obtain ⟨hdoneRises, herrRises, hdoneFalls, herrFalls, -⟩ := statusFieldsChangeOnlyWhereStated s t h
  refine ⟨irq_iff, fun h0 h1 => ?rises, fun h1 h0 => ?falls⟩
  case rises =>
    rcases step_enables h with ⟨hdone, herr⟩ | hwrite | ⟨-, hreset⟩
    · rcases flag_rises_of_irq hdone herr h0 h1 with ⟨hs, ht⟩ | ⟨hs, ht⟩
      · exact .inl (hdoneRises hs ht)
      · exact .inl (herrRises hs ht).1
    · exact .inr hwrite
    · rw [State.irq, hreset] at h1
      cases h1
  case falls =>
    rcases step_enables h with ⟨hdone, herr⟩ | hwrite | ⟨hreset, -⟩
    · have hevent : (∃ a d rest, s.pending = .access (.write .word a d) :: rest ∧ regAt a = some .status) ∨
          (s.core = .idle ∧ ∃ a w rest, s.pending = .access (.write .word a w) :: rest ∧ regAt a = some .cmd) ∨
          ∃ rest, s.pending = .reset :: rest := by
        rcases flag_falls_of_irq hdone herr h1 h0 with ⟨hs, ht⟩ | ⟨hs, ht⟩
        · exact (hdoneFalls hs ht).imp_left fun ⟨a, d, rest, hp, ha, _⟩ => ⟨a, d, rest, hp, ha⟩
        · exact (herrFalls hs ht).imp_left fun ⟨a, d, rest, hp, ha, _⟩ => ⟨a, d, rest, hp, ha⟩
      exact hevent.imp_right .inr
    · exact .inr (.inl hwrite)
    · exact .inr (.inr (.inr hreset))

end Sys2Proof.Machine
